-- ==== Sys2Proof/Word.lean ====
section
/-! DEFINITION. The word of the register interface (spec/00_scope.md R8: every host register is 32 bits)
and the byte of the payload store (spec/10_state.md R37). -/

namespace Sys2Proof

/-- A host register's value (R8). -/
abbrev Word := BitVec 32

/-- A payload byte (R37), and the width of the timing fields BRP, PROP, PH1, PH2 and SJW (R8). -/
abbrev Byte := BitVec 8

end Sys2Proof
end

