-- ==== Sys2Proof/Syntax.lean ====
section
/-! DEFINITION. The enumerations of spec/30_encoding.md R110 to R113 and the commands of its opcode map (R120):
one constructor of `Instr` for each row of spec/opcode_table.json. A constructor's arguments are the fields of the
command word that its opcode reads (R102); the numeric operands are the registers ARG0 and ARG1 (R117) and stand in
the state, not in the instruction. -/

namespace Sys2Proof

/-- The field tag of a bit: the 28 tags of R110, in the order of their KIND codes. -/
inductive FieldTag where
  | sof | baseIdentifier | identifierExtension | srr | rtr | ide | r0
  | r1 | edl | brs | esi | dlc | data | stuffCount
  | stuffParity | crc | crcDelimiter | ack | ackDelimiter | eof | intermission
  | activeErrorFlag | passiveErrorFlag | errorDelimiter | overloadFlag | overloadDelimiter | suspend | idle
  deriving DecidableEq, Repr

/-- A logical value (R13, R113). -/
inductive Level where
  | dominant | recessive
  deriving DecidableEq, Repr

/-- The stuff-bit classification (R111). -/
inductive StuffKind where
  | notStuff | normalStuff | fixedStuff
  deriving DecidableEq, Repr

/-- The four segments of a bit, in their order inside it (R112). -/
inductive Phase where
  | sync | prop | phase1 | phase2
  deriving DecidableEq, Repr

/-- A slot number, SLOT or SLOT2 (R100): `NUM_SLOTS` is 4 (R7). -/
abbrev SlotIx := Fin 4

/-- How KINDF and KIND make ARG0 select a bit (R115): as an absolute index, or as the n-th bit of a tag. -/
inductive BitSel where
  /-- KINDF = 0: ARG0 is an index. -/
  | index
  /-- KINDF = 1: ARG0 counts the bits of the tag. -/
  | typed (tag : FieldTag)
  deriving DecidableEq, Repr

/-- The 36 commands (R120). An `Option` argument is a filter (R116) or the optional phase of FORCE_TQ: `none` where
its flag bit (KINDF, VALF, PHF) is 0. -/
inductive Instr where
  | build (dst : SlotIx)
  | update (slot : SlotIx)
  | clone (dst src : SlotIx)
  | getCrc (slot : SlotIx)
  | randomize
  | getBitOf (slot : SlotIx) (kind : FieldTag)
  | getBitOfNoStuff (slot : SlotIx) (kind : FieldTag)
  | getStuffBit (slot : SlotIx) (kind : Option FieldTag) (val : Option Level)
  | getFixedStuffBit (slot : SlotIx) (val : Level)
  | getNumStuffBits (slot : SlotIx) (sk : StuffKind) (val : Option Level)
  | getBitIndex (slot : SlotIx)
  | getFieldLength (slot : SlotIx) (kind : FieldTag)
  | getLength (slot : SlotIx)
  | readBit (slot : SlotIx) (sel : BitSel)
  | readPhaseLen (slot : SlotIx) (sel : BitSel) (ph : Phase)
  | getRandomBit (slot : SlotIx) (val : Option Level)
  | getRandomBitOf (slot : SlotIx) (kind : FieldTag) (val : Option Level)
  | insertBit (slot : SlotIx) (kind : FieldTag) (val : Level)
  | removeBit (slot : SlotIx) (sel : BitSel)
  | removeBitsFrom (slot : SlotIx) (sel : BitSel)
  | appendBit (slot : SlotIx) (kind : FieldTag) (val : Level)
  | insertActiveErrorFrame (slot : SlotIx) (sel : BitSel)
  | insertPassiveErrorFrame (slot : SlotIx) (sel : BitSel)
  | insertOverloadFrame (slot : SlotIx) (sel : BitSel)
  | appendSuspend (slot : SlotIx)
  | turnReceived (slot : SlotIx)
  | loseArbitration (slot : SlotIx) (sel : BitSel)
  | appendFrame (dst src : SlotIx)
  | flipBit (slot : SlotIx) (sel : BitSel)
  | setBitValue (slot : SlotIx) (sel : BitSel) (val : Level)
  | setStuffKind (slot : SlotIx) (sel : BitSel) (sk : StuffKind)
  | shortenPhase (slot : SlotIx) (sel : BitSel) (ph : Phase)
  | lengthenPhase (slot : SlotIx) (sel : BitSel) (ph : Phase)
  | forceTq (slot : SlotIx) (sel : BitSel) (ph : Option Phase) (val : Level)
  | qzLength (slot : SlotIx)
  | qzRead (slot : SlotIx)
  deriving DecidableEq, Repr

end Sys2Proof
end

