-- ==== Sys2Proof/WellFormed.lean ====
section
/-! DEFINITION. Which commands the encoding of spec/30_encoding.md admits. The types of `Instr` already leave out
the unassigned codes of KIND and SK (R106); what is left to check is the one code that is assigned but illegal for
one opcode. -/

namespace Sys2Proof

/-- R106: GET_NUM_STUFF_BITS counts Normal or Fixed stuff bits; SK = 0 (NotStuff) is illegal for it. -/
def Instr.wellFormed : Instr → Bool
  | .getNumStuffBits _ sk _ => sk != .notStuff
  | _ => true

/-- `Instr.wellFormed` as a proposition. -/
abbrev Instr.WellFormed (i : Instr) : Prop := i.wellFormed = true

end Sys2Proof
end

