-- ==== Sys2Proof/Decode.lean ====
section
/-! DEFINITION. The command word of spec/30_encoding.md R100: its fields, the decoder (R102 to R106), the codes of
the enumerations (R110 to R113), and after it the encoder, written from the same tables. -/

namespace Sys2Proof

/-- The fields of a command word (R100), each as the bits it is. -/
structure CmdFields where
  /-- [5:0] -/
  opc : BitVec 6
  /-- [7:6] -/
  slot : BitVec 2 := 0
  /-- [9:8] -/
  slot2 : BitVec 2 := 0
  /-- [14:10] -/
  kind : BitVec 5 := 0
  /-- [15] -/
  val : BitVec 1 := 0
  /-- [16] -/
  valf : BitVec 1 := 0
  /-- [17] -/
  kindf : BitVec 1 := 0
  /-- [19:18] -/
  ph : BitVec 2 := 0
  /-- [20] -/
  phf : BitVec 1 := 0
  /-- [22:21] -/
  sk : BitVec 2 := 0
  /-- [31:23], which must be 0 (R104) -/
  reserved : BitVec 9 := 0
  deriving DecidableEq, Repr

/-- Why a command word is refused. The machine answers each with Fatal(ILLEGAL_COMMAND) (R104 to R106). -/
inductive DecodeError where
  /-- R104: one of the bits [31:23] is set. -/
  | reservedBits
  /-- R105: the OPC value is not assigned. -/
  | unassignedOpcode
  /-- R106: KIND is 28..31 and the opcode reads it. -/
  | unassignedKind
  /-- R106: SK is 3, or 0 for GET_NUM_STUFF_BITS, and the opcode reads it. -/
  | illegalStuffKind
  deriving DecidableEq, Repr

/-- Cuts a command word into its fields (R100). -/
def unpackFields (w : Word) : CmdFields :=
  { opc := w.extractLsb' 0 6
    slot := w.extractLsb' 6 2
    slot2 := w.extractLsb' 8 2
    kind := w.extractLsb' 10 5
    val := w.extractLsb' 15 1
    valf := w.extractLsb' 16 1
    kindf := w.extractLsb' 17 1
    ph := w.extractLsb' 18 2
    phf := w.extractLsb' 20 1
    sk := w.extractLsb' 21 2
    reserved := w.extractLsb' 23 9 }

/-- The KIND code of a tag (R110). -/
def FieldTag.code : FieldTag → Nat
  | .sof => 0
  | .baseIdentifier => 1
  | .identifierExtension => 2
  | .srr => 3
  | .rtr => 4
  | .ide => 5
  | .r0 => 6
  | .r1 => 7
  | .edl => 8
  | .brs => 9
  | .esi => 10
  | .dlc => 11
  | .data => 12
  | .stuffCount => 13
  | .stuffParity => 14
  | .crc => 15
  | .crcDelimiter => 16
  | .ack => 17
  | .ackDelimiter => 18
  | .eof => 19
  | .intermission => 20
  | .activeErrorFlag => 21
  | .passiveErrorFlag => 22
  | .errorDelimiter => 23
  | .overloadFlag => 24
  | .overloadDelimiter => 25
  | .suspend => 26
  | .idle => 27

/-- The tag of a KIND code (R110); 28..31 are unassigned (R106). -/
def FieldTag.ofCode : Nat → Option FieldTag
  | 0 => some .sof
  | 1 => some .baseIdentifier
  | 2 => some .identifierExtension
  | 3 => some .srr
  | 4 => some .rtr
  | 5 => some .ide
  | 6 => some .r0
  | 7 => some .r1
  | 8 => some .edl
  | 9 => some .brs
  | 10 => some .esi
  | 11 => some .dlc
  | 12 => some .data
  | 13 => some .stuffCount
  | 14 => some .stuffParity
  | 15 => some .crc
  | 16 => some .crcDelimiter
  | 17 => some .ack
  | 18 => some .ackDelimiter
  | 19 => some .eof
  | 20 => some .intermission
  | 21 => some .activeErrorFlag
  | 22 => some .passiveErrorFlag
  | 23 => some .errorDelimiter
  | 24 => some .overloadFlag
  | 25 => some .overloadDelimiter
  | 26 => some .suspend
  | 27 => some .idle
  | _ => none

/-- D = 0, R = 1 (R13, R113). -/
def Level.ofBool (b : Bool) : Level := if b then .recessive else .dominant

/-- The bit that stands for a level (R113). -/
def Level.toBool : Level → Bool
  | .dominant => false
  | .recessive => true

/-- `~` on levels (R9). -/
def Level.flip : Level → Level
  | .dominant => .recessive
  | .recessive => .dominant

/-- The SK code (R111). -/
def StuffKind.code : StuffKind → Nat
  | .notStuff => 0
  | .normalStuff => 1
  | .fixedStuff => 2

/-- The classification of an SK code (R111); 3 is unassigned. -/
def StuffKind.ofCode : Nat → Option StuffKind
  | 0 => some .notStuff
  | 1 => some .normalStuff
  | 2 => some .fixedStuff
  | _ => none

/-- The PH code (R112). -/
def Phase.code : Phase → Nat
  | .sync => 0
  | .prop => 1
  | .phase1 => 2
  | .phase2 => 3

/-- The phase of a PH code (R112): all four values are assigned (R106). -/
def Phase.ofCode (c : BitVec 2) : Phase :=
  match c.toNat with
  | 0 => .sync
  | 1 => .prop
  | 2 => .phase1
  | _ => .phase2

/-! ## Reading the fields -/

/-- A slot field as a slot number. -/
def slotOfField (b : BitVec 2) : SlotIx := ⟨b.toNat, b.isLt⟩

/-- VAL (R113): both values are assigned. -/
def CmdFields.level (f : CmdFields) : Level := Level.ofBool (f.val == 1)

/-- The value filter (R116): VAL where VALF = 1. -/
def CmdFields.levelFilter (f : CmdFields) : Option Level :=
  if f.valf = 1 then some f.level else none

/-- PH. -/
def CmdFields.phase (f : CmdFields) : Phase := Phase.ofCode f.ph

/-- The optional phase of FORCE_TQ: PH where PHF = 1 (R100). -/
def CmdFields.phaseFilter (f : CmdFields) : Option Phase :=
  if f.phf = 1 then some f.phase else none

/-- KIND where the opcode reads it whatever KINDF holds (R106). -/
def CmdFields.tag (f : CmdFields) : Except DecodeError FieldTag :=
  match FieldTag.ofCode f.kind.toNat with
  | some t => .ok t
  | none => .error .unassignedKind

/-- The kind filter (R116): KIND is read, and checked, only where KINDF = 1 (R106). -/
def CmdFields.tagFilter (f : CmdFields) : Except DecodeError (Option FieldTag) :=
  if f.kindf = 1 then f.tag.map some else .ok none

/-- The bit selector (R115): KIND is read, and checked, only where KINDF = 1 (R106). -/
def CmdFields.bitSel (f : CmdFields) : Except DecodeError BitSel :=
  if f.kindf = 1 then f.tag.map .typed else .ok .index

/-- SK where any assigned classification is legal (R106). -/
def CmdFields.stuffKind (f : CmdFields) : Except DecodeError StuffKind :=
  match StuffKind.ofCode f.sk.toNat with
  | some k => .ok k
  | none => .error .illegalStuffKind

/-- SK of GET_NUM_STUFF_BITS, where NotStuff is illegal too (R106). -/
def CmdFields.countedStuffKind (f : CmdFields) : Except DecodeError StuffKind :=
  match f.stuffKind with
  | .ok .notStuff => .error .illegalStuffKind
  | r => r

/-! ## The decoder -/

/-- The command of a word's fields: the reserved bits are checked first, then OPC, then the fields the opcode reads
(R104 to R106, in the order of R384). A field an opcode does not read is ignored (R102). -/
def decodeFields (f : CmdFields) : Except DecodeError Instr :=
  let slot := slotOfField f.slot
  let slot2 := slotOfField f.slot2
  if f.reserved ≠ 0 then .error .reservedBits
  else match f.opc.toNat with
  | 0x01 => .ok (.build slot)
  | 0x02 => .ok (.update slot)
  | 0x03 => .ok (.clone slot slot2)
  | 0x04 => .ok (.getCrc slot)
  | 0x05 => .ok .randomize
  | 0x08 => f.tag.map fun k => .getBitOf slot k
  | 0x09 => f.tag.map fun k => .getBitOfNoStuff slot k
  | 0x0A => f.tagFilter.map fun k => .getStuffBit slot k f.levelFilter
  | 0x0B => .ok (.getFixedStuffBit slot f.level)
  | 0x0C => f.countedStuffKind.map fun sk => .getNumStuffBits slot sk f.levelFilter
  | 0x0D => .ok (.getBitIndex slot)
  | 0x0E => f.tag.map fun k => .getFieldLength slot k
  | 0x0F => .ok (.getLength slot)
  | 0x10 => f.bitSel.map fun b => .readBit slot b
  | 0x11 => f.bitSel.map fun b => .readPhaseLen slot b f.phase
  | 0x12 => .ok (.getRandomBit slot f.levelFilter)
  | 0x13 => f.tag.map fun k => .getRandomBitOf slot k f.levelFilter
  | 0x18 => f.tag.map fun k => .insertBit slot k f.level
  | 0x19 => f.bitSel.map fun b => .removeBit slot b
  | 0x1A => f.bitSel.map fun b => .removeBitsFrom slot b
  | 0x1B => f.tag.map fun k => .appendBit slot k f.level
  | 0x1C => f.bitSel.map fun b => .insertActiveErrorFrame slot b
  | 0x1D => f.bitSel.map fun b => .insertPassiveErrorFrame slot b
  | 0x1E => f.bitSel.map fun b => .insertOverloadFrame slot b
  | 0x1F => .ok (.appendSuspend slot)
  | 0x20 => .ok (.turnReceived slot)
  | 0x21 => f.bitSel.map fun b => .loseArbitration slot b
  | 0x22 => .ok (.appendFrame slot slot2)
  | 0x28 => f.bitSel.map fun b => .flipBit slot b
  | 0x29 => f.bitSel.map fun b => .setBitValue slot b f.level
  | 0x2A => match f.bitSel, f.stuffKind with
    | .ok b, .ok sk => .ok (.setStuffKind slot b sk)
    | .error e, _ => .error e
    | _, .error e => .error e
  | 0x2B => f.bitSel.map fun b => .shortenPhase slot b f.phase
  | 0x2C => f.bitSel.map fun b => .lengthenPhase slot b f.phase
  | 0x2D => f.bitSel.map fun b => .forceTq slot b f.phaseFilter f.level
  | 0x30 => .ok (.qzLength slot)
  | 0x31 => .ok (.qzRead slot)
  | _ => .error .unassignedOpcode

/-- The decoder: total on every word, rejecting by name. -/
def decode (w : Word) : Except DecodeError Instr := decodeFields (unpackFields w)

/-- The word of four byte lanes, lane 0 carrying bits [7:0] (R82). -/
def wordOfLanes (b0 b1 b2 b3 : Byte) : Word := b3 ++ b2 ++ b1 ++ b0

/-- The decoder on the opcode table's numbering of an instruction's bits: one 32-bit word (R121), whose bits above
`nbits` are 0, laid into the four byte lanes of a CMD write and read back from them (R82). -/
def decodeTableWord (nbits w : Nat) : Option Instr :=
  let v := w % 2 ^ nbits
  let lane := fun j : Nat => BitVec.ofNat 8 (v / 2 ^ (8 * j))
  (decode (wordOfLanes (lane 0) (lane 1) (lane 2) (lane 3))).toOption

/-! ## The encoder -/

/-- The word of the fields (R100). -/
def packFields (f : CmdFields) : Word :=
  f.reserved ++ f.sk ++ f.phf ++ f.ph ++ f.kindf ++ f.valf ++ f.val ++ f.kind ++ f.slot2 ++ f.slot ++ f.opc

/-- SLOT or SLOT2 as bits. -/
def slotField (i : SlotIx) : BitVec 2 := BitVec.ofNat 2 i.val

/-- KIND as bits. -/
def tagField (t : FieldTag) : BitVec 5 := BitVec.ofNat 5 t.code

/-- VAL as a bit. -/
def levelField (v : Level) : BitVec 1 := BitVec.ofBool v.toBool

/-- SK as bits. -/
def stuffField (k : StuffKind) : BitVec 2 := BitVec.ofNat 2 k.code

/-- PH as bits. -/
def phaseField (p : Phase) : BitVec 2 := BitVec.ofNat 2 p.code

/-- Sets VAL and VALF for a value filter (R116, R123). -/
def CmdFields.withLevelFilter (f : CmdFields) : Option Level → CmdFields
  | none => f
  | some v => { f with val := levelField v, valf := 1 }

/-- Sets KIND and KINDF for a kind filter (R116, R123). -/
def CmdFields.withTagFilter (f : CmdFields) : Option FieldTag → CmdFields
  | none => f
  | some t => { f with kind := tagField t, kindf := 1 }

/-- Sets KIND and KINDF for a bit selector (R115, R123). -/
def CmdFields.withBitSel (f : CmdFields) : BitSel → CmdFields
  | .index => f
  | .typed t => { f with kind := tagField t, kindf := 1 }

/-- Sets PH and PHF for the optional phase of FORCE_TQ (R123). -/
def CmdFields.withPhaseFilter (f : CmdFields) : Option Phase → CmdFields
  | none => f
  | some p => { f with ph := phaseField p, phf := 1 }

/-- The fields of a command, from the opcode map (R120); a field the command does not set is 0 (R124). -/
def encodeFields : Instr → CmdFields
  | .build s => { opc := 0x01, slot := slotField s }
  | .update s => { opc := 0x02, slot := slotField s }
  | .clone d s => { opc := 0x03, slot := slotField d, slot2 := slotField s }
  | .getCrc s => { opc := 0x04, slot := slotField s }
  | .randomize => { opc := 0x05 }
  | .getBitOf s k => { opc := 0x08, slot := slotField s, kind := tagField k }
  | .getBitOfNoStuff s k => { opc := 0x09, slot := slotField s, kind := tagField k }
  | .getStuffBit s k v =>
    (({ opc := 0x0A, slot := slotField s } : CmdFields).withTagFilter k).withLevelFilter v
  | .getFixedStuffBit s v => { opc := 0x0B, slot := slotField s, val := levelField v }
  | .getNumStuffBits s sk v =>
    ({ opc := 0x0C, slot := slotField s, sk := stuffField sk } : CmdFields).withLevelFilter v
  | .getBitIndex s => { opc := 0x0D, slot := slotField s }
  | .getFieldLength s k => { opc := 0x0E, slot := slotField s, kind := tagField k }
  | .getLength s => { opc := 0x0F, slot := slotField s }
  | .readBit s b => ({ opc := 0x10, slot := slotField s } : CmdFields).withBitSel b
  | .readPhaseLen s b p =>
    ({ opc := 0x11, slot := slotField s, ph := phaseField p } : CmdFields).withBitSel b
  | .getRandomBit s v => ({ opc := 0x12, slot := slotField s } : CmdFields).withLevelFilter v
  | .getRandomBitOf s k v =>
    ({ opc := 0x13, slot := slotField s, kind := tagField k } : CmdFields).withLevelFilter v
  | .insertBit s k v => { opc := 0x18, slot := slotField s, kind := tagField k, val := levelField v }
  | .removeBit s b => ({ opc := 0x19, slot := slotField s } : CmdFields).withBitSel b
  | .removeBitsFrom s b => ({ opc := 0x1A, slot := slotField s } : CmdFields).withBitSel b
  | .appendBit s k v => { opc := 0x1B, slot := slotField s, kind := tagField k, val := levelField v }
  | .insertActiveErrorFrame s b => ({ opc := 0x1C, slot := slotField s } : CmdFields).withBitSel b
  | .insertPassiveErrorFrame s b => ({ opc := 0x1D, slot := slotField s } : CmdFields).withBitSel b
  | .insertOverloadFrame s b => ({ opc := 0x1E, slot := slotField s } : CmdFields).withBitSel b
  | .appendSuspend s => { opc := 0x1F, slot := slotField s }
  | .turnReceived s => { opc := 0x20, slot := slotField s }
  | .loseArbitration s b => ({ opc := 0x21, slot := slotField s } : CmdFields).withBitSel b
  | .appendFrame d s => { opc := 0x22, slot := slotField d, slot2 := slotField s }
  | .flipBit s b => ({ opc := 0x28, slot := slotField s } : CmdFields).withBitSel b
  | .setBitValue s b v =>
    ({ opc := 0x29, slot := slotField s, val := levelField v } : CmdFields).withBitSel b
  | .setStuffKind s b sk =>
    ({ opc := 0x2A, slot := slotField s, sk := stuffField sk } : CmdFields).withBitSel b
  | .shortenPhase s b p =>
    ({ opc := 0x2B, slot := slotField s, ph := phaseField p } : CmdFields).withBitSel b
  | .lengthenPhase s b p =>
    ({ opc := 0x2C, slot := slotField s, ph := phaseField p } : CmdFields).withBitSel b
  | .forceTq s b p v =>
    (({ opc := 0x2D, slot := slotField s, val := levelField v } : CmdFields).withBitSel b).withPhaseFilter p
  | .qzLength s => { opc := 0x30, slot := slotField s }
  | .qzRead s => { opc := 0x31, slot := slotField s }

/-- The encoder: the one word of a command (R121). -/
def encode (i : Instr) : Word := packFields (encodeFields i)

end Sys2Proof
end

