-- ==== Sys2Proof/Config.lean ====
section
/-! DEFINITION. The implementation parameters of spec/00_scope.md R7, as one record of plain data, and the
free values: the ORACLE's draws and the platform's base address, constants without a body. -/

namespace Sys2Proof

/-- Which bits feed an FD CRC (R7, R258; left open by the document, conflict C4). -/
inductive FdCrcMode where
  | iso | docLiteral
  deriving DecidableEq, Repr

/-- What ends a run of five at the FD boundary before the stuff count (R7, R254; open, N6). -/
inductive FdBoundaryStuff where
  | fixedOnly | dynamicThenFixed
  deriving DecidableEq, Repr

/-- The parameters of R7 that change what a command does. `NUM_SLOTS` is fixed at 4 (`SlotIx`). -/
structure Config where
  /-- `CAP_BITS`: the most bits one slot holds. -/
  capBits : Nat
  /-- `CAP_TQ`: the most time quanta one bit holds. -/
  capTq : Nat
  /-- `FD_CRC_MODE`. -/
  fdCrcMode : FdCrcMode
  /-- `FD_BOUNDARY_STUFF`. -/
  fdBoundaryStuff : FdBoundaryStuff
  deriving DecidableEq, Repr

/-- The default values of R7. -/
def Config.default : Config :=
  { capBits := 4096, capTq := 1024, fdCrcMode := .iso, fdBoundaryStuff := .fixedOnly }

/-- What R7 asks of the parameters. -/
abbrev Config.Legal (c : Config) : Prop :=
  c.capBits ≤ 2 ^ 24 ∧ 766 ≤ c.capTq ∧ c.capTq ≤ 65535 ∧ c.capBits * c.capTq * 255 < 2 ^ 32

/-- ORACLE (R7, R45): what it answers to its k-th draw, before the answer is reduced to an index of the draw
set. It has no body: any choice function may stand here, so every element of every set is admitted (R12, R151).
The number of draws made so far is `State.draws`. FREE VALUE. -/
opaque Config.oracle : Nat → Nat

/-- BASE (R80): where the platform puts the register window. CANFE itself decodes only the offset. FREE VALUE. -/
opaque Config.base : Nat

end Sys2Proof
end

