-- ==== Sys2Proof/Machine/State.lean ====
section
/-! DEFINITION. The state of CANFE (spec/10_state.md R30): the host register file (R31 to R39), the four slots with
their bit and quantum records (R40 to R43), the fatal indication (R39) and the ORACLE's hidden state (R45); and the
model's own fields, the parameters, the pending inputs and the bus's answer. Also the reasons a step can stop, and
the state after reset (R48). -/

namespace Sys2Proof.Machine

/-- STATUS.CODE: the outcome of the last executed command (R39, R381). -/
inductive ResultCode where
  | ok | invalidFlagCombination | bitNotFound | invalidFrame | invalidTiming
  deriving DecidableEq, Repr

/-- STATUS.FCAUSE: the cause of the fatal error (R39, R382). -/
inductive FatalCause where
  | illegalCommand | indexOutOfRange | invalidSlot | capacityExceeded
  deriving DecidableEq, Repr

/-- How a command ends early (R12): `fail C` or `raise Fatal(F)`. -/
inductive Halt where
  | fail (c : ResultCode)
  | fatal (f : FatalCause)
  deriving DecidableEq, Repr

/-- A bit's prescaler for each of its phases, `pbrp` of R41: clock cycles per quantum. -/
structure Prescalers where
  sync : Byte
  prop : Byte
  phase1 : Byte
  phase2 : Byte
  deriving DecidableEq, Repr

/-- A time-quantum record (R42). A cycle value is `none` (inherit the bit's value) or an override (R43). -/
structure TimeQuantum where
  phase : Phase
  cycles : List (Option Level)
  deriving DecidableEq, Repr

/-- A bit record (R41). -/
structure FrameBit where
  kind : FieldTag
  val : Level
  stuff : StuffKind
  pbrp : Prescalers
  tqs : List TimeQuantum
  deriving DecidableEq, Repr

/-- A BitTiming (R32, R170), as a slot keeps it. -/
structure BitTiming where
  brp : Byte
  prop : Byte
  ph1 : Byte
  ph2 : Byte
  sjw : Byte
  deriving DecidableEq, Repr

/-- A slot record: one BitFrame (R40). -/
structure Slot where
  valid : Bool
  bits : List FrameBit
  fdf : Bool
  ide : Bool
  rtr : Bool
  brs : Bool
  esi : Bool
  id : BitVec 29
  dlc : BitVec 4
  nbt : BitTiming
  dbt : BitTiming
  deriving DecidableEq, Repr

/-- The host registers of R31. -/
inductive Reg where
  | cmd | arg0 | arg1 | status | result | nbt | nsjw | dbt | dsjw | nderiv | dderiv | flags | id | dlc | datalen | pin
  | data (k : Fin 16)
  deriving DecidableEq, Repr

/-- What the outside world does to CANFE: a host access at an offset of the window, of a size in bytes
(spec/20_memory.md R80), or the platform's reset (spec/70_reset_and_hazards.md R420). -/
inductive HostInput where
  | write (off size : Nat) (v : Word)
  | read (off size : Nat)
  | reset
  deriving DecidableEq, Repr

/-- The state. Reserved register bits have no storage (R46); NDERIV, DDERIV and DATALEN are computed when read. -/
structure State where
  /-- The parameters (R7). No step writes them. -/
  cfg : Config
  /-- CMD: the last word written (R39). -/
  cmd : Word
  arg0 : Word
  arg1 : Word
  /-- STATUS.CODE. -/
  code : ResultCode
  /-- STATUS.FATAL and STATUS.FCAUSE: `none` is FATAL = 0, FCAUSE = 0; `some f` is FATAL = 1 with its cause. -/
  fatal : Option FatalCause
  result : Word
  nbt : Word
  nsjw : BitVec 8
  dbt : Word
  dsjw : BitVec 8
  flags : BitVec 5
  id : BitVec 29
  dlc : BitVec 4
  pin : BitVec 8
  /-- The payload store: DATAk holds bytes 4k .. 4k+3 (R37). -/
  data : Vector Byte 64
  slots : Vector Slot 4
  /-- The ORACLE's state (R45): how many draws it has answered. -/
  draws : Nat
  /-- The inputs not yet made, oldest first: the model's own field. -/
  pending : List HostInput
  /-- The value the last MemRead returned: the model's own field. -/
  busData : Word
  deriving DecidableEq, Repr

/-- Why the machine stops with a fault. -/
inductive Fault where
  /-- Raised by a host access whose offset is not in the register map (R83: the model gives it no step). Safe: where a
  platform's bus would answer such an access in some way, the model claims nothing. -/
  | unmappedOffset
  deriving DecidableEq, Repr

/-- Why a step has no meaning. -/
inductive Refusal where
  /-- Raised by an arm of `exec` that has no meaning yet. Safe: nothing is claimed about the instruction. -/
  | notModelled (mnemonic : String)
  /-- Raised by a host access whose size is not 4 (R83: refused, the model gives it no step). Safe. -/
  | accessSize
  /-- Raised by a host access whose offset is not a multiple of 4 (R83: refused, the model gives it no step). Safe. -/
  | misalignedOffset
  deriving DecidableEq, Repr

/-- A slot at reset (R48): invalid, empty, every copy 0. -/
def Slot.empty : Slot :=
  { valid := false, bits := [], fdf := false, ide := false, rtr := false, brs := false, esi := false, id := 0, dlc := 0
    nbt := { brp := 0, prop := 0, ph1 := 0, ph2 := 0, sjw := 0 }
    dbt := { brp := 0, prop := 0, ph1 := 0, ph2 := 0, sjw := 0 } }

/-- The machine right after reset (R48, R420), with the default parameters (R7) and no input pending. -/
def State.reset : State :=
  { cfg := Config.default
    cmd := 0, arg0 := 0, arg1 := 0
    code := .ok, fatal := none, result := 0
    nbt := 0, nsjw := 0, dbt := 0, dsjw := 0
    flags := 0, id := 0, dlc := 0, pin := 0
    data := Vector.replicate 64 0
    slots := Vector.replicate 4 Slot.empty
    draws := 0
    pending := []
    busData := 0 }

end Sys2Proof.Machine
end

