-- ==== Sys2Proof/Machine/Flags.lean ====
section
/-! DEFINITION. The status and flag words: the STATUS register (spec/10_state.md R39), the fields of FLAGS (R33) and of
PIN (R38), and the derived registers NDERIV and DDERIV (R44). CANFE has no arithmetic flags (spec/00_scope.md R14). -/

namespace Sys2Proof.Machine

/-- The number of a result code (R39, R381). -/
def ResultCode.number : ResultCode → Nat
  | .ok => 0
  | .invalidFlagCombination => 1
  | .bitNotFound => 2
  | .invalidFrame => 3
  | .invalidTiming => 4

/-- The number of a fatal cause (R39, R382). -/
def FatalCause.number : FatalCause → Nat
  | .illegalCommand => 1
  | .indexOutOfRange => 2
  | .invalidSlot => 3
  | .capacityExceeded => 4

/-- FCAUSE: 0 where no fatal error has occurred (R39). -/
def causeNumber : Option FatalCause → Nat
  | none => 0
  | some f => f.number

/-- STATUS as a word (R39): CODE in [2:0], FATAL in [8], FCAUSE in [14:12], 0 elsewhere. -/
def statusWord (code : ResultCode) (fatal : Option FatalCause) : Word :=
  (0 : BitVec 17) ++ BitVec.ofNat 3 (causeNumber fatal) ++ (0 : BitVec 3) ++ BitVec.ofBool fatal.isSome
    ++ (0 : BitVec 5) ++ BitVec.ofNat 3 code.number

/-! ## FLAGS (R33) -/

/-- FLAGS.FDF: FD format. -/
def flagFdf (f : BitVec 5) : Bool := f.getLsbD 0

/-- FLAGS.IDE: 29-bit identifier. -/
def flagIde (f : BitVec 5) : Bool := f.getLsbD 1

/-- FLAGS.RTR: remote frame. -/
def flagRtr (f : BitVec 5) : Bool := f.getLsbD 2

/-- FLAGS.BRS: bit-rate shift. -/
def flagBrs (f : BitVec 5) : Bool := f.getLsbD 3

/-- FLAGS.ESI: error passive. -/
def flagEsi (f : BitVec 5) : Bool := f.getLsbD 4

/-! ## PIN (R38) -/

/-- The pins of the five flags, in FLAGS's own order. -/
def pinFlags (p : BitVec 8) : BitVec 5 := p.extractLsb' 0 5

/-- PIN bit 5: ID is kept. -/
def pinId (p : BitVec 8) : Bool := p.getLsbD 5

/-- PIN bit 6: DLC is kept. -/
def pinDlc (p : BitVec 8) : Bool := p.getLsbD 6

/-- PIN bit 7: the payload is kept. -/
def pinData (p : BitVec 8) : Bool := p.getLsbD 7

/-! ## NBT and DBT (R32), NDERIV and DDERIV (R44) -/

/-- BRP of NBT or DBT. -/
def fieldBrp (w : Word) : Byte := w.extractLsb' 0 8

/-- PROP of NBT or DBT. -/
def fieldProp (w : Word) : Byte := w.extractLsb' 8 8

/-- PH1 of NBT or DBT. -/
def fieldPh1 (w : Word) : Byte := w.extractLsb' 16 8

/-- PH2 of NBT or DBT. -/
def fieldPh2 (w : Word) : Byte := w.extractLsb' 24 8

/-- The BitTiming of a timing register and its SJW register (R32, R262). -/
def timingOf (w : Word) (sjw : BitVec 8) : BitTiming :=
  { brp := fieldBrp w, prop := fieldProp w, ph1 := fieldPh1 w, ph2 := fieldPh2 w, sjw := sjw }

/-- BL, the bit length in quanta (R44, R170). -/
def bitLength (t : BitTiming) : Nat := 1 + t.prop.toNat + t.ph1.toNat + t.ph2.toNat

/-- SP, the quanta before the sample point (R44). -/
def samplePoint (t : BitTiming) : Nat := 1 + t.prop.toNat + t.ph1.toNat

/-- NDERIV or DDERIV (R44): BL in [15:0], SP in [31:16]. -/
def derivWord (t : BitTiming) : Word := BitVec.ofNat 16 (samplePoint t) ++ BitVec.ofNat 16 (bitLength t)

end Sys2Proof.Machine
end

