-- ==== Sys2Proof/Machine/Ops.lean ====
section
/-! DEFINITION. The operations every command is made of: the outcomes of a command (spec/00_scope.md R12), raising a
fatal error as one operation (spec/60_exceptions.md R385), reading and replacing a slot, the shared shapes of a query
and of an edit, the capacity check (R383), and the register map with its reads and writes (spec/10_state.md R31,
R46). -/

namespace Sys2Proof.Machine

/-! ## Outcomes of a command (R12) -/

/-- `ok()`: STATUS.CODE becomes OK. -/
def succeed (s : State) : State := { s with code := .ok }

/-- `ok(v)`: STATUS.CODE becomes OK and RESULT becomes `v`. -/
def answer (v : Word) (s : State) : State := { s with code := .ok, result := v }

/-- `fail C`: STATUS.CODE becomes `C`; nothing else changes (R386). -/
def fail (c : ResultCode) (s : State) : State := { s with code := c }

/-- `raise Fatal(F)`: STATUS.FATAL becomes 1 and FCAUSE becomes `F`; nothing else changes (R385). There is no trap
entry (R388): nothing is saved, and no mode or target exists. Only reset undoes it (R389). -/
def raiseFatal (f : FatalCause) (s : State) : State := { s with fatal := some f }

/-- Ends a command early. -/
def halt : Halt → State → State
  | .fail c, s => fail c s
  | .fatal f, s => raiseFatal f s

/-! ## Slots (R11, R40) -/

/-- `slot[ix]`. -/
def State.slot (s : State) (ix : SlotIx) : Slot := s.slots[ix]

/-- `slot[ix] <- sl`. -/
def State.setSlot (s : State) (ix : SlotIx) (sl : Slot) : State := { s with slots := s.slots.set ix sl }

/-- The prologue of every command that reads a slot: `if slot[ix].valid = 0: raise Fatal(INVALID_SLOT)` (R210, R289,
R329). -/
def withSlot (ix : SlotIx) (s : State) (k : Slot → State) : State :=
  if (s.slot ix).valid then k (s.slot ix) else raiseFatal .invalidSlot s

/-- A command that reads one slot and answers in RESULT: it writes STATUS and, on success, RESULT (R289). -/
def query (ix : SlotIx) (f : Slot → Except Halt Word) (s : State) : State :=
  withSlot ix s fun sl =>
    match f sl with
    | .ok v => answer v s
    | .error h => halt h s

/-- What an edit gives: the slot's new bit sequence, and a value for RESULT where the command returns one. -/
structure Edit where
  bits : List FrameBit
  reply : Option Word := none
  deriving DecidableEq, Repr

/-- Commits an edit of slot `ix` and ends the command. -/
def commit (ix : SlotIx) (sl : Slot) (e : Edit) (s : State) : State :=
  let s' := s.setSlot ix { sl with bits := e.bits }
  match e.reply with
  | some v => answer v s'
  | none => succeed s'

/-- A command that changes the bits of one slot. Its descriptor and timing copies stay as they are (R40). -/
def edit (ix : SlotIx) (f : Slot → Except Halt Edit) (s : State) : State :=
  withSlot ix s fun sl =>
    match f sl with
    | .ok e => commit ix sl e s
    | .error h => halt h s

/-- The capacity check of a slot's bits (R329, R383). -/
def fitBits (cfg : Config) (bits : List FrameBit) : Except Halt Edit :=
  if cfg.capBits < bits.length then .error (.fatal .capacityExceeded) else .ok { bits := bits }

/-! ## Bit records (R41 to R43) -/

/-- `pbrp[ph]` (R41). -/
def Prescalers.get (p : Prescalers) : Phase → Byte
  | .sync => p.sync
  | .prop => p.prop
  | .phase1 => p.phase1
  | .phase2 => p.phase2

/-- The level a cycle of bit `b` shows (R43). -/
def cycleLevel (b : FrameBit) (c : Option Level) : Level := c.getD b.val

/-! ## The payload store (R37) -/

/-- Payload byte `j`; 0 beyond the store, which no rule reads. -/
def State.byte (s : State) (j : Nat) : Byte := s.data[j]?.getD 0

/-- The payload store with the bytes 4k .. 4k+3 of a DATAk write (R37). -/
def setDataWord (d : Vector Byte 64) (k : Fin 16) (v : Word) : Vector Byte 64 :=
  (((d.set (4 * k.val) (v.extractLsb' 0 8) (by omega)).set (4 * k.val + 1) (v.extractLsb' 8 8) (by omega)).set
    (4 * k.val + 2) (v.extractLsb' 16 8) (by omega)).set (4 * k.val + 3) (v.extractLsb' 24 8) (by omega)

/-! ## Data length (spec/40_frame_descriptor.md R145) -/

/-- The FD length of a DLC (R145). -/
def fdLength (dlc : BitVec 4) : Nat :=
  match dlc.toNat with
  | 9 => 12
  | 10 => 16
  | 11 => 20
  | 12 => 24
  | 13 => 32
  | 14 => 48
  | 15 => 64
  | n => n

/-- The decoded data length (R145). -/
def dataLen (fdf rtr : Bool) (dlc : BitVec 4) : Nat :=
  if rtr then 0 else if fdf then fdLength dlc else dlc.toNat

/-- What DATALEN reads (R36): 0 for an illegal descriptor. -/
def dataLenReg (flags : BitVec 5) (dlc : BitVec 4) : Nat :=
  if (flagFdf flags && flagRtr flags) || (!flagFdf flags && decide (8 < dlc.toNat)) then 0
  else dataLen (flagFdf flags) (flagRtr flags) dlc

/-! ## The register map (R31) -/

/-- The register at a byte offset of the window; `none` where nothing is mapped (R83, R85). -/
def regAt (off : Nat) : Option Reg :=
  match off with
  | 0x000 => some .cmd
  | 0x004 => some .arg0
  | 0x008 => some .arg1
  | 0x00C => some .status
  | 0x010 => some .result
  | 0x020 => some .nbt
  | 0x024 => some .nsjw
  | 0x028 => some .dbt
  | 0x02C => some .dsjw
  | 0x030 => some .nderiv
  | 0x034 => some .dderiv
  | 0x040 => some .flags
  | 0x044 => some .id
  | 0x048 => some .dlc
  | 0x04C => some .datalen
  | 0x050 => some .pin
  | _ => if h : 0x100 ≤ off ∧ off < 0x140 ∧ off % 4 = 0 then some (.data ⟨(off - 0x100) / 4, by omega⟩) else none

/-- Reads a register: all 32 bits, reserved bits 0 (R31, R46, R84). -/
def readReg (r : Reg) (s : State) : Word :=
  match r with
  | .cmd => s.cmd
  | .arg0 => s.arg0
  | .arg1 => s.arg1
  | .status => statusWord s.code s.fatal
  | .result => s.result
  | .nbt => s.nbt
  | .nsjw => s.nsjw.setWidth 32
  | .dbt => s.dbt
  | .dsjw => s.dsjw.setWidth 32
  | .nderiv => derivWord (timingOf s.nbt s.nsjw)
  | .dderiv => derivWord (timingOf s.dbt s.dsjw)
  | .flags => s.flags.setWidth 32
  | .id => s.id.setWidth 32
  | .dlc => s.dlc.setWidth 32
  | .datalen => BitVec.ofNat 32 (dataLenReg s.flags s.dlc)
  | .pin => s.pin.setWidth 32
  | .data k =>
    wordOfLanes (s.byte (4 * k.val)) (s.byte (4 * k.val + 1)) (s.byte (4 * k.val + 2)) (s.byte (4 * k.val + 3))

/-- Stores a word in a register: reserved bits are dropped, a read-only register ignores it (R46). For CMD this is the
storage alone (R101 step 1). -/
def writeReg (r : Reg) (v : Word) (s : State) : State :=
  match r with
  | .cmd => { s with cmd := v }
  | .arg0 => { s with arg0 := v }
  | .arg1 => { s with arg1 := v }
  | .nbt => { s with nbt := v }
  | .nsjw => { s with nsjw := v.setWidth 8 }
  | .dbt => { s with dbt := v }
  | .dsjw => { s with dsjw := v.setWidth 8 }
  | .flags => { s with flags := v.setWidth 5 }
  | .id => { s with id := v.setWidth 29 }
  | .dlc => { s with dlc := v.setWidth 4 }
  | .pin => { s with pin := v.setWidth 8 }
  | .data k => { s with data := setDataWord s.data k v }
  | .status => s
  | .result => s
  | .nderiv => s
  | .dderiv => s
  | .datalen => s

/-- The offset of a host address in the window (R80); `none` below BASE, where CANFE is not addressed. -/
def offsetOf (addr : Nat) : Option Nat := if Config.base ≤ addr then some (addr - Config.base) else none

/-- The input a `MemRead(addr, size)` of the host makes (R80). -/
def memRead (addr size : Nat) : Option HostInput := (offsetOf addr).map fun off => .read off size

/-- The input a `MemWrite(addr, size, v)` of the host makes (R80). -/
def memWrite (addr size : Nat) (v : Word) : Option HostInput := (offsetOf addr).map fun off => .write off size v

/-! ## Draws (R12, R45) -/

/-- `draw(S)` for a set of `n` elements: the index of the element the ORACLE answers, and the ORACLE's next state. A
set of one element leaves nothing to draw. -/
def drawFrom (o : Nat → Nat) (k n : Nat) : Nat × Nat := if n ≤ 1 then (0, k) else (o k % n, k + 1)

end Sys2Proof.Machine
end

