-- ==== Sys2Proof/Machine/Operands.lean ====
section
/-! DEFINITION. The operand forms: the sequence notation of spec/00_scope.md R10, the bit selector (spec/30_encoding.md
R115), the filters (R116), and the prologue of a command on one bit (spec/42_bit_ops.md R210). -/

namespace Sys2Proof.Machine

/-- `nth(p, s, n)` (R10): the position of the n-th (0-based) element satisfying `p`. -/
def nth {α : Type} (p : α → Bool) : List α → Nat → Option Nat
  | [], _ => none
  | x :: xs, n =>
    if p x then
      match n with
      | 0 => some 0
      | m + 1 => (nth p xs m).map (· + 1)
    else (nth p xs n).map (· + 1)

/-- The positions of the elements satisfying `p`, in order (the set M of R300). -/
def positions {α : Type} (p : α → Bool) : List α → List Nat
  | [] => []
  | x :: xs => (if p x then [0] else []) ++ (positions p xs).map (· + 1)

/-- The value filter (R116). -/
def matchesLevel (v : Option Level) (b : FrameBit) : Bool :=
  match v with
  | none => true
  | some l => b.val == l

/-- The kind filter (R116). -/
def matchesTag (k : Option FieldTag) (b : FrameBit) : Bool :=
  match k with
  | none => true
  | some t => b.kind == t

/-- The bit selector `Sel` (R115), `arg` being ARG0: the selected position of `bits`. -/
def selectBit (bits : List FrameBit) (sel : BitSel) (arg : Nat) (allowEnd : Bool) : Except Halt Nat :=
  match sel with
  | .index =>
    if arg < bits.length || (allowEnd && arg == bits.length) then .ok arg else .error (.fatal .indexOutOfRange)
  | .typed t =>
    match nth (fun b => b.kind == t) bits arg with
    | some i => .ok i
    | none => .error (.fail .bitNotFound)

/-- Runs `f` on the bit that `Sel(SLOT, false)` selects. The last case, a selected position with no bit, does not
occur (`selectBit_lt` in Laws). -/
def atBit {α : Type} (sl : Slot) (sel : BitSel) (arg : Nat) (f : Nat → FrameBit → Except Halt α) : Except Halt α :=
  match selectBit sl.bits sel arg false with
  | .error h => .error h
  | .ok i =>
    match sl.bits[i]? with
    | some b => f i b
    | none => .error (.fatal .indexOutOfRange)

/-- What a command on one bit makes of it: the bit, and a value for RESULT where there is one. -/
structure BitEdit where
  bit : FrameBit
  reply : Option Word := none
  deriving DecidableEq, Repr

/-- A command that changes one selected bit in place (R210). -/
def editBit (ix : SlotIx) (sel : BitSel) (f : FrameBit → Except Halt BitEdit) (s : State) : State :=
  edit ix (fun sl => atBit sl sel s.arg0.toNat fun i b =>
    match f b with
    | .ok e => .ok { bits := sl.bits.set i e.bit, reply := e.reply }
    | .error h => .error h) s

/-- A query that searches for the n-th matching bit and answers its index (R289 to R293), `n` being ARG0. -/
def findBit (ix : SlotIx) (p : FrameBit → Bool) (s : State) : State :=
  query ix (fun sl =>
    match nth p sl.bits s.arg0.toNat with
    | some i => .ok (BitVec.ofNat 32 i)
    | none => .error (.fail .bitNotFound)) s

/-- A query that counts the matching bits (R289, R294, R296). -/
def countBits (ix : SlotIx) (p : FrameBit → Bool) (s : State) : State :=
  query ix (fun sl => .ok (BitVec.ofNat 32 (sl.bits.countP p))) s

/-- A query that draws one of the matching bits and answers its index (R300), with the ORACLE `o`. -/
def randomBit (o : Nat → Nat) (ix : SlotIx) (p : FrameBit → Bool) (s : State) : State :=
  withSlot ix s fun sl =>
    match positions p sl.bits with
    | [] => fail .bitNotFound s
    | i :: is =>
      let d := drawFrom o s.draws (is.length + 1)
      answer (BitVec.ofNat 32 ((i :: is).getD d.1 i)) { s with draws := d.2 }

end Sys2Proof.Machine
end

