-- ==== Sys2Proof/Machine/BitOps.lean ====
section
/-! DEFINITION. The bit and time-quantum commands (spec/42_bit_ops.md). -/

namespace Sys2Proof.Machine

/-- FLIP_BIT (R220). -/
def execFlipBit (ix : SlotIx) (sel : BitSel) (s : State) : Host.Outcome State Fault Refusal :=
  .next (editBit ix sel (fun b => .ok { bit := { b with val := b.val.flip } }) s)

/-- SET_BIT_VALUE (R221). -/
def execSetBitValue (ix : SlotIx) (sel : BitSel) (val : Level) (s : State) : Host.Outcome State Fault Refusal :=
  .next (editBit ix sel (fun b => .ok { bit := { b with val := val } }) s)

/-- SET_STUFF_KIND (R222). -/
def execSetStuffKind (ix : SlotIx) (sel : BitSel) (sk : StuffKind) (s : State) : Host.Outcome State Fault Refusal :=
  .next (editBit ix sel (fun b => .ok { bit := { b with stuff := sk } }) s)

/-- The sequence without the elements satisfying `p` after the first `k` of them. -/
def keepFirst {α : Type} (p : α → Bool) (k : Nat) : List α → List α
  | [] => []
  | x :: xs =>
    if p x then
      match k with
      | 0 => keepFirst p 0 xs
      | m + 1 => x :: keepFirst p m xs
    else x :: keepFirst p k xs

/-- The quanta after removing the last `min n (length)` quanta of a phase (R223). -/
def shortenQuanta (tqs : List TimeQuantum) (ph : Phase) (n : Nat) : List TimeQuantum :=
  keepFirst (fun q => q.phase == ph) (tqs.countP (fun q => q.phase == ph) - n) tqs

/-- The residual of a shortening by `n` (R223). -/
def shortenResidual (tqs : List TimeQuantum) (ph : Phase) (n : Nat) : Nat :=
  n - min n (tqs.countP fun q => q.phase == ph)

/-- SHORTEN_PHASE (R223): asking for more than the phase holds is no error; RESULT is the residual. -/
def execShortenPhase (ix : SlotIx) (sel : BitSel) (ph : Phase) (s : State) : Host.Outcome State Fault Refusal :=
  .next (editBit ix sel (fun b =>
    .ok { bit := { b with tqs := shortenQuanta b.tqs ph s.arg1.toNat }
          reply := some (BitVec.ofNat 32 (shortenResidual b.tqs ph s.arg1.toNat)) }) s)

/-- Where the quanta of a phase end: after every quantum of that phase or an earlier one (R224). -/
def phaseEnd (tqs : List TimeQuantum) (ph : Phase) : Nat := tqs.countP fun q => decide (q.phase.code ≤ ph.code)

/-- The quanta after adding `n` fresh ones at the end of a phase (R224). -/
def lengthenQuanta (tqs : List TimeQuantum) (pbrp : Prescalers) (ph : Phase) (n : Nat) : List TimeQuantum :=
  tqs.take (phaseEnd tqs ph)
    ++ List.replicate n { phase := ph, cycles := List.replicate (pbrp.get ph).toNat none }
    ++ tqs.drop (phaseEnd tqs ph)

/-- LENGTHEN_PHASE (R224). -/
def execLengthenPhase (ix : SlotIx) (sel : BitSel) (ph : Phase) (s : State) : Host.Outcome State Fault Refusal :=
  .next (editBit ix sel (fun b =>
    if s.cfg.capTq < b.tqs.length + s.arg1.toNat then .error (.fatal .capacityExceeded)
    else .ok { bit := { b with tqs := lengthenQuanta b.tqs b.pbrp ph s.arg1.toNat } }) s)

/-- The quantum FORCE_TQ names: the t-th of the bit, or of a phase (R225). -/
def forcedIndex (tqs : List TimeQuantum) (ph : Option Phase) (t : Nat) : Option Nat :=
  match ph with
  | some p => nth (fun q => q.phase == p) tqs t
  | none => if t < tqs.length then some t else none

/-- A quantum with an override in every cycle (R225, R43). -/
def TimeQuantum.force (v : Level) (q : TimeQuantum) : TimeQuantum := { q with cycles := q.cycles.map fun _ => some v }

/-- FORCE_TQ (R225). -/
def execForceTq (ix : SlotIx) (sel : BitSel) (ph : Option Phase) (val : Level) (s : State) :
    Host.Outcome State Fault Refusal :=
  .next (editBit ix sel (fun b =>
    match forcedIndex b.tqs ph s.arg1.toNat with
    | some j => .ok { bit := { b with tqs := b.tqs.modify j (TimeQuantum.force val) } }
    | none => .error (.fatal .indexOutOfRange)) s)

end Sys2Proof.Machine
end

