-- ==== Sys2Proof/Machine/Crc.lean ====
section
/-! DEFINITION. The CRC (spec/43_bitframe_build.md R244, R257, R258). -/

namespace Sys2Proof.Machine

/-- The three CRC widths (R244). -/
inductive CrcKind where
  | crc15 | crc17 | crc21
  deriving DecidableEq, Repr

/-- W (R257). -/
def CrcKind.width : CrcKind → Nat
  | .crc15 => 15
  | .crc17 => 17
  | .crc21 => 21

/-- POLY[W] (R257). -/
def CrcKind.poly : CrcKind → Nat
  | .crc15 => 0x4599
  | .crc17 => 0x1685B
  | .crc21 => 0x102899

/-- INIT[W] (R257). -/
def CrcKind.init : CrcKind → Nat
  | .crc15 => 0
  | .crc17 => 0x10000
  | .crc21 => 0x100000

/-- The CRC of a format and DLC (R244). -/
def crcKindOf (fdf : Bool) (dlc : BitVec 4) : CrcKind :=
  if !fdf then .crc15 else if dlc.toNat ≤ 10 then .crc17 else .crc21

/-- `CrcWidth(sl)` (R244): from the slot's stored descriptor (R266). -/
def Slot.crcKind (sl : Slot) : CrcKind := crcKindOf sl.fdf sl.dlc

/-- One bit into the CRC register (R257). -/
def crcStep (w : CrcKind) (c : Nat) (x : Level) : Nat :=
  let nxt := Bool.xor x.toBool (c.testBit (w.width - 1))
  let shifted := (c <<< 1) % 2 ^ w.width
  if nxt then shifted ^^^ w.poly else shifted

/-- The CRC register from a given start value (R257). -/
def crcFrom (w : CrcKind) (start : Nat) (xs : List Level) : Nat := xs.foldl (crcStep w) start

/-- `Crc(W, X)` (R257). -/
def crcOf (w : CrcKind) (xs : List Level) : Nat := crcFrom w w.init xs

/-- Whether a bit before the CRC enters it (R258). -/
def feedsCrc (cfg : Config) (fdf : Bool) (b : FrameBit) : Bool :=
  match b.stuff with
  | .notStuff => true
  | .normalStuff => fdf && cfg.fdCrcMode == .iso
  | .fixedStuff => false

/-- `CrcInput(sl, S)` (R258): the levels before the first Crc bit that enter the CRC. -/
def crcInput (cfg : Config) (fdf : Bool) (bits : List FrameBit) : List Level :=
  ((bits.takeWhile fun b => b.kind != .crc).filter (feedsCrc cfg fdf)).map (·.val)

/-- The CRC that the bits of a span have in slot `sl` (R258, R261, R270). -/
def crcOfSpan (cfg : Config) (sl : Slot) (bits : List FrameBit) : Nat :=
  crcOf sl.crcKind (crcInput cfg sl.fdf bits)

end Sys2Proof.Machine
end

