-- ==== Sys2Proof/Machine/Timing.lean ====
section
/-! DEFINITION. Bit timing (spec/41_bit_timing.md): the legality of a BitTiming (R170), the rate domain of a phase
(R171) and the creation of a bit (R172). -/

namespace Sys2Proof.Machine

/-- `TimingLegal` (R170). -/
def timingLegal (t : BitTiming) : Bool := decide (1 ≤ t.brp.toNat) && decide (t.sjw.toNat ≤ t.ph2.toNat)

/-- The two bit timings a slot keeps (R171). -/
inductive RateDomain where
  | nominal | data
  deriving DecidableEq, Repr

/-- Whether a tag lies between the BRS bit and the CRC delimiter (R171). -/
def inDataPhase : FieldTag → Bool
  | .esi => true
  | .dlc => true
  | .data => true
  | .stuffCount => true
  | .stuffParity => true
  | .crc => true
  | _ => false

/-- `Dom` (R171): the rate domain of one phase of a bit created in slot `sl`. -/
def domain (sl : Slot) (kind : FieldTag) (stuff : StuffKind) (ph : Phase) : RateDomain :=
  if !(sl.fdf && sl.brs) then .nominal
  else if kind == .brs && stuff == .notStuff then (if ph == .phase2 then .data else .nominal)
  else if kind == .brs then .data
  else if kind == .crcDelimiter then (if ph == .phase2 then .nominal else .data)
  else if inDataPhase kind then .data
  else .nominal

/-- The slot's timing copy of a domain. -/
def Slot.timing (sl : Slot) : RateDomain → BitTiming
  | .nominal => sl.nbt
  | .data => sl.dbt

/-- `n` fresh quanta of a phase, each of `brp` cycles without an override (R172). -/
def freshQuanta (ph : Phase) (brp : Byte) (n : Nat) : List TimeQuantum :=
  List.replicate n { phase := ph, cycles := List.replicate brp.toNat none }

/-- `T[ph]` of R172. -/
def phaseTiming (sl : Slot) (kind : FieldTag) (stuff : StuffKind) (ph : Phase) : BitTiming :=
  sl.timing (domain sl kind stuff ph)

/-- `NewBit` (R172): every bit is created here. -/
def newBit (sl : Slot) (kind : FieldTag) (val : Level) (stuff : StuffKind) : FrameBit :=
  let t := phaseTiming sl kind stuff
  { kind := kind
    val := val
    stuff := stuff
    pbrp := { sync := (t .sync).brp, prop := (t .prop).brp, phase1 := (t .phase1).brp, phase2 := (t .phase2).brp }
    tqs := freshQuanta .sync (t .sync).brp 1
      ++ freshQuanta .prop (t .prop).brp (t .prop).prop.toNat
      ++ freshQuanta .phase1 (t .phase1).brp (t .phase1).ph1.toNat
      ++ freshQuanta .phase2 (t .phase2).brp (t .phase2).ph2.toNat }

end Sys2Proof.Machine
end

