-- ==== Sys2Proof/Machine/Stuffing.lean ====
section
/-! DEFINITION. Stuffing and re-derivation (spec/43_bitframe_build.md R250 to R256, R259, R261). -/

namespace Sys2Proof.Machine

/-- Whether a bit may stand in the span: KIND code 0..15 (R250). -/
def inSpan (b : FrameBit) : Bool := decide (b.kind.code ≤ FieldTag.crc.code)

/-- `Span(B)` (R250): the longest prefix of bits tagged Sof .. Crc. -/
def spanOf (bits : List FrameBit) : List FrameBit := bits.takeWhile inSpan

/-- `Tail(B)` (R250). -/
def tailOf (bits : List FrameBit) : List FrameBit := bits.dropWhile inSpan

/-- `Logical(B)` (R251). -/
def logicalBits (bits : List FrameBit) : List FrameBit := (spanOf bits).filter fun b => b.stuff == .notStuff

/-- The run that ends at the last bit put out: the tag of that bit, the level and the length of the run (R252). -/
structure Run where
  tag : FieldTag
  level : Level
  len : Nat
  deriving DecidableEq, Repr

/-- The dynamic stuff bit that is due after a run of five (R252), with the tag of the bit before it (R253). -/
def stuffDue (sl : Slot) (r : Option Run) : Option FrameBit :=
  match r with
  | some ⟨tag, level, 5⟩ => some (newBit sl tag level.flip .normalStuff)
  | _ => none

/-- The run after the due stuff bit, if one is put out: the stuff bit starts a new run (R252). -/
def afterDue (r : Option Run) : Option Run :=
  match r with
  | some ⟨tag, level, 5⟩ => some ⟨tag, level.flip, 1⟩
  | r => r

/-- The run after one more bit (R252). -/
def extendRun (r : Option Run) (b : FrameBit) : Run :=
  match r with
  | some ⟨_, level, len⟩ => if b.val = level then ⟨b.kind, level, len + 1⟩ else ⟨b.kind, b.val, 1⟩
  | none => ⟨b.kind, b.val, 1⟩

/-- The loop of `DynStuff` (R252) from a run on: the bits put out and how many of them are stuff bits. -/
def dynStuffFrom (sl : Slot) (omitTrailing : Bool) (r : Option Run) : List FrameBit → List FrameBit × Nat
  | [] =>
    match omitTrailing, stuffDue sl r with
    | false, some d => ([d], 1)
    | _, _ => ([], 0)
  | b :: bs =>
    let rest := dynStuffFrom sl omitTrailing (some (extendRun (afterDue r) b)) bs
    match stuffDue sl r with
    | some d => (d :: b :: rest.1, rest.2 + 1)
    | none => (b :: rest.1, rest.2)

/-- `DynStuff(sl, S, omitTrailing)` (R252): the stuffed sequence and the count of stuff bits. -/
def dynStuff (sl : Slot) (omitTrailing : Bool) (bits : List FrameBit) : List FrameBit × Nat :=
  dynStuffFrom sl omitTrailing none bits

/-- The loop of `FixStuff` (R255): `j` bits of the region are put out, the last level put out is `p`. -/
def fixStuffFrom (sl : Slot) (j : Nat) (p : Level) : List FrameBit → List FrameBit
  | [] => []
  | b :: bs =>
    if j % 4 = 0 then newBit sl b.kind p.flip .fixedStuff :: b :: fixStuffFrom sl (j + 1) b.val bs
    else b :: fixStuffFrom sl (j + 1) b.val bs

/-- The level of the last bit, or R where there is none (R255). -/
def lastLevel (bits : List FrameBit) : Level :=
  match bits.getLast? with
  | some b => b.val
  | none => .recessive

/-- `FixStuff(sl, Pre, F)` (R255). -/
def fixStuff (sl : Slot) (pre region : List FrameBit) : List FrameBit :=
  pre ++ fixStuffFrom sl 0 (lastLevel pre) region

/-- The 3-bit Gray code of the stuff count (R256). -/
def stuffGray (cnt : Nat) : Nat := (cnt % 8) ^^^ ((cnt % 8) >>> 1)

/-- The parity bit of a stuff-count code (R256). -/
def grayParity (g : Nat) : Nat := ((g >>> 2) ^^^ (g >>> 1) ^^^ g) % 2

/-- The loop of `WriteField` (R259), `k` NotStuff bits of the tag having been written. -/
def writeFieldFrom (tag : FieldTag) (v w k : Nat) : List FrameBit → List FrameBit
  | [] => []
  | b :: bs =>
    if b.kind == tag && b.stuff == .notStuff then
      (if k < w then { b with val := Level.ofBool (v.testBit (w - 1 - k)) } else b) :: writeFieldFrom tag v w (k + 1) bs
    else b :: writeFieldFrom tag v w k bs

/-- `WriteField(S, t, v, w)` (R259). -/
def writeField (bits : List FrameBit) (tag : FieldTag) (v w : Nat) : List FrameBit := writeFieldFrom tag v w 0 bits

/-- The tags that open the fixed region (R261). -/
def opensFixedRegion (b : FrameBit) : Bool :=
  b.kind == .stuffCount || b.kind == .stuffParity || b.kind == .crc

/-- The Classical branch of `Restuff` (R261): the CRC is written, then stuffed. -/
def restuffClassical (cfg : Config) (sl : Slot) (p : List FrameBit) : List FrameBit :=
  (dynStuff sl false (writeField p .crc (crcOfSpan cfg sl p) sl.crcKind.width)).1

/-- The dynamic part of an FD span (R261). -/
def dynPart (p : List FrameBit) : List FrameBit := p.takeWhile fun b => !opensFixedRegion b

/-- The fixed part of an FD span (R261). -/
def fixedPart (p : List FrameBit) : List FrameBit := p.dropWhile fun b => !opensFixedRegion b

/-- The dynamic part stuffed, and the count of its stuff bits; a trailing one is omitted where FD_BOUNDARY_STUFF says so
(R254, R261). -/
def stuffedDyn (cfg : Config) (sl : Slot) (p : List FrameBit) : List FrameBit × Nat :=
  dynStuff sl (!(fixedPart p).isEmpty && cfg.fdBoundaryStuff == .fixedOnly) (dynPart p)

/-- The fixed part with the stuff count and the parity written (R256, R261). -/
def countedPart (cfg : Config) (sl : Slot) (p : List FrameBit) : List FrameBit :=
  let g := stuffGray (stuffedDyn cfg sl p).2
  writeField (writeField (fixedPart p) .stuffCount g 3) .stuffParity (grayParity g) 1

/-- The fixed part with the CRC written too (R258, R261). -/
def codedPart (cfg : Config) (sl : Slot) (p : List FrameBit) : List FrameBit :=
  writeField (countedPart cfg sl p) .crc (crcOfSpan cfg sl ((stuffedDyn cfg sl p).1 ++ countedPart cfg sl p))
    sl.crcKind.width

/-- The FD branch of `Restuff` (R261): the fixed stuff bits are put into the coded fixed part. -/
def restuffFd (cfg : Config) (sl : Slot) (p : List FrameBit) : List FrameBit :=
  fixStuff sl (stuffedDyn cfg sl p).1 (codedPart cfg sl p)

/-- The new span that `Restuff` makes from the logical bits (R261). -/
def restuffSpan (cfg : Config) (sl : Slot) (p : List FrameBit) : List FrameBit :=
  if sl.fdf then restuffFd cfg sl p else restuffClassical cfg sl p

/-- `Restuff(sl)` (R261): the tail is kept. -/
def restuff (cfg : Config) (sl : Slot) : List FrameBit :=
  restuffSpan cfg sl (logicalBits sl.bits) ++ tailOf sl.bits

end Sys2Proof.Machine
end

