-- ==== Sys2Proof/Machine/Build.lean ====
section
/-! DEFINITION. Construction: the descriptor check (spec/40_frame_descriptor.md R141), the field layout
(spec/43_bitframe_build.md R241, R242, R243), the timing check (R262), and the meanings of BUILD, UPDATE, CLONE and
GET_CRC (R263, R265, R267, R270). -/

namespace Sys2Proof.Machine

/-- `DescCheck` (R141): the code of the first check that fails, `none` for OK. -/
def descCheck (fdf ide rtr : Bool) (id : BitVec 29) (dlc : BitVec 4) : Option ResultCode :=
  if fdf && rtr then some .invalidFlagCombination
  else if !ide && decide (0x7FF < id.toNat) then some .invalidFrame
  else if !fdf && decide (8 < dlc.toNat) then some .invalidFrame
  else none

/-- `TimingCheck` (R262): the nominal timing always, the data timing for FD with bit-rate shift. -/
def timingCheck (s : State) : Option ResultCode :=
  if !timingLegal (timingOf s.nbt s.nsjw) then some .invalidTiming
  else if flagFdf s.flags && flagBrs s.flags && !timingLegal (timingOf s.dbt s.dsjw) then some .invalidTiming
  else none

/-! ## Field layout (R241) -/

/-- `Field(t, v, w)` (R241): `w` bits of the number `v`, most significant first. -/
def field (tag : FieldTag) (v w : Nat) : List (FieldTag × Level) :=
  (List.range w).map fun k => (tag, Level.ofBool (v.testBit (w - 1 - k)))

/-- A one-bit field (R241). -/
def field1 (tag : FieldTag) (v : Level) : List (FieldTag × Level) := [(tag, v)]

/-- SOF and the identifier (R241, R242). -/
def layoutId (sl : Slot) : List (FieldTag × Level) :=
  field1 .sof .dominant ++
  if sl.ide then
    field .baseIdentifier (sl.id.toNat / 2 ^ 18) 11 ++ field1 .srr .recessive ++ field1 .ide .recessive
      ++ field .identifierExtension (sl.id.toNat % 2 ^ 18) 18
  else field .baseIdentifier (sl.id.toNat % 2 ^ 11) 11

/-- The control bits up to the DLC (R241, R242). -/
def layoutControl (sl : Slot) : List (FieldTag × Level) :=
  if sl.fdf then
    field1 .r1 .dominant ++ (if sl.ide then [] else field1 .ide .dominant) ++ field1 .edl .recessive
      ++ field1 .r0 .dominant ++ field1 .brs (Level.ofBool sl.brs) ++ field1 .esi (Level.ofBool sl.esi)
  else
    field1 .rtr (Level.ofBool sl.rtr) ++ (if sl.ide then field1 .r1 .dominant else field1 .ide .dominant)
      ++ field1 .r0 .dominant

/-- The data field (R241, R145): payload bytes in index order, each most significant bit first (R243). -/
def layoutData (sl : Slot) (payload : Nat → Byte) : List (FieldTag × Level) :=
  (List.range (dataLen sl.fdf sl.rtr sl.dlc)).flatMap fun j => field .data (payload j).toNat 8

/-- The stuff count of an FD frame and the CRC, both with the value 0 that `restuff` overwrites (R241). -/
def layoutCheck (sl : Slot) : List (FieldTag × Level) :=
  (if sl.fdf then field .stuffCount 0 3 ++ field1 .stuffParity .dominant else []) ++ field .crc 0 sl.crcKind.width

/-- From the CRC delimiter to the intermission (R241, R242). -/
def layoutEnd : List (FieldTag × Level) :=
  field1 .crcDelimiter .recessive ++ field1 .ack .recessive ++ field1 .ackDelimiter .recessive
    ++ field .eof 0x7F 7 ++ field .intermission 0x7 3

/-- `Layout(sl, P)` (R241): the frame before stuffing, in field order (R240). -/
def layout (sl : Slot) (payload : Nat → Byte) : List (FieldTag × Level) :=
  layoutId sl ++ layoutControl sl ++ field .dlc sl.dlc.toNat 4 ++ layoutData sl payload ++ layoutCheck sl ++ layoutEnd

/-! ## Commands -/

/-- The slot record of R263 before its bits: the descriptor and timing copies (R40, R143). -/
def freshSlot (s : State) : Slot :=
  { valid := true
    bits := []
    fdf := flagFdf s.flags
    ide := flagIde s.flags
    rtr := flagRtr s.flags
    brs := flagFdf s.flags && flagBrs s.flags
    esi := flagFdf s.flags && flagEsi s.flags
    id := s.id
    dlc := s.dlc
    nbt := timingOf s.nbt s.nsjw
    dbt := timingOf s.dbt s.dsjw }

/-- The bits of the layout, made by NewBit in the slot (R263). -/
def layoutBits (sl : Slot) (payload : Nat → Byte) : List FrameBit :=
  (layout sl payload).map fun f => newBit sl f.1 f.2 .notStuff

/-- The slot BUILD makes from the registers (R263). -/
def builtSlot (s : State) : Slot :=
  let sl := freshSlot s
  { sl with bits := restuff s.cfg { sl with bits := layoutBits sl s.byte } }

/-- The checks of BUILD that `fail`, in the order of R384. -/
def buildCheck (s : State) : Option ResultCode :=
  match descCheck (flagFdf s.flags) (flagIde s.flags) (flagRtr s.flags) s.id s.dlc with
  | some c => some c
  | none => timingCheck s

/-- BUILD as a state change (R263). -/
def buildInto (dst : SlotIx) (s : State) : State :=
  match buildCheck s with
  | some c => fail c s
  | none =>
    if s.cfg.capBits < (builtSlot s).bits.length then raiseFatal .capacityExceeded s
    else succeed (s.setSlot dst (builtSlot s))

/-- BUILD (R263). -/
def execBuild (dst : SlotIx) (s : State) : Host.Outcome State Fault Refusal := .next (buildInto dst s)

/-- UPDATE (R265). -/
def execUpdate (ix : SlotIx) (s : State) : Host.Outcome State Fault Refusal :=
  .next (edit ix (fun sl => fitBits s.cfg (restuff s.cfg sl)) s)

/-- CLONE (R267): only the source must be valid. -/
def execClone (dst src : SlotIx) (s : State) : Host.Outcome State Fault Refusal :=
  .next (withSlot src s fun sl => succeed (s.setSlot dst sl))

/-- GET_CRC (R270). -/
def execGetCrc (ix : SlotIx) (s : State) : Host.Outcome State Fault Refusal :=
  .next (query ix (fun sl => .ok (BitVec.ofNat 32 (crcOfSpan s.cfg sl (spanOf sl.bits)))) s)

end Sys2Proof.Machine
end

