-- ==== Sys2Proof/Machine/Descriptor.lean ====
section
/-! DEFINITION. RANDOMIZE (spec/40_frame_descriptor.md R150, R151). Its draws are taken from an ORACLE given as an
argument, so that it can be tried with any; the command itself uses `Config.oracle`. -/

namespace Sys2Proof.Machine

/-- All 32 flag combinations. -/
def allFlags : List (BitVec 5) := (List.range 32).map (BitVec.ofNat 5)

/-- The set F of R150: the legal combinations that agree with every pinned flag. -/
def flagChoices (pin : BitVec 8) (flags : BitVec 5) : List (BitVec 5) :=
  allFlags.filter fun x => !(flagFdf x && flagRtr x) && (x ^^^ flags) &&& pinFlags pin == 0

/-- The identifier of R150 step 2 and the ORACLE's next state; `none` where a pinned identifier is out of range. -/
def chooseId (o : Nat → Nat) (k : Nat) (s : State) (flags : BitVec 5) : Option (BitVec 29 × Nat) :=
  if pinId s.pin then
    if !flagIde flags && decide (0x7FF < s.id.toNat) then none else some (s.id, k)
  else
    let d := drawFrom o k (if flagIde flags then 2 ^ 29 else 2 ^ 11)
    some (BitVec.ofNat 29 d.1, d.2)

/-- The DLC of R150 step 3; `none` where a pinned DLC is out of range. -/
def chooseDlc (o : Nat → Nat) (k : Nat) (s : State) (flags : BitVec 5) : Option (BitVec 4 × Nat) :=
  if pinDlc s.pin then
    if !flagFdf flags && decide (8 < s.dlc.toNat) then none else some (s.dlc, k)
  else
    let d := drawFrom o k (if flagFdf flags then 16 else 9)
    some (BitVec.ofNat 4 d.1, d.2)

/-- The payload of R150 step 4 and 5: bytes 0 .. n-1 drawn, or all kept where DATA is pinned; bytes n .. 63 keep their
values. -/
def choosePayload (o : Nat → Nat) (k n : Nat) (s : State) : Vector Byte 64 × Nat :=
  if pinData s.pin then (s.data, k)
  else (Vector.ofFn fun j : Fin 64 => if j.val < n then BitVec.ofNat 8 (o (k + j.val) % 256) else s.data[j], k + n)

/-- RANDOMIZE as a state change (R150). The ORACLE's state moves on by the draws made, also where a later check fails:
it is not architectural state, and a retry draws anew (R45, R434). -/
def randomizeWith (o : Nat → Nat) (s : State) : State :=
  match flagChoices s.pin s.flags with
  | [] => fail .invalidFlagCombination s
  | f :: fs =>
    let d := drawFrom o s.draws (fs.length + 1)
    let flags := (f :: fs).getD d.1 f
    match chooseId o d.2 s flags with
    | none => fail .invalidFrame { s with draws := d.2 }
    | some id =>
      match chooseDlc o id.2 s flags with
      | none => fail .invalidFrame { s with draws := id.2 }
      | some dlc =>
        let p := choosePayload o dlc.2 (dataLen (flagFdf flags) (flagRtr flags) dlc.1) s
        succeed { s with flags := flags, id := id.1, dlc := dlc.1, data := p.1, draws := p.2 }

/-- RANDOMIZE (R150). -/
def execRandomize (s : State) : Host.Outcome State Fault Refusal := .next (randomizeWith Config.oracle s)

end Sys2Proof.Machine
end

