-- ==== Sys2Proof/Machine/Lookup.lean ====
section
/-! DEFINITION. The lookup and query commands (spec/44_lookup.md). -/

namespace Sys2Proof.Machine

/-- GET_BIT_OF (R290). -/
def execGetBitOf (ix : SlotIx) (kind : FieldTag) (s : State) : Host.Outcome State Fault Refusal :=
  .next (findBit ix (fun b => b.kind == kind) s)

/-- GET_BIT_OF_NO_STUFF (R291). -/
def execGetBitOfNoStuff (ix : SlotIx) (kind : FieldTag) (s : State) : Host.Outcome State Fault Refusal :=
  .next (findBit ix (fun b => b.kind == kind && b.stuff == .notStuff) s)

/-- GET_STUFF_BIT (R292). -/
def execGetStuffBit (ix : SlotIx) (kind : Option FieldTag) (val : Option Level) (s : State) :
    Host.Outcome State Fault Refusal :=
  .next (findBit ix (fun b => b.stuff == .normalStuff && matchesTag kind b && matchesLevel val b) s)

/-- GET_FIXED_STUFF_BIT (R293): the level always applies. -/
def execGetFixedStuffBit (ix : SlotIx) (val : Level) (s : State) : Host.Outcome State Fault Refusal :=
  .next (findBit ix (fun b => b.stuff == .fixedStuff && b.val == val) s)

/-- GET_NUM_STUFF_BITS (R294). SK = 0 is an illegal command word (R106), which the decoder refuses; given such a
command, the meaning too raises Fatal(ILLEGAL_COMMAND), before any other check (R384). -/
def execGetNumStuffBits (ix : SlotIx) (sk : StuffKind) (val : Option Level) (s : State) :
    Host.Outcome State Fault Refusal :=
  .next (if sk == .notStuff then raiseFatal .illegalCommand s
    else countBits ix (fun b => b.stuff == sk && matchesLevel val b) s)

/-- GET_BIT_INDEX (R295). -/
def execGetBitIndex (ix : SlotIx) (s : State) : Host.Outcome State Fault Refusal :=
  .next (query ix (fun sl =>
    if s.arg0.toNat < sl.bits.length then .ok s.arg0 else .error (.fatal .indexOutOfRange)) s)

/-- GET_FIELD_LENGTH (R296). -/
def execGetFieldLength (ix : SlotIx) (kind : FieldTag) (s : State) : Host.Outcome State Fault Refusal :=
  .next (countBits ix (fun b => b.kind == kind) s)

/-- GET_LENGTH (R297). -/
def execGetLength (ix : SlotIx) (s : State) : Host.Outcome State Fault Refusal :=
  .next (query ix (fun sl => .ok (BitVec.ofNat 32 sl.bits.length)) s)

/-- RESULT of READ_BIT (R298): KIND in [4:0], value in [5], SK in [7:6], number of quanta in [31:16]. -/
def readBitWord (b : FrameBit) : Word :=
  BitVec.ofNat 16 b.tqs.length ++ (0 : BitVec 8) ++ stuffField b.stuff ++ levelField b.val ++ tagField b.kind

/-- READ_BIT (R298). -/
def execReadBit (ix : SlotIx) (sel : BitSel) (s : State) : Host.Outcome State Fault Refusal :=
  .next (query ix (fun sl => atBit sl sel s.arg0.toNat fun _ b => .ok (readBitWord b)) s)

/-- How many quanta of a bit belong to a phase (R299). -/
def phaseCount (b : FrameBit) (ph : Phase) : Nat := b.tqs.countP fun q => q.phase == ph

/-- RESULT of READ_PHASE_LEN (R299): quanta in [15:0], cycles per quantum in [23:16]. -/
def readPhaseWord (b : FrameBit) (ph : Phase) : Word :=
  (0 : BitVec 8) ++ b.pbrp.get ph ++ BitVec.ofNat 16 (phaseCount b ph)

/-- READ_PHASE_LEN (R299). -/
def execReadPhaseLen (ix : SlotIx) (sel : BitSel) (ph : Phase) (s : State) : Host.Outcome State Fault Refusal :=
  .next (query ix (fun sl => atBit sl sel s.arg0.toNat fun _ b => .ok (readPhaseWord b ph)) s)

/-- GET_RANDOM_BIT (R300). -/
def execGetRandomBit (ix : SlotIx) (val : Option Level) (s : State) : Host.Outcome State Fault Refusal :=
  .next (randomBit Config.oracle ix (matchesLevel val) s)

/-- GET_RANDOM_BIT_OF (R301). -/
def execGetRandomBitOf (ix : SlotIx) (kind : FieldTag) (val : Option Level) (s : State) :
    Host.Outcome State Fault Refusal :=
  .next (randomBit Config.oracle ix (fun b => b.kind == kind && matchesLevel val b) s)

end Sys2Proof.Machine
end

