-- ==== Sys2Proof/Machine/Quantizer.lean ====
section
/-! DEFINITION. The quantizer readout (spec/41_bit_timing.md R200 to R203): it is computed from the slot's current bits
when asked, and nothing of it is kept (R203). -/

namespace Sys2Proof.Machine

/-- One cycle of the readout (R200). -/
structure Cycle where
  level : Level
  phase : Phase
  forced : Bool
  bit : Nat
  deriving DecidableEq, Repr

/-- The cycles of bit `b` at index `i` (R200). -/
def bitCycles (i : Nat) (b : FrameBit) : List Cycle :=
  b.tqs.flatMap fun q => q.cycles.map fun c =>
    { level := cycleLevel b c, phase := q.phase, forced := c.isSome, bit := i }

/-- The cycles of a bit sequence whose first bit has index `i`. -/
def cyclesFrom (i : Nat) : List FrameBit → List Cycle
  | [] => []
  | b :: bs => bitCycles i b ++ cyclesFrom (i + 1) bs

/-- `Cycles(s)` (R200). -/
def cyclesOf (bits : List FrameBit) : List Cycle := cyclesFrom 0 bits

/-- RESULT of QZ_READ (R202): level in [0], phase in [2:1], forced in [3], bit index in [31:8]. -/
def cycleWord (c : Cycle) : Word :=
  BitVec.ofNat 24 c.bit ++ (0 : BitVec 4) ++ BitVec.ofBool c.forced ++ phaseField c.phase ++ levelField c.level

/-- QZ_LENGTH (R201). -/
def execQzLength (ix : SlotIx) (s : State) : Host.Outcome State Fault Refusal :=
  .next (query ix (fun sl => .ok (BitVec.ofNat 32 (cyclesOf sl.bits).length)) s)

/-- QZ_READ (R202). -/
def execQzRead (ix : SlotIx) (s : State) : Host.Outcome State Fault Refusal :=
  .next (query ix (fun sl =>
    match (cyclesOf sl.bits)[s.arg0.toNat]? with
    | some c => .ok (cycleWord c)
    | none => .error (.fatal .indexOutOfRange)) s)

end Sys2Proof.Machine
end

