-- ==== Sys2Proof/Machine/Surgery.lean ====
section
/-! DEFINITION. The frame-surgery commands (spec/45_surgery.md). -/

namespace Sys2Proof.Machine

/-- INSERT_BIT (R330): the position is ARG0, always absolute. -/
def execInsertBit (ix : SlotIx) (kind : FieldTag) (val : Level) (s : State) : Host.Outcome State Fault Refusal :=
  .next (edit ix (fun sl =>
    if sl.bits.length < s.arg0.toNat then .error (.fatal .indexOutOfRange)
    else fitBits s.cfg
      (sl.bits.take s.arg0.toNat ++ newBit sl kind val .notStuff :: sl.bits.drop s.arg0.toNat)) s)

/-- REMOVE_BIT (R331). -/
def execRemoveBit (ix : SlotIx) (sel : BitSel) (s : State) : Host.Outcome State Fault Refusal :=
  .next (edit ix (fun sl => atBit sl sel s.arg0.toNat fun i _ => .ok { bits := sl.bits.eraseIdx i }) s)

/-- REMOVE_BITS_FROM (R332). -/
def execRemoveBitsFrom (ix : SlotIx) (sel : BitSel) (s : State) : Host.Outcome State Fault Refusal :=
  .next (edit ix (fun sl =>
    (selectBit sl.bits sel s.arg0.toNat true).map fun p => { bits := sl.bits.take p }) s)

/-- APPEND_BIT (R333). -/
def execAppendBit (ix : SlotIx) (kind : FieldTag) (val : Level) (s : State) : Host.Outcome State Fault Refusal :=
  .next (edit ix (fun sl => fitBits s.cfg (sl.bits ++ [newBit sl kind val .notStuff])) s)

/-- The bits after `Splice(s, p, flagTag, flagVal, delimTag)` (R334): everything from `p` on is replaced by 6 flag bits
and 8 recessive delimiter bits. -/
def spliced (sl : Slot) (p : Nat) (flagTag : FieldTag) (flagVal : Level) (delimTag : FieldTag) : List FrameBit :=
  sl.bits.take p ++ List.replicate 6 (newBit sl flagTag flagVal .notStuff)
    ++ List.replicate 8 (newBit sl delimTag .recessive .notStuff)

/-- A splice at the selected position, the end position allowed (R334 to R337). -/
def splice (ix : SlotIx) (sel : BitSel) (flagTag : FieldTag) (flagVal : Level) (delimTag : FieldTag) (s : State) :
    State :=
  edit ix (fun sl =>
    match selectBit sl.bits sel s.arg0.toNat true with
    | .ok p => fitBits s.cfg (spliced sl p flagTag flagVal delimTag)
    | .error h => .error h) s

/-- INSERT_ACTIVE_ERROR_FRAME (R335). -/
def execInsertActiveErrorFrame (ix : SlotIx) (sel : BitSel) (s : State) : Host.Outcome State Fault Refusal :=
  .next (splice ix sel .activeErrorFlag .dominant .errorDelimiter s)

/-- INSERT_PASSIVE_ERROR_FRAME (R336). -/
def execInsertPassiveErrorFrame (ix : SlotIx) (sel : BitSel) (s : State) : Host.Outcome State Fault Refusal :=
  .next (splice ix sel .passiveErrorFlag .recessive .errorDelimiter s)

/-- INSERT_OVERLOAD_FRAME (R337): the flag is dominant (conflict C3). -/
def execInsertOverloadFrame (ix : SlotIx) (sel : BitSel) (s : State) : Host.Outcome State Fault Refusal :=
  .next (splice ix sel .overloadFlag .dominant .overloadDelimiter s)

/-- APPEND_SUSPEND (R338). -/
def execAppendSuspend (ix : SlotIx) (s : State) : Host.Outcome State Fault Refusal :=
  .next (edit ix (fun sl =>
    fitBits s.cfg (sl.bits ++ List.replicate 8 (newBit sl .suspend .recessive .notStuff))) s)

/-- A bit in the receiver's view (R340): the receiver drives the ACK alone. -/
def receivedBit (b : FrameBit) : FrameBit := { b with val := if b.kind == .ack then .dominant else .recessive }

/-- TURN_RECEIVED (R340). -/
def execTurnReceived (ix : SlotIx) (s : State) : Host.Outcome State Fault Refusal :=
  .next (edit ix (fun sl => .ok { bits := sl.bits.map receivedBit }) s)

/-- LOSE_ARBITRATION (R342): the selected bit is kept, the later ones are removed (conflict C1). -/
def execLoseArbitration (ix : SlotIx) (sel : BitSel) (s : State) : Host.Outcome State Fault Refusal :=
  .next (edit ix (fun sl => atBit sl sel s.arg0.toNat fun p _ => .ok { bits := sl.bits.take (p + 1) }) s)

/-- APPEND_FRAME (R344): SLOT is checked before SLOT2 (R384); both give INVALID_SLOT. -/
def execAppendFrame (dst src : SlotIx) (s : State) : Host.Outcome State Fault Refusal :=
  .next (withSlot dst s fun _ => withSlot src s fun other =>
    edit dst (fun sl => fitBits s.cfg (sl.bits ++ other.bits)) s)

end Sys2Proof.Machine
end

