-- ==== Sys2Proof/Machine/Dispatch.lean ====
section
/-! DEFINITION. One arm for each command of the opcode map (spec/30_encoding.md R120). -/

namespace Sys2Proof.Machine

def exec (i : Instr) (s : State) : Host.Outcome State Fault Refusal :=
  match i with
  -- 43_bitframe_build.md
  | .build dst => Sys2Proof.Machine.execBuild dst s
  | .update slot => Sys2Proof.Machine.execUpdate slot s
  | .clone dst src => Sys2Proof.Machine.execClone dst src s
  | .getCrc slot => Sys2Proof.Machine.execGetCrc slot s
  -- 40_frame_descriptor.md
  | .randomize => Sys2Proof.Machine.execRandomize s
  -- 44_lookup.md
  | .getBitOf slot kind => Sys2Proof.Machine.execGetBitOf slot kind s
  | .getBitOfNoStuff slot kind => Sys2Proof.Machine.execGetBitOfNoStuff slot kind s
  | .getStuffBit slot kind val => Sys2Proof.Machine.execGetStuffBit slot kind val s
  | .getFixedStuffBit slot val => Sys2Proof.Machine.execGetFixedStuffBit slot val s
  | .getNumStuffBits slot sk val => Sys2Proof.Machine.execGetNumStuffBits slot sk val s
  | .getBitIndex slot => Sys2Proof.Machine.execGetBitIndex slot s
  | .getFieldLength slot kind => Sys2Proof.Machine.execGetFieldLength slot kind s
  | .getLength slot => Sys2Proof.Machine.execGetLength slot s
  | .readBit slot sel => Sys2Proof.Machine.execReadBit slot sel s
  | .readPhaseLen slot sel ph => Sys2Proof.Machine.execReadPhaseLen slot sel ph s
  | .getRandomBit slot val => Sys2Proof.Machine.execGetRandomBit slot val s
  | .getRandomBitOf slot kind val => Sys2Proof.Machine.execGetRandomBitOf slot kind val s
  -- 45_surgery.md
  | .insertBit slot kind val => Sys2Proof.Machine.execInsertBit slot kind val s
  | .removeBit slot sel => Sys2Proof.Machine.execRemoveBit slot sel s
  | .removeBitsFrom slot sel => Sys2Proof.Machine.execRemoveBitsFrom slot sel s
  | .appendBit slot kind val => Sys2Proof.Machine.execAppendBit slot kind val s
  | .insertActiveErrorFrame slot sel => Sys2Proof.Machine.execInsertActiveErrorFrame slot sel s
  | .insertPassiveErrorFrame slot sel => Sys2Proof.Machine.execInsertPassiveErrorFrame slot sel s
  | .insertOverloadFrame slot sel => Sys2Proof.Machine.execInsertOverloadFrame slot sel s
  | .appendSuspend slot => Sys2Proof.Machine.execAppendSuspend slot s
  | .turnReceived slot => Sys2Proof.Machine.execTurnReceived slot s
  | .loseArbitration slot sel => Sys2Proof.Machine.execLoseArbitration slot sel s
  | .appendFrame dst src => Sys2Proof.Machine.execAppendFrame dst src s
  -- 42_bit_ops.md
  | .flipBit slot sel => Sys2Proof.Machine.execFlipBit slot sel s
  | .setBitValue slot sel val => Sys2Proof.Machine.execSetBitValue slot sel val s
  | .setStuffKind slot sel sk => Sys2Proof.Machine.execSetStuffKind slot sel sk s
  | .shortenPhase slot sel ph => Sys2Proof.Machine.execShortenPhase slot sel ph s
  | .lengthenPhase slot sel ph => Sys2Proof.Machine.execLengthenPhase slot sel ph s
  | .forceTq slot sel ph val => Sys2Proof.Machine.execForceTq slot sel ph val s
  -- 41_bit_timing.md
  | .qzLength slot => Sys2Proof.Machine.execQzLength slot s
  | .qzRead slot => Sys2Proof.Machine.execQzRead slot s

end Sys2Proof.Machine
end

