-- ==== Sys2Proof/Machine/Bus.lean ====
section
/-! DEFINITION. What an input of the host or the platform does: the execution of a CMD write (spec/30_encoding.md R101),
register accesses and their refusal (spec/20_memory.md R80, R83, R84), and reset (spec/70_reset_and_hazards.md R420). -/

namespace Sys2Proof.Machine

/-- A write of `w` to CMD (R101): the word is stored; while FATAL = 1 nothing else happens; an illegal word raises
Fatal(ILLEGAL_COMMAND); a legal one executes its command. -/
def commandWrite (w : Word) (s : State) : Host.Outcome State Fault Refusal :=
  let s' := writeReg .cmd w s
  match s'.fatal with
  | some _ => .next s'
  | none =>
    match decode w with
    | .ok i => exec i s'
    | .error _ => .next (raiseFatal .illegalCommand s')

/-- A host write to a mapped register (R39, R46, R84). -/
def registerWrite (r : Reg) (v : Word) (s : State) : Host.Outcome State Fault Refusal :=
  match r with
  | .cmd => commandWrite v s
  | r => .next (writeReg r v s)

/-- A host read of a mapped register: no side effect on CANFE (R84); the value goes to the host. -/
def registerRead (r : Reg) (s : State) : State := { s with busData := readReg r s }

/-- An access of `size` bytes at `off` (R83): only aligned 32-bit accesses to mapped offsets have a step. -/
def accessReg (off size : Nat) (k : Reg → Host.Outcome State Fault Refusal) : Host.Outcome State Fault Refusal :=
  if size ≠ 4 then .refused .accessSize
  else if off % 4 ≠ 0 then .refused .misalignedOffset
  else
    match regAt off with
    | some r => k r
    | none => .fault .unmappedOffset

/-- The platform's reset (R420): every piece of CANFE's state takes its reset value (R48). The parameters are no state
(R30), and the inputs still to come are the outside world's. -/
def resetState (s : State) : State := { State.reset with cfg := s.cfg, pending := s.pending }

/-- The effect of one input. -/
def hostInput (a : HostInput) (s : State) : Host.Outcome State Fault Refusal :=
  match a with
  | .write off size v => accessReg off size fun r => registerWrite r v s
  | .read off size => accessReg off size fun r => .next (registerRead r s)
  | .reset => .next (resetState s)

/-- One step: the oldest pending input takes effect, whole and alone (R86); with none pending nothing happens, since
CANFE executes nothing until the host writes CMD (R48, R421). -/
def nextInput (s : State) : Host.Outcome State Fault Refusal :=
  match s.pending with
  | [] => .next s
  | a :: rest => hostInput a { s with pending := rest }

end Sys2Proof.Machine
end

