-- ==== Sys2Proof/Machine/Step.lean ====
section
/-! DEFINITION. One step of the machine, and placing a command word where the next step takes it from. -/

namespace Sys2Proof.Machine

/-- One step: the oldest pending input takes effect (`nextInput`). -/
def step (s : State) : Host.Outcome State Fault Refusal := nextInput s

/-- The state in which the host's next access writes the command word `w` to CMD (offset 0x000): the very next step
executes it. Bits at or above `nbits` are 0. -/
def State.withFetchWord (s : State) (nbits w : Nat) : State :=
  { s with pending := .write 0x000 4 (BitVec.ofNat 32 (w % 2 ^ nbits)) :: s.pending }

end Sys2Proof.Machine
end

