-- ==== Sys2Proof/Safety.lean ====
section
/-! DEFINITION. What counts as a good state and a safe run, in the terms the statements use: the invariant of
spec/10_state.md R47 with what it rests on (R40 to R42), the accesses that have a step (spec/20_memory.md R83), the
stuffing invariant (spec/43_bitframe_build.md R275), the word patterns of spec/30_encoding.md R102 to R106, and the
relations by which frames are stated. -/

namespace Sys2Proof.Machine

/-! ## The invariant of the slots (R47) -/

/-- The quanta of a bit are ordered by phase (R41). -/
abbrev PhaseOrdered (tqs : List TimeQuantum) : Prop := tqs.Pairwise fun a b => a.phase.code ≤ b.phase.code

/-- A bit record is as the rules keep it: quanta in phase order, at most CAP_TQ of them (R41, R47), each quantum as long
as its phase's prescaler (R42), and every prescaler 1..255 (R41). -/
abbrev BitOk (cfg : Config) (b : FrameBit) : Prop :=
  PhaseOrdered b.tqs ∧ b.tqs.length ≤ cfg.capTq ∧ (∀ q ∈ b.tqs, q.cycles.length = (b.pbrp.get q.phase).toNat) ∧
    1 ≤ b.pbrp.sync.toNat ∧ 1 ≤ b.pbrp.prop.toNat ∧ 1 ≤ b.pbrp.phase1.toNat ∧ 1 ≤ b.pbrp.phase2.toNat

/-- The descriptor and timing copies a BUILD takes are legal (R141, R143, R262). -/
abbrev CopiesOk (sl : Slot) : Prop :=
  ¬(sl.fdf = true ∧ sl.rtr = true) ∧ (sl.ide = false → sl.id.toNat ≤ 0x7FF) ∧ (sl.fdf = false → sl.dlc.toNat ≤ 8) ∧
    (sl.fdf = false → sl.brs = false ∧ sl.esi = false) ∧
    1 ≤ sl.nbt.brp.toNat ∧ sl.nbt.sjw.toNat ≤ sl.nbt.ph2.toNat ∧
    (sl.fdf = true → sl.brs = true → 1 ≤ sl.dbt.brp.toNat ∧ sl.dbt.sjw.toNat ≤ sl.dbt.ph2.toNat)

/-- A slot record is as the rules keep it: at most CAP_BITS bits (R40), every bit good, a built slot's copies legal, and
a slot never built as reset left it (R48). -/
abbrev SlotOk (cfg : Config) (sl : Slot) : Prop :=
  sl.bits.length ≤ cfg.capBits ∧ (∀ b ∈ sl.bits, BitOk cfg b) ∧ (sl.valid = true → CopiesOk sl) ∧
    (sl.valid = false → sl = Slot.empty)

/-- The invariant of the machine (R47). -/
abbrev StateOk (s : State) : Prop := s.cfg.Legal ∧ ∀ ix : SlotIx, SlotOk s.cfg (s.slot ix)

/-! ## Accesses that have a step (R83) -/

/-- The offsets of the register map (R31), as the table lists them. -/
def mappedOffsets : List Nat :=
  [0x000, 0x004, 0x008, 0x00C, 0x010, 0x020, 0x024, 0x028, 0x02C, 0x030, 0x034, 0x040, 0x044, 0x048, 0x04C, 0x050]
    ++ (List.range 16).map fun k => 0x100 + 4 * k

/-- An input with a step: an aligned 32-bit access to a mapped offset (R83), or reset. -/
def HostInput.defined : HostInput → Bool
  | .write off size _ => size == 4 && off % 4 == 0 && mappedOffsets.contains off
  | .read off size => size == 4 && off % 4 == 0 && mappedOffsets.contains off
  | .reset => true

/-- A safe run is one whose inputs all have a step: nothing else stops the machine. -/
abbrev SafeInputs (s : State) : Prop := ∀ a ∈ s.pending, a.defined = true

/-! ## Word patterns (R102 to R106) -/

/-- The assigned OPC values (R120). -/
def assignedOpcodes : List Nat :=
  [0x01, 0x02, 0x03, 0x04, 0x05, 0x08, 0x09, 0x0A, 0x0B, 0x0C, 0x0D, 0x0E, 0x0F, 0x10, 0x11, 0x12, 0x13, 0x18, 0x19,
    0x1A, 0x1B, 0x1C, 0x1D, 0x1E, 0x1F, 0x20, 0x21, 0x22, 0x28, 0x29, 0x2A, 0x2B, 0x2C, 0x2D, 0x30, 0x31]

/-- The opcodes that read KIND whatever KINDF holds (R120). -/
def kindOpcodes : List Nat := [0x08, 0x09, 0x0E, 0x13, 0x18, 0x1B]

/-- The opcodes that read KIND for a filter or a selector, when KINDF = 1 (R106, R120). -/
def kindfOpcodes : List Nat :=
  [0x0A, 0x10, 0x11, 0x19, 0x1A, 0x1C, 0x1D, 0x1E, 0x21, 0x28, 0x29, 0x2A, 0x2B, 0x2C, 0x2D]

/-- The words that no rule of R104 to R106 makes illegal, read off the bits of the word. -/
def LegalWord (w : Word) : Prop :=
  w.toNat / 2 ^ 23 = 0 ∧ w.toNat % 64 ∈ assignedOpcodes ∧
    (w.toNat % 64 ∈ kindOpcodes → w.toNat / 2 ^ 10 % 32 < 28) ∧
    (w.toNat % 64 ∈ kindfOpcodes → w.toNat / 2 ^ 17 % 2 = 1 → w.toNat / 2 ^ 10 % 32 < 28) ∧
    (w.toNat % 64 = 0x2A → w.toNat / 2 ^ 21 % 4 ≠ 3) ∧
    (w.toNat % 64 = 0x0C → w.toNat / 2 ^ 21 % 4 ≠ 3 ∧ w.toNat / 2 ^ 21 % 4 ≠ 0)

/-- The bits of a command word that are checked or read for an OPC value: the reserved bits, OPC, and the fields marked
for it in the table of R120. -/
def readBits (opc : Nat) : Word :=
  match opc with
  | 0x01 => 0xFF8000FF
  | 0x02 => 0xFF8000FF
  | 0x03 => 0xFF8003FF
  | 0x04 => 0xFF8000FF
  | 0x05 => 0xFF80003F
  | 0x08 => 0xFF807CFF
  | 0x09 => 0xFF807CFF
  | 0x0A => 0xFF83FCFF
  | 0x0B => 0xFF8080FF
  | 0x0C => 0xFFE180FF
  | 0x0D => 0xFF8000FF
  | 0x0E => 0xFF807CFF
  | 0x0F => 0xFF8000FF
  | 0x10 => 0xFF827CFF
  | 0x11 => 0xFF8E7CFF
  | 0x12 => 0xFF8180FF
  | 0x13 => 0xFF81FCFF
  | 0x18 => 0xFF80FCFF
  | 0x19 => 0xFF827CFF
  | 0x1A => 0xFF827CFF
  | 0x1B => 0xFF80FCFF
  | 0x1C => 0xFF827CFF
  | 0x1D => 0xFF827CFF
  | 0x1E => 0xFF827CFF
  | 0x1F => 0xFF8000FF
  | 0x20 => 0xFF8000FF
  | 0x21 => 0xFF827CFF
  | 0x22 => 0xFF8003FF
  | 0x28 => 0xFF827CFF
  | 0x29 => 0xFF82FCFF
  | 0x2A => 0xFFE27CFF
  | 0x2B => 0xFF8E7CFF
  | 0x2C => 0xFF8E7CFF
  | 0x2D => 0xFF9EFCFF
  | 0x30 => 0xFF8000FF
  | 0x31 => 0xFF8000FF
  | _ => 0xFF80003F

/-! ## The register map as a table (R31, R46) -/

/-- The offset of a register (R31). -/
def Reg.offset : Reg → Nat
  | .cmd => 0x000
  | .arg0 => 0x004
  | .arg1 => 0x008
  | .status => 0x00C
  | .result => 0x010
  | .nbt => 0x020
  | .nsjw => 0x024
  | .dbt => 0x028
  | .dsjw => 0x02C
  | .nderiv => 0x030
  | .dderiv => 0x034
  | .flags => 0x040
  | .id => 0x044
  | .dlc => 0x048
  | .datalen => 0x04C
  | .pin => 0x050
  | .data k => 0x100 + 4 * k.val

/-- The bits of a register that are not reserved (R32 to R39, R44). -/
def Reg.implemented : Reg → Word
  | .status => 0x00007107
  | .nsjw => 0x000000FF
  | .dsjw => 0x000000FF
  | .flags => 0x0000001F
  | .id => 0x1FFFFFFF
  | .dlc => 0x0000000F
  | .datalen => 0x0000007F
  | .pin => 0x000000FF
  | _ => 0xFFFFFFFF

/-- The read-only registers (R31). -/
def Reg.readOnly : Reg → Bool
  | .status => true
  | .result => true
  | .nderiv => true
  | .dderiv => true
  | .datalen => true
  | _ => false

/-- The registers whose value a write to the register changes with it: the derived view of a timing or descriptor
register (R36, R44). -/
def Reg.derivesFrom : Reg → Reg → Bool
  | .nderiv, .nbt => true
  | .dderiv, .dbt => true
  | .datalen, .flags => true
  | .datalen, .dlc => true
  | _, _ => false

/-! ## Selection -/

/-- Position `i` holds the n-th (0-based) element satisfying `p` (R10). -/
abbrev IsNth {α : Type} (p : α → Prop) [DecidablePred p] (l : List α) (n i : Nat) : Prop :=
  (∃ x, l[i]? = some x ∧ p x) ∧ (l.take i).countP (fun x => decide (p x)) = n

/-- Selector `sel` with ARG0 = `arg` names position `i` of `bits` (R115). -/
def Selects (bits : List FrameBit) (sel : BitSel) (arg i : Nat) : Prop :=
  match sel with
  | .index => i = arg ∧ arg < bits.length
  | .typed t => IsNth (fun b => b.kind = t) bits arg i

/-- The same where the position just behind the last bit may be named too (R115, allowEnd). -/
def SelectsOrEnd (bits : List FrameBit) (sel : BitSel) (arg i : Nat) : Prop :=
  Selects bits sel arg i ∨ (sel = .index ∧ arg = bits.length ∧ i = arg)

/-! ## What a completed command leaves -/

/-- The state after a command that ends in `ok(v)` and changes nothing else (R12). -/
abbrev answered (s : State) (v : Word) : State := { s with code := .ok, result := v }

/-- The state after a command that gives slot `ix` the bits `bits`, ends in `ok()` and changes nothing else (R12). -/
abbrev edited (s : State) (ix : SlotIx) (bits : List FrameBit) : State :=
  { s.setSlot ix { s.slot ix with bits := bits } with code := .ok }

/-! ## What a command may write -/

/-- The slot a command may change, `none` where it changes none (R264, R302). -/
def targetOf : Instr → Option SlotIx
  | .build d => some d
  | .update d => some d
  | .clone d _ => some d
  | .getCrc _ => none
  | .randomize => none
  | .getBitOf _ _ => none
  | .getBitOfNoStuff _ _ => none
  | .getStuffBit _ _ _ => none
  | .getFixedStuffBit _ _ => none
  | .getNumStuffBits _ _ _ => none
  | .getBitIndex _ => none
  | .getFieldLength _ _ => none
  | .getLength _ => none
  | .readBit _ _ => none
  | .readPhaseLen _ _ _ => none
  | .getRandomBit _ _ => none
  | .getRandomBitOf _ _ _ => none
  | .insertBit d _ _ => some d
  | .removeBit d _ => some d
  | .removeBitsFrom d _ => some d
  | .appendBit d _ _ => some d
  | .insertActiveErrorFrame d _ => some d
  | .insertPassiveErrorFrame d _ => some d
  | .insertOverloadFrame d _ => some d
  | .appendSuspend d => some d
  | .turnReceived d => some d
  | .loseArbitration d _ => some d
  | .appendFrame d _ => some d
  | .flipBit d _ => some d
  | .setBitValue d _ _ => some d
  | .setStuffKind d _ _ => some d
  | .shortenPhase d _ _ => some d
  | .lengthenPhase d _ _ => some d
  | .forceTq d _ _ _ => some d
  | .qzLength _ => none
  | .qzRead _ => none

/-- The commands that may write RESULT: those that end in `ok(v)` (R12, R39). -/
def returnsValue : Instr → Bool
  | .shortenPhase _ _ _ => true
  | .randomize => false
  | i => (targetOf i).isNone

/-- The commands that take a draw (R45). -/
def mayDraw : Instr → Bool
  | .randomize => true
  | .getRandomBit _ _ => true
  | .getRandomBitOf _ _ _ => true
  | _ => false

/-- The slots a command reads (R384 step 3), in the order it checks them: none for BUILD and RANDOMIZE. -/
def slotsRead : Instr → List SlotIx
  | .build _ => []
  | .randomize => []
  | .clone _ src => [src]
  | .appendFrame dst src => [dst, src]
  | .update s => [s]
  | .getCrc s => [s]
  | .getBitOf s _ => [s]
  | .getBitOfNoStuff s _ => [s]
  | .getStuffBit s _ _ => [s]
  | .getFixedStuffBit s _ => [s]
  | .getNumStuffBits s _ _ => [s]
  | .getBitIndex s => [s]
  | .getFieldLength s _ => [s]
  | .getLength s => [s]
  | .readBit s _ => [s]
  | .readPhaseLen s _ _ => [s]
  | .getRandomBit s _ => [s]
  | .getRandomBitOf s _ _ => [s]
  | .insertBit s _ _ => [s]
  | .removeBit s _ => [s]
  | .removeBitsFrom s _ => [s]
  | .appendBit s _ _ => [s]
  | .insertActiveErrorFrame s _ => [s]
  | .insertPassiveErrorFrame s _ => [s]
  | .insertOverloadFrame s _ => [s]
  | .appendSuspend s => [s]
  | .turnReceived s => [s]
  | .loseArbitration s _ => [s]
  | .flipBit s _ => [s]
  | .setBitValue s _ _ => [s]
  | .setStuffKind s _ _ => [s]
  | .shortenPhase s _ _ => [s]
  | .lengthenPhase s _ _ => [s]
  | .forceTq s _ _ _ => [s]
  | .qzLength s => [s]
  | .qzRead s => [s]

/-- The slot and selector of a command with a bit selector, and whether it allows the end position (R115, R120). -/
def selectorOf : Instr → Option (SlotIx × BitSel × Bool)
  | .readBit s b => some (s, b, false)
  | .readPhaseLen s b _ => some (s, b, false)
  | .removeBit s b => some (s, b, false)
  | .removeBitsFrom s b => some (s, b, true)
  | .insertActiveErrorFrame s b => some (s, b, true)
  | .insertPassiveErrorFrame s b => some (s, b, true)
  | .insertOverloadFrame s b => some (s, b, true)
  | .loseArbitration s b => some (s, b, false)
  | .flipBit s b => some (s, b, false)
  | .setBitValue s b _ => some (s, b, false)
  | .setStuffKind s b _ => some (s, b, false)
  | .shortenPhase s b _ => some (s, b, false)
  | .lengthenPhase s b _ => some (s, b, false)
  | .forceTq s b _ _ => some (s, b, false)
  | _ => none

/-! ## A legal descriptor and timing in the registers -/

/-- The registers pass every check of BUILD (R141, R262), written out. -/
abbrev BuildLegal (s : State) : Prop :=
  ¬(flagFdf s.flags = true ∧ flagRtr s.flags = true) ∧
    (flagIde s.flags = false → s.id.toNat ≤ 0x7FF) ∧ (flagFdf s.flags = false → s.dlc.toNat ≤ 8) ∧
    1 ≤ (fieldBrp s.nbt).toNat ∧ s.nsjw.toNat ≤ (fieldPh2 s.nbt).toNat ∧
    (flagFdf s.flags = true → flagBrs s.flags = true →
      1 ≤ (fieldBrp s.dbt).toNat ∧ s.dsjw.toNat ≤ (fieldPh2 s.dbt).toNat)

/-! ## The stuffing invariant (R275) -/

/-- R275 (a): no six consecutive bits have equal values. -/
def NoSixEqual (bits : List FrameBit) : Prop :=
  ∀ (v : Level) (pre post : List Level), bits.map (·.val) ≠ pre ++ List.replicate 6 v ++ post

/-- R275 (b): every NormalStuff bit follows five equal bits and has the opposite value. -/
def StuffFollowsFive (bits : List FrameBit) : Prop :=
  ∀ (pre : List FrameBit) (b : FrameBit) (post : List FrameBit), bits = pre ++ b :: post → b.stuff = .normalStuff →
    ∃ front, pre.map (·.val) = front ++ List.replicate 5 b.val.flip

/-- The fixed region of an FD span: from the first StuffCount, StuffParity or Crc bit on (R261). -/
def fixedRegion (bits : List FrameBit) : List FrameBit := bits.dropWhile fun b => !opensFixedRegion b

/-- R275 (c) and (d): the fixed region reads F, 4 bits, F, 4 bits, ..., F, then the last 1 to 4 bits, where each F is a
FixedStuff bit equal to the complement of the bit before it, and no other bit of the region is a stuff bit. -/
def FixedEveryFour (bits : List FrameBit) : Prop :=
  (fixedRegion bits).length % 5 ≠ 1 ∧
    ∀ (k : Nat) (b : FrameBit), (fixedRegion bits)[k]? = some b →
      if k % 5 = 0 then
        b.stuff = .fixedStuff ∧
          b.val = (lastLevel (bits.take (bits.length - (fixedRegion bits).length + k))).flip
      else b.stuff = .notStuff

/-- The stuffing invariant of a slot (R275). -/
def Stuffed (sl : Slot) : Prop :=
  NoSixEqual (spanOf sl.bits) ∧ StuffFollowsFive (spanOf sl.bits) ∧
    (sl.fdf = true → FixedEveryFour (spanOf sl.bits))

/-! ## The stuffing rule (R252 to R255) -/

/-- The stuffed dynamic part of a slot (R254, R261): the whole span of a Classical slot, the bits before the fixed region
of an FD one. -/
def dynamicRegion (sl : Slot) : List FrameBit :=
  if sl.fdf then (spanOf sl.bits).takeWhile fun b => !opensFixedRegion b else spanOf sl.bits

/-- `bits` ends in five equal levels, and `c` is its last bit. -/
def EndsInFive (bits : List FrameBit) (c : FrameBit) : Prop :=
  bits.getLast? = some c ∧ ∃ front : List Level, bits.map (·.val) = front ++ List.replicate 5 c.val

/-- Five equal bits that end the dynamic part get no dynamic stuff bit (R254): an FD span with a fixed region, where
FD_BOUNDARY_STUFF is FIXED_ONLY. -/
def BoundaryUnstuffed (cfg : Config) (sl : Slot) : Prop :=
  sl.fdf = true ∧ fixedRegion (spanOf sl.bits) ≠ [] ∧ cfg.fdBoundaryStuff = .fixedOnly

/-- Wherever five equal bits end in the dynamic part, the next bit is the dynamic stuff bit of R252: NewBit of the
complement, with the tag of the bit just before it (R253). There is none only at the boundary of R254. -/
def EveryFiveIsStuffed (cfg : Config) (sl : Slot) : Prop :=
  ∀ (pre : List FrameBit) (c : FrameBit) (post : List FrameBit), dynamicRegion sl = pre ++ post → EndsInFive pre c →
    match post with
    | [] => BoundaryUnstuffed cfg sl
    | b :: _ => b = newBit sl c.kind c.val.flip .normalStuff

/-- Every stuff bit of the dynamic part is the one R252 and R253 put after five equal bits, and none stands at the
boundary of R254. -/
def OnlyFiveAreStuffed (cfg : Config) (sl : Slot) : Prop :=
  ∀ (pre : List FrameBit) (b : FrameBit) (post : List FrameBit), dynamicRegion sl = pre ++ b :: post →
    b.stuff ≠ .notStuff →
    (∃ c, EndsInFive pre c ∧ b = newBit sl c.kind c.val.flip .normalStuff) ∧ (post = [] → ¬ BoundaryUnstuffed cfg sl)

/-- A fixed stuff bit has the tag of the bit just after it (R253). -/
def FixedTagsFollow (bits : List FrameBit) : Prop :=
  ∀ (pre : List FrameBit) (b : FrameBit) (post : List FrameBit), bits = pre ++ b :: post → b.stuff = .fixedStuff →
    ∃ (c : FrameBit) (rest : List FrameBit), post = c :: rest ∧ b.kind = c.kind

/-! ## Writing a field (R259) -/

/-- The NotStuff bits of a tag, in order. -/
def fieldBits (bits : List FrameBit) (t : FieldTag) : List FrameBit :=
  bits.filter fun b => b.kind == t && b.stuff == .notStuff

/-- From `old` to `new` the NotStuff bits of a tag were written with the `w`-bit number `v` (R259): the k-th gets bit
`w-1-k`, those from the w-th on keep their value, and nothing else of any of them changes. -/
def FieldWritten (t : FieldTag) (w v : Nat) (old new : List FrameBit) : Prop :=
  (fieldBits new t).length = (fieldBits old t).length ∧
    ∀ (k : Nat) (b : FrameBit), (fieldBits old t)[k]? = some b →
      (fieldBits new t)[k]? = some
        { b with val := if k < w then (if v / 2 ^ (w - 1 - k) % 2 = 1 then .recessive else .dominant) else b.val }

/-! ## The fields of a built frame (R241) -/

/-- `n` bits of a tag. -/
def tags (t : FieldTag) (n : Nat) : List FieldTag := List.replicate n t

/-- The tags of a frame before stuffing, as the table of R241 lists them, for `l` data bytes and a CRC of `w` bits. -/
def frameTags (fdf ide rtr : Bool) (l w : Nat) : List FieldTag :=
  let ending := tags .crc w ++ tags .crcDelimiter 1 ++ tags .ack 1 ++ tags .ackDelimiter 1 ++ tags .eof 7
    ++ tags .intermission 3
  let count := tags .stuffCount 3 ++ tags .stuffParity 1
  match fdf, ide with
  | false, false =>
    tags .sof 1 ++ tags .baseIdentifier 11 ++ tags .rtr 1 ++ tags .ide 1 ++ tags .r0 1 ++ tags .dlc 4
      ++ tags .data (if rtr then 0 else 8 * l) ++ ending
  | false, true =>
    tags .sof 1 ++ tags .baseIdentifier 11 ++ tags .srr 1 ++ tags .ide 1 ++ tags .identifierExtension 18 ++ tags .rtr 1
      ++ tags .r1 1 ++ tags .r0 1 ++ tags .dlc 4 ++ tags .data (if rtr then 0 else 8 * l) ++ ending
  | true, false =>
    tags .sof 1 ++ tags .baseIdentifier 11 ++ tags .r1 1 ++ tags .ide 1 ++ tags .edl 1 ++ tags .r0 1 ++ tags .brs 1
      ++ tags .esi 1 ++ tags .dlc 4 ++ tags .data (8 * l) ++ count ++ ending
  | true, true =>
    tags .sof 1 ++ tags .baseIdentifier 11 ++ tags .srr 1 ++ tags .ide 1 ++ tags .identifierExtension 18 ++ tags .r1 1
      ++ tags .edl 1 ++ tags .r0 1 ++ tags .brs 1 ++ tags .esi 1 ++ tags .dlc 4 ++ tags .data (8 * l) ++ count ++ ending

/-- The bytes of a DLC, as the table of R145 lists them. -/
def fdLengths : List Nat := [0, 1, 2, 3, 4, 5, 6, 7, 8, 12, 16, 20, 24, 32, 48, 64]

/-- The number that the NotStuff bits of a tag spell, most significant first (R276). -/
def fieldValue (bits : List FrameBit) (t : FieldTag) : Nat :=
  (bits.filter fun b => b.kind == t && b.stuff == .notStuff).foldl (fun n b => 2 * n + b.val.toBool.toNat) 0

end Sys2Proof.Machine
end

