-- ==== Sys2Proof/Certificates/Slice0/Obligations.lean ====
section
/-! DEFINITION. The statements for the provers. Each docstring names the rule of spec/ it formalises; "log n" is an entry
of notes/assumptions. -/

open Sys2Proof Sys2Proof.Machine

/-! ## Encoding and the command engine -/

/-- Decoding the encoding of a well-formed command gives it back, with every operand at every value (R100, R102,
R110 to R113, R120). -/
def Obligations.DecodeOfEncodeIsTheCommand : Prop :=
  ∀ i : Instr, i.WellFormed → decode (encode i) = .ok i

/-- The decoder accepts exactly the words that R104, R105 and R106 do not make illegal. -/
def Obligations.DecodeAcceptsExactlyTheLegalWords : Prop :=
  ∀ w : Word, (∃ i, decode w = .ok i) ↔ LegalWord w

/-- Words written out from the encodings of R100, R110 to R113 and R120 decode to the commands they stand for. -/
def Obligations.SpecWordsDecode : Prop :=
  decode 0x00000001 = .ok (.build 0) ∧ decode 0x00000303 = .ok (.clone 0 3) ∧
    decode 0x00003C08 = .ok (.getBitOf 0 .crc) ∧ decode 0x0002300A = .ok (.getStuffBit 0 (some .data) none) ∧
    decode 0x0021000C = .ok (.getNumStuffBits 0 .normalStuff (some .dominant)) ∧
    decode 0x000E2411 = .ok (.readPhaseLen 0 (.typed .brs) .phase2) ∧
    decode 0x0000D01B = .ok (.appendBit 0 .intermission .recessive) ∧
    decode 0x0040002A = .ok (.setStuffKind 0 .index .fixedStuff) ∧
    decode 0x001C802D = .ok (.forceTq 0 .index (some .phase2) .recessive) ∧ decode 0x00000031 = .ok (.qzRead 0)

/-- R102: a field an opcode does not read is ignored: two words that agree on the bits their OPC reads, the reserved
bits and OPC decode alike; and where KINDF = 0 makes a selector or filter not read KIND, KIND does not matter either. -/
def Obligations.UnreadFieldsAreIgnored : Prop :=
  ∀ w v : Word,
    (w &&& readBits (w.toNat % 64) = v &&& readBits (w.toNat % 64) → decode w = decode v) ∧
    (w.toNat % 64 ∈ kindfOpcodes → w.toNat / 2 ^ 17 % 2 = 0 →
      w &&& (readBits (w.toNat % 64) &&& 0xFFFF83FF) = v &&& (readBits (w.toNat % 64) &&& 0xFFFF83FF) →
      decode w = decode v)

/-- R101, with the illegal words of R104, R105 and R106: a write to CMD stores the word; while FATAL = 1 nothing else
changes; an illegal word raises Fatal(ILLEGAL_COMMAND); a legal one executes its command, all in one step. -/
def Obligations.CmdWriteExecutesInOrder : Prop :=
  ∀ (s : State) (w : Word) (rest : List HostInput), s.pending = .write 0x000 4 w :: rest →
    (∀ f, s.fatal = some f → step s = .next { s with pending := rest, cmd := w }) ∧
    (s.fatal = none → ¬ LegalWord w →
      step s = .next { s with pending := rest, cmd := w, fatal := some .illegalCommand }) ∧
    (s.fatal = none → LegalWord w →
      ∃ i, decode w = .ok i ∧ step s = exec i { s with pending := rest, cmd := w })

/-- A step runs the decoded command: the command word placed by `withFetchWord` is the one the very next step executes,
in the state in which CMD holds it (R101). -/
def Obligations.StepRunsTheDecodedCommand : Prop :=
  ∀ (s : State), s.fatal = none →
    (∀ (w : Word) (i : Instr), decode w = .ok i →
      step (s.withFetchWord 32 w.toNat) = exec i { s with cmd := w }) ∧
    (∀ i : Instr, i.WellFormed →
      step (s.withFetchWord 32 (encode i).toNat) = exec i { s with cmd := encode i })

/-- With no input pending a step changes nothing: CANFE executes nothing until the host writes CMD (R421). That inputs
stand in a list and that a step without one is allowed is the model's choice (log 1). -/
def Obligations.NothingPendingNothingChanges : Prop :=
  ∀ s : State, s.pending = [] → step s = .next s

/-! ## Registers, accesses and reset -/

/-- R83: an access has a step exactly when its size is 4, its offset is a multiple of 4 and its offset is in the
register map. -/
def Obligations.OnlyAlignedMappedWordAccessesHaveAStep : Prop :=
  ∀ (s : State) (rest : List HostInput) (off size : Nat),
    (∀ v : Word, s.pending = .write off size v :: rest →
      ((∃ t, step s = .next t) ↔ size = 4 ∧ off % 4 = 0 ∧ off ∈ mappedOffsets)) ∧
    (s.pending = .read off size :: rest →
      ((∃ t, step s = .next t) ↔ size = 4 ∧ off % 4 = 0 ∧ off ∈ mappedOffsets))

/-- R46: reserved register bits read 0 and ignore writes; a write to a read-only register is ignored; CMD keeps all 32
bits of the word, and its reserved bits are checked when the command executes. A write to a register other than CMD
changes no other register (but for the derived view of the written one), no slot, no STATUS and no RESULT. -/
def Obligations.RegisterWriteThenRead : Prop :=
  (∀ (r : Reg) (s : State), readReg r s &&& ~~~r.implemented = 0) ∧
  (∀ (s : State) (rest : List HostInput) (v : Word), s.pending = .write (Reg.cmd).offset 4 v :: rest →
    ∃ t, step s = .next t ∧ readReg .cmd t = v ∧
      (s.fatal = none → v.toNat / 2 ^ 23 ≠ 0 → t.fatal = some .illegalCommand)) ∧
  (∀ (s : State) (rest : List HostInput) (r : Reg) (v : Word), r ≠ .cmd → s.pending = .write r.offset 4 v :: rest →
    ∃ t, step s = .next t ∧
      (r.readOnly = true → t = { s with pending := rest }) ∧
      (r.readOnly = false → readReg r t = v &&& r.implemented) ∧
      (∀ r', r' ≠ r → r'.derivesFrom r = false → readReg r' t = readReg r' s) ∧
      t.slots = s.slots ∧ t.code = s.code ∧ t.fatal = s.fatal ∧ t.result = s.result ∧ t.draws = s.draws ∧
      t.cfg = s.cfg ∧ t.pending = rest ∧ t.busData = s.busData)

/-- A host read returns the register's value and changes nothing of CANFE (R80, R84). `busData`, which holds the value
for the host, is the model's own field (log 2). -/
def Obligations.RegisterReadChangesNothing : Prop :=
  ∀ (s : State) (rest : List HostInput) (r : Reg), s.pending = .read r.offset 4 :: rest →
    step s = .next { s with pending := rest, busData := readReg r s }

/-- The payload packing (R37, R82): DATAk[8j+7:8j] is payload byte 4k + j, and a write to DATAk changes no other byte. -/
def Obligations.PayloadBytesAreLittleEndian : Prop :=
  (∀ (s : State) (k : Fin 16) (j : Nat), j < 4 →
    (readReg (.data k) s).extractLsb' (8 * j) 8 = s.byte (4 * k.val + j)) ∧
  (∀ (s : State) (rest : List HostInput) (k : Fin 16) (v : Word), s.pending = .write (0x100 + 4 * k.val) 4 v :: rest →
    ∃ t, step s = .next t ∧
      (∀ j, j < 4 → t.byte (4 * k.val + j) = v.extractLsb' (8 * j) 8) ∧
      (∀ m, m / 4 ≠ k.val → t.byte m = s.byte m))

/-- The derived registers (R36, R44, R145): BL and SP of each timing, and the data length, 0 for an illegal
descriptor. -/
def Obligations.DerivedRegistersRead : Prop :=
  ∀ s : State,
    (readReg .nderiv s).toNat =
      (1 + (fieldProp s.nbt).toNat + (fieldPh1 s.nbt).toNat + (fieldPh2 s.nbt).toNat)
        + 2 ^ 16 * (1 + (fieldProp s.nbt).toNat + (fieldPh1 s.nbt).toNat) ∧
    (readReg .dderiv s).toNat =
      (1 + (fieldProp s.dbt).toNat + (fieldPh1 s.dbt).toNat + (fieldPh2 s.dbt).toNat)
        + 2 ^ 16 * (1 + (fieldProp s.dbt).toNat + (fieldPh1 s.dbt).toNat) ∧
    (flagFdf s.flags = true → flagRtr s.flags = true → readReg .datalen s = 0) ∧
    (flagFdf s.flags = true → flagRtr s.flags = false →
      fdLengths[s.dlc.toNat]? = some (readReg .datalen s).toNat) ∧
    (flagFdf s.flags = false → 8 < s.dlc.toNat → readReg .datalen s = 0) ∧
    (flagFdf s.flags = false → s.dlc.toNat ≤ 8 →
      (readReg .datalen s).toNat = if flagRtr s.flags = true then 0 else s.dlc.toNat)

/-- The STATUS register (R39): CODE in [2:0], FATAL in [8], FCAUSE in [14:12], the other bits 0, FCAUSE 0 exactly when
FATAL is 0; the numbers of the result codes (R381) and of the fatal causes (R382). -/
def Obligations.StatusRegisterLayout : Prop :=
  (∀ s : State,
    (readReg .status s).toNat =
      s.code.number + 2 ^ 8 * (if s.fatal.isSome then 1 else 0) + 2 ^ 12 * causeNumber s.fatal ∧
    s.code.number ≤ 4 ∧ causeNumber s.fatal ≤ 4 ∧ (causeNumber s.fatal = 0 ↔ s.fatal = none)) ∧
  (ResultCode.ok.number = 0 ∧ ResultCode.invalidFlagCombination.number = 1 ∧ ResultCode.bitNotFound.number = 2 ∧
    ResultCode.invalidFrame.number = 3 ∧ ResultCode.invalidTiming.number = 4) ∧
  (causeNumber (some .illegalCommand) = 1 ∧ causeNumber (some .indexOutOfRange) = 2 ∧
    causeNumber (some .invalidSlot) = 3 ∧ causeNumber (some .capacityExceeded) = 4)

/-- What reset leaves (R420, with the table of R48): every register reads 0 but NDERIV and DDERIV, which read
0x00010001; every slot is invalid and empty with its copies 0; STATUS is clear. The platform's reset puts every piece of
state there from any state, and nothing else leaves the fatal state. The model's choices in it: reset is an input (logs
1, 6), it leaves the parameters and the inputs to come as they are (logs 1, 4, 6), the ORACLE's initial state is a draw
count of 0 (log 3), and `busData` becomes 0 (logs 2, 6). -/
def Obligations.ResetGivesTheResetValues : Prop :=
  (∀ r : Reg, readReg r State.reset = if r = .nderiv ∨ r = .dderiv then 0x00010001 else 0) ∧
  (∀ ix : SlotIx, (State.reset.slot ix).valid = false ∧ (State.reset.slot ix).bits = [] ∧
    ((State.reset.slot ix).fdf = false ∧ (State.reset.slot ix).ide = false ∧ (State.reset.slot ix).rtr = false ∧
      (State.reset.slot ix).brs = false ∧ (State.reset.slot ix).esi = false ∧ (State.reset.slot ix).id = 0 ∧
      (State.reset.slot ix).dlc = 0) ∧
    ∀ tm, tm = (State.reset.slot ix).nbt ∨ tm = (State.reset.slot ix).dbt →
      tm.brp = 0 ∧ tm.prop = 0 ∧ tm.ph1 = 0 ∧ tm.ph2 = 0 ∧ tm.sjw = 0) ∧
  State.reset.code = .ok ∧ State.reset.fatal = none ∧ State.reset.draws = 0 ∧
  (∀ (s : State) (rest : List HostInput), s.pending = .reset :: rest →
    step s = .next { State.reset with cfg := s.cfg, pending := rest }) ∧
  (∀ (s t : State) (f : FatalCause), s.fatal = some f → step s = .next t → t.fatal = none →
    ∃ rest, s.pending = .reset :: rest)

/-! ## Errors -/

/-- R385: a fatal error sets FATAL and FCAUSE and changes nothing else; while FATAL = 1 a write to CMD stores the word
and executes nothing, writes to the other registers store and reads answer as usual; only reset clears it, and the
first cause is kept. -/
def Obligations.FatalErrorIsPreciseAndSticky : Prop :=
  (∀ (i : Instr) (s t : State) (f : FatalCause), s.fatal = none → exec i s = .next t → t.fatal = some f →
    t = { s with fatal := some f }) ∧
  (∀ (s : State) (f : FatalCause) (rest : List HostInput), s.fatal = some f →
    (∀ w : Word, s.pending = .write 0x000 4 w :: rest → step s = .next { s with pending := rest, cmd := w }) ∧
    (∀ (r : Reg) (v : Word), r ≠ .cmd → s.pending = .write r.offset 4 v :: rest →
      step s = .next (writeReg r v { s with pending := rest })) ∧
    (∀ r : Reg, s.pending = .read r.offset 4 :: rest →
      step s = .next { s with pending := rest, busData := readReg r s })) ∧
  (∀ (s t : State) (f : FatalCause), s.fatal = some f → step s = .next t →
    t.fatal = some f ∨ (t.fatal = none ∧ ∃ rest, s.pending = .reset :: rest))

/-- R386: recoverable codes are not sticky (a command that is not fatal writes CODE: what it leaves does not depend on
the CODE before it), and a fail changes no slot, no descriptor register and not RESULT: only CODE. (The ORACLE's hidden
state moves on where RANDOMIZE has drawn before it fails: log 3.) -/
def Obligations.FailIsPreciseAndCodeIsNotSticky : Prop :=
  ∀ (i : Instr) (s t : State), s.fatal = none → exec i s = .next t → t.fatal = none →
    (∀ c : ResultCode, exec i { s with code := c } = .next t) ∧
    (t.code ≠ .ok → t = { s with code := t.code, draws := t.draws } ∧ (i ≠ .randomize → t.draws = s.draws))

/-- Every command reads only built slots: one that reads a slot never built raises Fatal(INVALID_SLOT), changing nothing
else (R210, R289, R329, R265, R267, R270, R344, R201, R202). -/
def Obligations.UnbuiltSlotRaisesInvalidSlot : Prop :=
  ∀ (i : Instr) (s : State) (ix : SlotIx), i.WellFormed → ix ∈ slotsRead i → (s.slot ix).valid = false →
    exec i s = .next { s with fatal := some .invalidSlot }

/-- The bit selector's errors (R115, R210): an absolute index out of range raises Fatal(INDEX_OUT_OF_RANGE); a typed
selection that matches no bit fails with BIT_NOT_FOUND. -/
def Obligations.SelectorErrors : Prop :=
  ∀ (i : Instr) (s : State) (ix : SlotIx) (sel : BitSel) (allowEnd : Bool),
    selectorOf i = some (ix, sel, allowEnd) → (s.slot ix).valid = true →
    (sel = .index →
      (s.slot ix).bits.length < s.arg0.toNat ∨ (allowEnd = false ∧ s.arg0.toNat = (s.slot ix).bits.length) →
      exec i s = .next { s with fatal := some .indexOutOfRange }) ∧
    (∀ t : FieldTag, sel = .typed t → (s.slot ix).bits.countP (fun b => decide (b.kind = t)) ≤ s.arg0.toNat →
      exec i s = .next { s with code := .bitNotFound })

/-- Capacity (R383, R329): a command that would make a slot longer than CAP_BITS raises Fatal(CAPACITY_EXCEEDED) and
changes nothing else. BUILD does so whatever its destination holds, built or not. -/
def Obligations.CapacityExceededRaisesFatal : Prop :=
  (∀ (s : State) (d : SlotIx), BuildLegal s → s.cfg.capBits < (builtSlot s).bits.length →
    exec (.build d) s = .next { s with fatal := some .capacityExceeded }) ∧
  ∀ (s : State) (ix : SlotIx), (s.slot ix).valid = true →
    (∀ (k : FieldTag) (v : Level), s.cfg.capBits < (s.slot ix).bits.length + 1 →
      exec (.appendBit ix k v) s = .next { s with fatal := some .capacityExceeded } ∧
      (s.arg0.toNat ≤ (s.slot ix).bits.length →
        exec (.insertBit ix k v) s = .next { s with fatal := some .capacityExceeded })) ∧
    (s.cfg.capBits < (s.slot ix).bits.length + 8 →
      exec (.appendSuspend ix) s = .next { s with fatal := some .capacityExceeded }) ∧
    (∀ (sel : BitSel) (p : Nat), SelectsOrEnd (s.slot ix).bits sel s.arg0.toNat p → s.cfg.capBits < p + 14 →
      exec (.insertActiveErrorFrame ix sel) s = .next { s with fatal := some .capacityExceeded } ∧
      exec (.insertPassiveErrorFrame ix sel) s = .next { s with fatal := some .capacityExceeded } ∧
      exec (.insertOverloadFrame ix sel) s = .next { s with fatal := some .capacityExceeded }) ∧
    (∀ jx : SlotIx, (s.slot jx).valid = true →
      s.cfg.capBits < (s.slot ix).bits.length + (s.slot jx).bits.length →
      exec (.appendFrame ix jx) s = .next { s with fatal := some .capacityExceeded }) ∧
    (s.cfg.capBits < (restuff s.cfg (s.slot ix)).length →
      exec (.update ix) s = .next { s with fatal := some .capacityExceeded })

/-! ## Frames -/

/-- What every command leaves unchanged: CMD, ARG0, ARG1 (R39), the timing registers, PIN, the parameters and the inputs
to come; the descriptor and payload registers but for RANDOMIZE (R150); RESULT but for a command that returns a value
(R39); and the ORACLE's state but for a command that draws (R45). -/
def Obligations.CommandsLeaveTheOtherRegisters : Prop :=
  ∀ (i : Instr) (s t : State), exec i s = .next t →
    t.cfg = s.cfg ∧ t.cmd = s.cmd ∧ t.arg0 = s.arg0 ∧ t.arg1 = s.arg1 ∧ t.nbt = s.nbt ∧ t.nsjw = s.nsjw ∧
    t.dbt = s.dbt ∧ t.dsjw = s.dsjw ∧ t.pin = s.pin ∧ t.pending = s.pending ∧ t.busData = s.busData ∧
    (i ≠ .randomize → t.flags = s.flags ∧ t.id = s.id ∧ t.dlc = s.dlc ∧ t.data = s.data) ∧
    (returnsValue i = false → t.result = s.result) ∧ (mayDraw i = false → t.draws = s.draws)

/-- A command changes no slot but its own (R264); a query changes none (R302, which the spec derives); and only BUILD
and CLONE change more of a slot than its bits (R40). -/
def Obligations.CommandsChangeOnlyTheirSlot : Prop :=
  ∀ (i : Instr) (s t : State), exec i s = .next t →
    (∀ ix, targetOf i ≠ some ix → t.slot ix = s.slot ix) ∧
    (∀ ix, (∀ d, i ≠ .build d) → (∀ d c, i ≠ .clone d c) →
      t.slot ix = { s.slot ix with bits := (t.slot ix).bits })

/-! ## Lookup and queries (44_lookup.md) -/

/-- GET_BIT_OF, GET_BIT_OF_NO_STUFF, GET_STUFF_BIT and GET_FIXED_STUFF_BIT answer the position of the n-th (0-based)
matching bit, n being ARG0 (R290 to R293), and change nothing but CODE and RESULT. (A position of 2^32 or more would give
its low bits: the model's choice, log 8.) -/
def Obligations.SearchesAnswerTheNthMatch : Prop :=
  ∀ (s : State) (ix : SlotIx) (i : Nat), (s.slot ix).valid = true →
    (∀ k, IsNth (fun b : FrameBit => b.kind = k) (s.slot ix).bits s.arg0.toNat i →
      exec (.getBitOf ix k) s = .next (answered s (BitVec.ofNat 32 i))) ∧
    (∀ k, IsNth (fun b : FrameBit => b.kind = k ∧ b.stuff = .notStuff) (s.slot ix).bits s.arg0.toNat i →
      exec (.getBitOfNoStuff ix k) s = .next (answered s (BitVec.ofNat 32 i))) ∧
    (∀ kf vf, IsNth (fun b : FrameBit => b.stuff = .normalStuff ∧ (kf = none ∨ kf = some b.kind) ∧
        (vf = none ∨ vf = some b.val)) (s.slot ix).bits s.arg0.toNat i →
      exec (.getStuffBit ix kf vf) s = .next (answered s (BitVec.ofNat 32 i))) ∧
    (∀ v, IsNth (fun b : FrameBit => b.stuff = .fixedStuff ∧ b.val = v) (s.slot ix).bits s.arg0.toNat i →
      exec (.getFixedStuffBit ix v) s = .next (answered s (BitVec.ofNat 32 i)))

/-- A lookup miss fails with BIT_NOT_FOUND and changes nothing else (R289 to R293, R300, R301): there are not more than
n matching bits, or none to draw from. -/
def Obligations.SearchesMissRecoverably : Prop :=
  ∀ (s : State) (ix : SlotIx), (s.slot ix).valid = true →
    (∀ k, (s.slot ix).bits.countP (fun b => decide (b.kind = k)) ≤ s.arg0.toNat →
      exec (.getBitOf ix k) s = .next { s with code := .bitNotFound }) ∧
    (∀ k, (s.slot ix).bits.countP (fun b => decide (b.kind = k ∧ b.stuff = .notStuff)) ≤ s.arg0.toNat →
      exec (.getBitOfNoStuff ix k) s = .next { s with code := .bitNotFound }) ∧
    (∀ kf vf, (s.slot ix).bits.countP (fun b => decide (b.stuff = .normalStuff ∧ (kf = none ∨ kf = some b.kind) ∧
        (vf = none ∨ vf = some b.val))) ≤ s.arg0.toNat →
      exec (.getStuffBit ix kf vf) s = .next { s with code := .bitNotFound }) ∧
    (∀ v, (s.slot ix).bits.countP (fun b => decide (b.stuff = .fixedStuff ∧ b.val = v)) ≤ s.arg0.toNat →
      exec (.getFixedStuffBit ix v) s = .next { s with code := .bitNotFound }) ∧
    (∀ vf : Option Level, (∀ b ∈ (s.slot ix).bits, ¬(vf = none ∨ vf = some b.val)) →
      exec (.getRandomBit ix vf) s = .next { s with code := .bitNotFound }) ∧
    (∀ (k : FieldTag) (vf : Option Level),
      (∀ b ∈ (s.slot ix).bits, ¬(b.kind = k ∧ (vf = none ∨ vf = some b.val))) →
      exec (.getRandomBitOf ix k vf) s = .next { s with code := .bitNotFound })

/-- GET_NUM_STUFF_BITS, GET_FIELD_LENGTH, GET_LENGTH and GET_BIT_INDEX (R294 to R297): the counts never miss; an index
is checked and returned. (A count of 2^32 or more would give its low bits: the model's choice, log 8.) -/
def Obligations.CountsAndLengths : Prop :=
  ∀ (s : State) (ix : SlotIx), (s.slot ix).valid = true →
    (∀ sk vf, sk ≠ .notStuff →
      exec (.getNumStuffBits ix sk vf) s = .next (answered s (BitVec.ofNat 32
        ((s.slot ix).bits.filter fun b => decide (b.stuff = sk ∧ (vf = none ∨ vf = some b.val))).length))) ∧
    (∀ k, exec (.getFieldLength ix k) s = .next (answered s (BitVec.ofNat 32
        ((s.slot ix).bits.filter fun b => decide (b.kind = k)).length))) ∧
    exec (.getLength ix) s = .next (answered s (BitVec.ofNat 32 (s.slot ix).bits.length)) ∧
    (s.arg0.toNat < (s.slot ix).bits.length →
      exec (.getBitIndex ix) s = .next (answered s s.arg0)) ∧
    ((s.slot ix).bits.length ≤ s.arg0.toNat →
      exec (.getBitIndex ix) s = .next { s with fatal := some .indexOutOfRange })

/-- READ_BIT and READ_PHASE_LEN report the selected bit (R298, R299) and change nothing but CODE and RESULT. The spec says
that a number of quanta fits its 16 bits; that 2^16 or more quanta give its low bits is the model's choice (log 8). -/
def Obligations.ReadsReportTheSelectedBit : Prop :=
  ∀ (s : State) (ix : SlotIx) (sel : BitSel) (i : Nat) (b : FrameBit), (s.slot ix).valid = true →
    Selects (s.slot ix).bits sel s.arg0.toNat i → (s.slot ix).bits[i]? = some b →
    (∃ r : Word, exec (.readBit ix sel) s = .next (answered s r) ∧
      r.toNat % 2 ^ 5 = b.kind.code ∧ r.toNat / 2 ^ 5 % 2 = b.val.toBool.toNat ∧ r.toNat / 2 ^ 6 % 4 = b.stuff.code ∧
      r.toNat / 2 ^ 8 % 2 ^ 8 = 0 ∧ r.toNat / 2 ^ 16 = b.tqs.length % 2 ^ 16) ∧
    (∀ ph, ∃ r : Word, exec (.readPhaseLen ix sel ph) s = .next (answered s r) ∧
      r.toNat % 2 ^ 16 = (b.tqs.filter fun q => decide (q.phase = ph)).length % 2 ^ 16 ∧
      r.toNat / 2 ^ 16 % 2 ^ 8 = (b.pbrp.get ph).toNat ∧ r.toNat / 2 ^ 24 = 0)

/-- GET_RANDOM_BIT and GET_RANDOM_BIT_OF answer a matching bit whenever there is one (R300, R301), and change nothing
but CODE, RESULT and the ORACLE's state. (A position of 2^32 or more would give its low bits: the model's choice,
log 8.) -/
def Obligations.RandomSelectionAnswersAMatchingBit : Prop :=
  ∀ (s : State) (ix : SlotIx), (s.slot ix).valid = true →
    (∀ vf : Option Level, (∃ b ∈ (s.slot ix).bits, vf = none ∨ vf = some b.val) →
      ∃ (i d : Nat) (b : FrameBit), (s.slot ix).bits[i]? = some b ∧ (vf = none ∨ vf = some b.val) ∧
        exec (.getRandomBit ix vf) s = .next { s with code := .ok, result := BitVec.ofNat 32 i, draws := d }) ∧
    (∀ (k : FieldTag) (vf : Option Level), (∃ b ∈ (s.slot ix).bits, b.kind = k ∧ (vf = none ∨ vf = some b.val)) →
      ∃ (i d : Nat) (b : FrameBit), (s.slot ix).bits[i]? = some b ∧ b.kind = k ∧ (vf = none ∨ vf = some b.val) ∧
        exec (.getRandomBitOf ix k vf) s = .next { s with code := .ok, result := BitVec.ofNat 32 i, draws := d })

/-- The model admits every element of the draw set (R12, R45, R300, R301): GET_RANDOM_BIT and GET_RANDOM_BIT_OF are
`randomBit` over the bits that match their filters, with the free value `Config.oracle` (log 3); and for each matching
bit some ORACLE makes `randomBit` answer it. (A position of 2^32 or more would give its low bits: the model's choice,
log 8.) -/
def Obligations.EveryMatchingBitMayBeDrawn : Prop :=
  (∀ (s : State) (ix : SlotIx) (vf : Option Level),
    exec (.getRandomBit ix vf) s =
      .next (randomBit Config.oracle ix (fun b => decide (vf = none ∨ vf = some b.val)) s)) ∧
  (∀ (s : State) (ix : SlotIx) (k : FieldTag) (vf : Option Level),
    exec (.getRandomBitOf ix k vf) s =
      .next (randomBit Config.oracle ix (fun b => decide (b.kind = k ∧ (vf = none ∨ vf = some b.val))) s)) ∧
  ∀ (s : State) (ix : SlotIx) (p : FrameBit → Bool) (i : Nat) (b : FrameBit), (s.slot ix).valid = true →
    (s.slot ix).bits[i]? = some b → p b = true →
    ∃ o : Nat → Nat, (randomBit o ix p s).code = .ok ∧ (randomBit o ix p s).result = BitVec.ofNat 32 i

/-- The lookup laws of R302, which the spec derives: GET_BIT_OF succeeds exactly below GET_FIELD_LENGTH;
GET_BIT_OF_NO_STUFF exactly below the number of the tag's NotStuff bits, at a position no smaller than that of GET_BIT_OF;
GET_STUFF_BIT succeeds exactly for the n below the NormalStuff count that GET_NUM_STUFF_BITS answers, so for that many n;
the field lengths over all tags sum to the length. -/
def Obligations.LookupLaws : Prop :=
  ∀ (s t : State) (ix : SlotIx) (k : FieldTag), (s.slot ix).valid = true → exec (.getBitOf ix k) s = .next t →
    (t.code = .ok ↔ s.arg0.toNat < ((s.slot ix).bits.filter fun b => decide (b.kind = k)).length) ∧
    ((List.range 28).map fun c =>
      ((s.slot ix).bits.filter fun b => decide (b.kind.code = c)).length).sum = (s.slot ix).bits.length ∧
    (∀ u, exec (.getBitOfNoStuff ix k) s = .next u →
      (u.code = .ok ↔
        s.arg0.toNat < ((s.slot ix).bits.filter fun b => decide (b.kind = k ∧ b.stuff = .notStuff)).length) ∧
      (u.code = .ok → (s.slot ix).bits.length ≤ 2 ^ 24 → t.result.toNat ≤ u.result.toNat)) ∧
    (∀ (vf : Option Level) (u : State), exec (.getNumStuffBits ix .normalStuff vf) s = .next u →
      (s.slot ix).bits.length ≤ 2 ^ 24 →
      ∀ (n : Word) (v : State), exec (.getStuffBit ix none vf) { s with arg0 := n } = .next v →
        (v.code = .ok ↔ n.toNat < u.result.toNat))

/-- GET_CRC (R270, R258, R257, R244): the CRC of the levels before the first Crc bit of the span, without fixed stuff
bits, and with the dynamic ones only for FD in mode ISO. The CRC is the register of R257 after every level: width,
generator and initial value by the slot's format and DLC, the next bit the level plus the top bit, the generator added
where it is 1. It fits in the width. (R257 takes the generators and initial values from general knowledge.) -/
def Obligations.GetCrcAnswersTheCrcOfTheBits : Prop :=
  ∀ (s : State) (ix : SlotIx) (w poly start : Nat), (s.slot ix).valid = true →
    (((s.slot ix).fdf = false ∧ w = 15 ∧ poly = 0x4599 ∧ start = 0) ∨
      ((s.slot ix).fdf = true ∧ (s.slot ix).dlc.toNat ≤ 10 ∧ w = 17 ∧ poly = 0x1685B ∧ start = 0x10000) ∨
      ((s.slot ix).fdf = true ∧ 10 < (s.slot ix).dlc.toNat ∧ w = 21 ∧ poly = 0x102899 ∧ start = 0x100000)) →
    ∃ c : Nat, exec (.getCrc ix) s = .next (answered s (BitVec.ofNat 32 c)) ∧ c < 2 ^ w ∧
      c = (((((spanOf (s.slot ix).bits).takeWhile fun b => decide (b.kind ≠ .crc)).filter fun b =>
          decide (b.stuff = .notStuff ∨
            (b.stuff = .normalStuff ∧ (s.slot ix).fdf = true ∧ s.cfg.fdCrcMode = .iso)))).map (·.val)).foldl
        (fun c x =>
          if (x.toBool.toNat + c / 2 ^ (w - 1)) % 2 = 1 then (2 * c) % 2 ^ w ^^^ poly else (2 * c) % 2 ^ w) start

/-! ## The quantizer (41_bit_timing.md) -/

/-- QZ_LENGTH (R201, R200): the number of cycles of all quanta of all bits. (2^32 or more would give its low bits: the
model's choice, log 8.) -/
def Obligations.QzLengthCountsTheCycles : Prop :=
  ∀ (s : State) (ix : SlotIx), (s.slot ix).valid = true →
    exec (.qzLength ix) s = .next (answered s (BitVec.ofNat 32
      ((s.slot ix).bits.map fun b => (b.tqs.map fun q => q.cycles.length).sum).sum))

/-- QZ_READ (R202, R200, R43): cycle k of quantum q of bit b, counted in transmission order, is reported with its level
(the override where there is one, else the bit's value), phase, forced flag and bit index. The spec says that the index
fits its 24 bits; that an index of 2^24 or more gives its low bits is the model's choice (log 8). -/
def Obligations.QzReadReportsTheCycle : Prop :=
  ∀ (s : State) (ix : SlotIx) (bPre bPost : List FrameBit) (b : FrameBit) (qPre qPost : List TimeQuantum)
    (q : TimeQuantum) (cPre cPost : List (Option Level)) (c : Option Level), (s.slot ix).valid = true →
    (s.slot ix).bits = bPre ++ b :: bPost → b.tqs = qPre ++ q :: qPost → q.cycles = cPre ++ c :: cPost →
    s.arg0.toNat = (bPre.map fun b => (b.tqs.map fun q => q.cycles.length).sum).sum
      + (qPre.map fun q => q.cycles.length).sum + cPre.length →
    ∃ r : Word, exec (.qzRead ix) s = .next (answered s r) ∧
      r.toNat % 2 = (match c with | some v => v.toBool.toNat | none => b.val.toBool.toNat) ∧
      r.toNat / 2 % 4 = q.phase.code ∧ r.toNat / 2 ^ 3 % 2 = c.isSome.toNat ∧ r.toNat / 2 ^ 4 % 2 ^ 4 = 0 ∧
      r.toNat / 2 ^ 8 = bPre.length % 2 ^ 24

/-- QZ_READ beyond the readout raises Fatal(INDEX_OUT_OF_RANGE) (R202). -/
def Obligations.QzReadBeyondTheReadoutIsFatal : Prop :=
  ∀ (s : State) (ix : SlotIx), (s.slot ix).valid = true →
    ((s.slot ix).bits.map fun b => (b.tqs.map fun q => q.cycles.length).sum).sum ≤ s.arg0.toNat →
    exec (.qzRead ix) s = .next { s with fatal := some .indexOutOfRange }

/-! ## Bit and time-quantum commands (42_bit_ops.md) -/

/-- FLIP_BIT, SET_BIT_VALUE and SET_STUFF_KIND change the value, or the classification, of the selected bit and nothing
else but CODE (R220 to R222): its quanta and overrides stay. -/
def Obligations.ValueAndLabelEdits : Prop :=
  ∀ (s : State) (ix : SlotIx) (sel : BitSel) (i : Nat) (b : FrameBit), (s.slot ix).valid = true →
    Selects (s.slot ix).bits sel s.arg0.toNat i → (s.slot ix).bits[i]? = some b →
    exec (.flipBit ix sel) s = .next (edited s ix ((s.slot ix).bits.set i
      { b with val := if b.val = .dominant then .recessive else .dominant })) ∧
    (∀ v, exec (.setBitValue ix sel v) s = .next (edited s ix ((s.slot ix).bits.set i { b with val := v }))) ∧
    (∀ k, exec (.setStuffKind ix sel k) s = .next (edited s ix ((s.slot ix).bits.set i { b with stuff := k })))

/-- FLIP_BIT twice is the identity but for CODE (R226, which the spec derives). -/
def Obligations.FlipTwiceIsTheIdentity : Prop :=
  ∀ (s t u : State) (ix : SlotIx) (sel : BitSel), exec (.flipBit ix sel) s = .next t → t.code = .ok → t.fatal = none →
    exec (.flipBit ix sel) t = .next u → u = { s with code := .ok }

/-- SHORTEN_PHASE (R223): the last min(n, length) quanta of the phase go, every other quantum stays in order, and RESULT
is the residual; nothing else of the bit or of the machine changes but CODE. -/
def Obligations.ShortenPhaseRemovesTheLastQuanta : Prop :=
  ∀ (s : State) (ix : SlotIx) (sel : BitSel) (ph : Phase) (i : Nat) (b : FrameBit), (s.slot ix).valid = true →
    Selects (s.slot ix).bits sel s.arg0.toNat i → (s.slot ix).bits[i]? = some b →
    ∃ tqs : List TimeQuantum,
      exec (.shortenPhase ix sel ph) s = .next (answered (edited s ix ((s.slot ix).bits.set i { b with tqs := tqs }))
        (BitVec.ofNat 32
          (s.arg1.toNat - min s.arg1.toNat (b.tqs.filter fun q => decide (q.phase = ph)).length))) ∧
      (tqs.filter fun q => decide (q.phase = ph)) = (b.tqs.filter fun q => decide (q.phase = ph)).take
        ((b.tqs.filter fun q => decide (q.phase = ph)).length - s.arg1.toNat) ∧
      (tqs.filter fun q => decide (q.phase ≠ ph)) = (b.tqs.filter fun q => decide (q.phase ≠ ph)) ∧
      tqs.Sublist b.tqs

/-- LENGTHEN_PHASE (R224), on a bit whose quanta stand in phase order (R41): n fresh quanta of the bit's own prescaler
for that phase come after the phase's last quantum, every other quantum stays, and the order is kept; beyond CAP_TQ
quanta it raises Fatal(CAPACITY_EXCEEDED). -/
def Obligations.LengthenPhaseAddsFreshQuanta : Prop :=
  ∀ (s : State) (ix : SlotIx) (sel : BitSel) (ph : Phase) (i : Nat) (b : FrameBit), (s.slot ix).valid = true →
    Selects (s.slot ix).bits sel s.arg0.toNat i → (s.slot ix).bits[i]? = some b →
    (s.cfg.capTq < b.tqs.length + s.arg1.toNat →
      exec (.lengthenPhase ix sel ph) s = .next { s with fatal := some .capacityExceeded }) ∧
    (b.tqs.length + s.arg1.toNat ≤ s.cfg.capTq → PhaseOrdered b.tqs →
      ∃ tqs : List TimeQuantum,
        exec (.lengthenPhase ix sel ph) s = .next (edited s ix ((s.slot ix).bits.set i { b with tqs := tqs })) ∧
        (tqs.filter fun q => decide (q.phase = ph)) = (b.tqs.filter fun q => decide (q.phase = ph)) ++
          List.replicate s.arg1.toNat { phase := ph, cycles := List.replicate (b.pbrp.get ph).toNat none } ∧
        (tqs.filter fun q => decide (q.phase ≠ ph)) = (b.tqs.filter fun q => decide (q.phase ≠ ph)) ∧
        PhaseOrdered tqs)

/-- SHORTEN_PHASE by n then LENGTHEN_PHASE by n - residual, on the bit the same selector names, restores the number of
quanta of every phase of the bit and leaves every other bit (R226, which the spec derives: the number, not removed
overrides). -/
def Obligations.ShortenThenLengthenRestoresTheCounts : Prop :=
  ∀ (s t u : State) (ix : SlotIx) (sel : BitSel) (ph : Phase) (i : Nat) (b : FrameBit), s.fatal = none →
    (s.slot ix).valid = true → Selects (s.slot ix).bits sel s.arg0.toNat i → (s.slot ix).bits[i]? = some b →
    b.tqs.length ≤ s.cfg.capTq → exec (.shortenPhase ix sel ph) s = .next t →
    exec (.lengthenPhase ix sel ph) { t with arg1 := s.arg1 - t.result } = .next u →
    u.code = .ok ∧ u.fatal = none ∧
      (∃ c : FrameBit, (u.slot ix).bits[i]? = some c ∧
        ∀ p : Phase, (c.tqs.filter fun q => decide (q.phase = p)).length
          = (b.tqs.filter fun q => decide (q.phase = p)).length) ∧
      ∀ j, j ≠ i → (u.slot ix).bits[j]? = (s.slot ix).bits[j]?

/-- FORCE_TQ (R225): every cycle of the t-th quantum of the bit, or of a phase, gets the override; nothing else changes
but CODE. A quantum index beyond the bit or the phase raises Fatal(INDEX_OUT_OF_RANGE). -/
def Obligations.ForceTqOverridesOneQuantum : Prop :=
  ∀ (s : State) (ix : SlotIx) (sel : BitSel) (v : Level) (i : Nat) (b : FrameBit), (s.slot ix).valid = true →
    Selects (s.slot ix).bits sel s.arg0.toNat i → (s.slot ix).bits[i]? = some b →
    (∀ (pf : Option Phase) (j : Nat) (q : TimeQuantum), b.tqs[j]? = some q →
      ((pf = none ∧ j = s.arg1.toNat) ∨
        ∃ p, pf = some p ∧ IsNth (fun q : TimeQuantum => q.phase = p) b.tqs s.arg1.toNat j) →
      exec (.forceTq ix sel pf v) s = .next (edited s ix ((s.slot ix).bits.set i
        { b with tqs := b.tqs.set j { q with cycles := List.replicate q.cycles.length (some v) } }))) ∧
    (b.tqs.length ≤ s.arg1.toNat →
      exec (.forceTq ix sel none v) s = .next { s with fatal := some .indexOutOfRange }) ∧
    (∀ p : Phase, (b.tqs.filter fun q => decide (q.phase = p)).length ≤ s.arg1.toNat →
      exec (.forceTq ix sel (some p) v) s = .next { s with fatal := some .indexOutOfRange })

/-! ## Surgery (45_surgery.md) -/

/-- INSERT_BIT, APPEND_BIT and APPEND_SUSPEND (R330, R333, R338): new NotStuff bits, made by NewBit in the slot (R172), at
the position or at the end, the others in order; nothing else changes but CODE. APPEND_BIT and APPEND_SUSPEND do so
whatever ARG0 holds; an INSERT_BIT position beyond the end raises Fatal(INDEX_OUT_OF_RANGE). -/
def Obligations.InsertAndAppendBits : Prop :=
  ∀ (s : State) (ix : SlotIx), (s.slot ix).valid = true →
    (∀ (k : FieldTag) (v : Level) (pre post : List FrameBit), (s.slot ix).bits = pre ++ post →
      s.arg0.toNat = pre.length → pre.length + post.length + 1 ≤ s.cfg.capBits →
      exec (.insertBit ix k v) s = .next (edited s ix (pre ++ newBit (s.slot ix) k v .notStuff :: post))) ∧
    (∀ (k : FieldTag) (v : Level), (s.slot ix).bits.length < s.arg0.toNat →
      exec (.insertBit ix k v) s = .next { s with fatal := some .indexOutOfRange }) ∧
    (∀ (k : FieldTag) (v : Level), (s.slot ix).bits.length + 1 ≤ s.cfg.capBits →
      exec (.appendBit ix k v) s =
        .next (edited s ix ((s.slot ix).bits ++ [newBit (s.slot ix) k v .notStuff]))) ∧
    ((s.slot ix).bits.length + 8 ≤ s.cfg.capBits →
      ∀ b, b = newBit (s.slot ix) .suspend .recessive .notStuff →
        exec (.appendSuspend ix) s = .next (edited s ix ((s.slot ix).bits ++ [b, b, b, b, b, b, b, b])))

/-- REMOVE_BIT, REMOVE_BITS_FROM and LOSE_ARBITRATION (R331, R332, R342): the selected bit goes, or every bit from the
position on, or every bit after the selected one, which is kept as it is; nothing else changes but CODE. -/
def Obligations.RemoveBits : Prop :=
  ∀ (s : State) (ix : SlotIx) (sel : BitSel), (s.slot ix).valid = true →
    (∀ (pre post : List FrameBit) (b : FrameBit), (s.slot ix).bits = pre ++ b :: post →
      Selects (s.slot ix).bits sel s.arg0.toNat pre.length →
      exec (.removeBit ix sel) s = .next (edited s ix (pre ++ post)) ∧
      exec (.loseArbitration ix sel) s = .next (edited s ix (pre ++ [b]))) ∧
    (∀ pre post : List FrameBit, (s.slot ix).bits = pre ++ post →
      SelectsOrEnd (s.slot ix).bits sel s.arg0.toNat pre.length →
      exec (.removeBitsFrom ix sel) s = .next (edited s ix pre))

/-- The three inserts (R334 to R337, and R345 (a), derived): the bits from the position on are replaced by 6 flag bits,
dominant for active and overload, recessive for passive, and 8 recessive delimiter bits, all NotStuff and made by NewBit
in the slot (R172); nothing follows, and nothing else changes but CODE. -/
def Obligations.ErrorAndOverloadFrameShape : Prop :=
  ∀ (s : State) (ix : SlotIx) (sel : BitSel) (pre post : List FrameBit) (fa fp fo de dov : FrameBit),
    (s.slot ix).valid = true →
    (s.slot ix).bits = pre ++ post → SelectsOrEnd (s.slot ix).bits sel s.arg0.toNat pre.length →
    pre.length + 14 ≤ s.cfg.capBits →
    fa = newBit (s.slot ix) .activeErrorFlag .dominant .notStuff →
    fp = newBit (s.slot ix) .passiveErrorFlag .recessive .notStuff →
    fo = newBit (s.slot ix) .overloadFlag .dominant .notStuff →
    de = newBit (s.slot ix) .errorDelimiter .recessive .notStuff →
    dov = newBit (s.slot ix) .overloadDelimiter .recessive .notStuff →
    exec (.insertActiveErrorFrame ix sel) s =
      .next (edited s ix (pre ++ [fa, fa, fa, fa, fa, fa] ++ [de, de, de, de, de, de, de, de])) ∧
    exec (.insertPassiveErrorFrame ix sel) s =
      .next (edited s ix (pre ++ [fp, fp, fp, fp, fp, fp] ++ [de, de, de, de, de, de, de, de])) ∧
    exec (.insertOverloadFrame ix sel) s =
      .next (edited s ix (pre ++ [fo, fo, fo, fo, fo, fo] ++ [dov, dov, dov, dov, dov, dov, dov, dov]))

/-- TURN_RECEIVED (R340, whose receiver's view the spec takes from general knowledge): every bit becomes recessive but
the Ack bits, which become dominant; tags, labels, quanta and overrides stay; applying it twice is the same as once. -/
def Obligations.TurnReceivedGivesTheReceiversView : Prop :=
  ∀ (s : State) (ix : SlotIx), (s.slot ix).valid = true →
    ∃ t, exec (.turnReceived ix) s = .next t ∧ exec (.turnReceived ix) t = .next t ∧
      t = edited s ix (t.slot ix).bits ∧
      (t.slot ix).bits.length = (s.slot ix).bits.length ∧
      ∀ (i : Nat) (b : FrameBit), (s.slot ix).bits[i]? = some b →
        (t.slot ix).bits[i]? = some { b with val := if b.kind = .ack then .dominant else .recessive }

/-- CLONE and APPEND_FRAME (R267, R344): a deep copy of the whole source slot, which need not be another one; or the
source's bits after the destination's own. Nothing else changes but CODE. -/
def Obligations.CloneAndAppendFrame : Prop :=
  ∀ (s : State) (dst src : SlotIx), (s.slot src).valid = true →
    exec (.clone dst src) s = .next { s.setSlot dst (s.slot src) with code := .ok } ∧
    ((s.slot dst).valid = true → (s.slot dst).bits.length + (s.slot src).bits.length ≤ s.cfg.capBits →
      exec (.appendFrame dst src) s = .next (edited s dst ((s.slot dst).bits ++ (s.slot src).bits)))

/-- R345 (b), which the spec derives: after LOSE_ARBITRATION at p and APPEND_FRAME of another slot, the slot holds its
first p + 1 bits and then the other slot's bits. -/
def Obligations.ArbitrationLossThenTheWinner : Prop :=
  ∀ (s t u : State) (ix jx : SlotIx), ix ≠ jx → (s.slot jx).valid = true → (s.slot ix).valid = true →
    s.arg0.toNat < (s.slot ix).bits.length →
    s.arg0.toNat + 1 + (s.slot jx).bits.length ≤ s.cfg.capBits →
    exec (.loseArbitration ix .index) s = .next t → exec (.appendFrame ix jx) t = .next u →
    u.code = .ok ∧ u.fatal = s.fatal ∧
      (u.slot ix).bits = (s.slot ix).bits.take (s.arg0.toNat + 1) ++ (s.slot jx).bits

/-! ## Construction (43_bitframe_build.md) and bit creation (41_bit_timing.md) -/

/-- NewBit (R172) in the rate domains of R171, and the timing-sum law (R174, derived): without bit-rate shift every phase
has the nominal timing; with it the BRS bit changes to the data timing, and the CRC delimiter back from it, at Phase2 (a
point R171 takes from general knowledge), a stuff bit tagged Brs and the tags between have the data timing, the others
the nominal one. Each phase has its timing's number of quanta, Sync one, each as long as the timing's prescaler, without
an override, in phase order. -/
def Obligations.NewBitTimingSum : Prop :=
  ∀ (sl : Slot) (k : FieldTag) (v : Level) (st : StuffKind),
    let b := newBit sl k v st
    (b.kind = k ∧ b.val = v ∧ b.stuff = st) ∧ PhaseOrdered b.tqs ∧
    (∀ q ∈ b.tqs, q.cycles = List.replicate (b.pbrp.get q.phase).toNat none) ∧
    (∀ (ph : Phase) (tm : BitTiming),
      tm = (if sl.fdf = true ∧ sl.brs = true ∧
          ((k = .brs ∧ (st ≠ .notStuff ∨ ph = .phase2)) ∨ (k = .crcDelimiter ∧ ph ≠ .phase2) ∨
            k = .esi ∨ k = .dlc ∨ k = .data ∨ k = .stuffCount ∨ k = .stuffParity ∨ k = .crc)
        then sl.dbt else sl.nbt) →
      b.pbrp.get ph = tm.brp ∧
      (b.tqs.filter fun q => decide (q.phase = ph)).length =
        match ph with
        | .sync => 1
        | .prop => tm.prop.toNat
        | .phase1 => tm.ph1.toNat
        | .phase2 => tm.ph2.toNat) ∧
    (¬(sl.fdf = true ∧ sl.brs = true) → b.tqs.length = bitLength sl.nbt) ∧
    (sl.fdf = true → sl.brs = true →
      b.tqs.length =
        if k = .brs ∧ st = .notStuff then 1 + sl.nbt.prop.toNat + sl.nbt.ph1.toNat + sl.dbt.ph2.toNat
        else if k = .crcDelimiter then 1 + sl.dbt.prop.toNat + sl.dbt.ph1.toNat + sl.nbt.ph2.toNat
        else if 9 ≤ k.code ∧ k.code ≤ 15 then bitLength sl.dbt
        else bitLength sl.nbt)

/-- R262, after the descriptor check of R141: BUILD's checks in their order, each failing with its code and changing
nothing else: the flag combination, the identifier, the DLC, the nominal timing, and the data timing where the frame is
FD with bit-rate shift. A timing that passes is the one the slot copies. -/
def Obligations.BuildChecksInOrder : Prop :=
  ∀ (s : State) (d : SlotIx),
    (flagFdf s.flags = true → flagRtr s.flags = true →
      exec (.build d) s = .next { s with code := .invalidFlagCombination }) ∧
    (¬(flagFdf s.flags = true ∧ flagRtr s.flags = true) →
      ((flagIde s.flags = false ∧ 0x7FF < s.id.toNat) ∨ (flagFdf s.flags = false ∧ 8 < s.dlc.toNat)) →
      exec (.build d) s = .next { s with code := .invalidFrame }) ∧
    (¬(flagFdf s.flags = true ∧ flagRtr s.flags = true) → (flagIde s.flags = false → s.id.toNat ≤ 0x7FF) →
      (flagFdf s.flags = false → s.dlc.toNat ≤ 8) →
      ((fieldBrp s.nbt).toNat = 0 ∨ (fieldPh2 s.nbt).toNat < s.nsjw.toNat ∨
        (flagFdf s.flags = true ∧ flagBrs s.flags = true ∧
          ((fieldBrp s.dbt).toNat = 0 ∨ (fieldPh2 s.dbt).toNat < s.dsjw.toNat))) →
      exec (.build d) s = .next { s with code := .invalidTiming }) ∧
    (s.fatal = none → BuildLegal s →
      ∃ t, exec (.build d) s = .next t ∧ (t.fatal = none →
        t.code = .ok ∧ (t.slot d).nbt = timingOf s.nbt s.nsjw ∧ (t.slot d).dbt = timingOf s.dbt s.dsjw))

/-- BUILD completes whenever the registers pass its checks and CAP_BITS is at least 800 (R263, R383): the slot becomes
valid with the copies of R263 and R143, its logical bits carry the tags of the table of R241, in order, and every bit,
logical or stuff, is one that NewBit makes in that slot (R172). Nothing else changes but CODE. -/
def Obligations.BuildCompletesOnLegalRegisters : Prop :=
  ∀ (s : State) (d : SlotIx), BuildLegal s → 800 ≤ s.cfg.capBits →
    ∃ (bits : List FrameBit) (sl : Slot),
      sl =
        { valid := true
          bits := bits
          fdf := flagFdf s.flags
          ide := flagIde s.flags
          rtr := flagRtr s.flags
          brs := flagFdf s.flags && flagBrs s.flags
          esi := flagFdf s.flags && flagEsi s.flags
          id := s.id
          dlc := s.dlc
          nbt := timingOf s.nbt s.nsjw
          dbt := timingOf s.dbt s.dsjw } ∧
      exec (.build d) s = .next (succeed (s.setSlot d sl)) ∧
      bits.length ≤ 800 ∧ (∀ b ∈ bits, b = newBit sl b.kind b.val b.stuff) ∧
      ((bits.filter fun b => decide (b.stuff = .notStuff)).map (·.kind)) =
        frameTags (flagFdf s.flags) (flagIde s.flags) (flagRtr s.flags) (fdLengths[s.dlc.toNat]?.getD 0)
          (if flagFdf s.flags then (if s.dlc.toNat ≤ 10 then 17 else 21) else 15)

/-- The field values of a built frame (R241 to R243), each read most significant bit first from its logical bits: the
identifier, the flags, the DLC, the payload with byte 0 first, and the fixed bits (whose levels R242 takes from
general knowledge). -/
def Obligations.BuiltFrameCarriesItsFields : Prop :=
  ∀ (s t : State) (d : SlotIx), BuildLegal s → exec (.build d) s = .next t → t.fatal = none →
    let bits := (t.slot d).bits
    fieldValue bits .sof = 0 ∧
    fieldValue bits .baseIdentifier = (if flagIde s.flags then s.id.toNat / 2 ^ 18 else s.id.toNat) ∧
    fieldValue bits .identifierExtension = (if flagIde s.flags then s.id.toNat % 2 ^ 18 else 0) ∧
    fieldValue bits .srr = (flagIde s.flags).toNat ∧ fieldValue bits .ide = (flagIde s.flags).toNat ∧
    fieldValue bits .rtr = (if flagFdf s.flags then 0 else (flagRtr s.flags).toNat) ∧
    fieldValue bits .r0 = 0 ∧ fieldValue bits .r1 = 0 ∧ fieldValue bits .edl = (flagFdf s.flags).toNat ∧
    fieldValue bits .brs = (flagFdf s.flags && flagBrs s.flags).toNat ∧
    fieldValue bits .esi = (flagFdf s.flags && flagEsi s.flags).toNat ∧
    fieldValue bits .dlc = s.dlc.toNat ∧
    fieldValue bits .data = (if flagRtr s.flags then 0 else
      (List.range (fdLengths[s.dlc.toNat]?.getD 0)).foldl (fun n j => 2 ^ 8 * n + (s.byte j).toNat) 0) ∧
    fieldValue bits .crcDelimiter = 1 ∧ fieldValue bits .ack = 1 ∧ fieldValue bits .ackDelimiter = 1 ∧
    fieldValue bits .eof = 127 ∧ fieldValue bits .intermission = 7

/-- The field lengths of a built FD frame (R278, which the spec derives): StuffCount 4, StuffParity 1, Crc 22 for DLC
up to 10 and 27 above. -/
def Obligations.FdFieldLengthsAfterBuild : Prop :=
  ∀ (s t : State) (d : SlotIx), flagFdf s.flags = true → s.fatal = none → exec (.build d) s = .next t → t.code = .ok →
    t.fatal = none →
    ((t.slot d).bits.filter fun b => decide (b.kind = .stuffCount)).length = 4 ∧
    ((t.slot d).bits.filter fun b => decide (b.kind = .stuffParity)).length = 1 ∧
    ((t.slot d).bits.filter fun b => decide (b.kind = .crc)).length = if s.dlc.toNat ≤ 10 then 22 else 27

/-- UPDATE (R265, R261, R251): where the new sequence fits, the command completes; the tail stays as it is; the logical
bits of the span stay in order with their tags, and those outside the stuff count, parity and CRC fields stay whole
(value, quanta, overrides); every stuff bit of the span is one that NewBit makes in the slot (R172), without the overrides
of the one it replaces. Nothing else changes but CODE. -/
def Obligations.UpdateKeepsTheLogicalBits : Prop :=
  ∀ (s : State) (ix : SlotIx), (s.slot ix).valid = true → (restuff s.cfg (s.slot ix)).length ≤ s.cfg.capBits →
    ∃ bits : List FrameBit,
      exec (.update ix) s = .next (edited s ix bits) ∧
      tailOf bits = tailOf (s.slot ix).bits ∧
      (∀ b ∈ spanOf bits, b.stuff ≠ .notStuff → b = newBit (s.slot ix) b.kind b.val b.stuff) ∧
      ((spanOf bits).filter fun b => decide (b.stuff = .notStuff)).map (fun b => (b.kind, b.pbrp, b.tqs)) =
        ((spanOf (s.slot ix).bits).filter fun b => decide (b.stuff = .notStuff)).map
          (fun b => (b.kind, b.pbrp, b.tqs)) ∧
      ((spanOf bits).filter fun b =>
          decide (b.stuff = .notStuff ∧ b.kind ≠ .stuffCount ∧ b.kind ≠ .stuffParity ∧ b.kind ≠ .crc)) =
        ((spanOf (s.slot ix).bits).filter fun b =>
          decide (b.stuff = .notStuff ∧ b.kind ≠ .stuffCount ∧ b.kind ≠ .stuffParity ∧ b.kind ≠ .crc))

/-- The stuffing invariant (R275, which the spec derives) holds right after a BUILD and right after an UPDATE,
whatever was edited before. -/
def Obligations.StuffingInvariantAfterBuildAndUpdate : Prop :=
  ∀ (s t : State) (ix : SlotIx), s.fatal = none → t.fatal = none →
    (exec (.build ix) s = .next t → t.code = .ok → Stuffed (t.slot ix)) ∧
    (exec (.update ix) s = .next t → Stuffed (t.slot ix))

/-- The stuffing rule (R252 to R255, R261) right after a BUILD and right after an UPDATE, whatever was edited before. In
the dynamic part, the whole span of a Classical slot and the bits before the fixed region of an FD one, every five equal
bits, stuff bits counted, are followed by the dynamic stuff bit: NewBit of the complement, with the tag of the bit just
before it; no other stuff bit stands there. Five equal bits that end the dynamic part get it too, but in an FD slot with
a fixed region where FD_BOUNDARY_STUFF is FIXED_ONLY, which has none there. A fixed stuff bit has the tag of the bit just
after it. (The spec takes from general knowledge that a stuff bit starts the next run, that a run at the end of the
Classical CRC is stuffed, and the FIXED_ONLY rule.) -/
def Obligations.StuffBitsFollowTheRule : Prop :=
  ∀ (s t : State) (ix : SlotIx), s.fatal = none → t.fatal = none →
    (exec (.build ix) s = .next t → t.code = .ok →
      EveryFiveIsStuffed s.cfg (t.slot ix) ∧ OnlyFiveAreStuffed s.cfg (t.slot ix) ∧
        FixedTagsFollow (spanOf (t.slot ix).bits)) ∧
    (exec (.update ix) s = .next t →
      EveryFiveIsStuffed s.cfg (t.slot ix) ∧ OnlyFiveAreStuffed s.cfg (t.slot ix) ∧
        FixedTagsFollow (spanOf (t.slot ix).bits))

/-- Idempotence (R277, which the spec derives): UPDATE twice leaves what UPDATE once leaves, and UPDATE right after
BUILD changes nothing. -/
def Obligations.UpdateIsIdempotent : Prop :=
  ∀ (s t : State) (ix : SlotIx), s.fatal = none → t.fatal = none →
    (exec (.update ix) s = .next t → exec (.update ix) t = .next t) ∧
    (exec (.build ix) s = .next t → t.code = .ok → exec (.update ix) t = .next t)

/-- The CRC round trip (R276, which the spec derives): right after BUILD, GET_CRC returns the number that the logical Crc
bits of the frame spell, and the stuff count of an FD frame spells the Gray code of the number of dynamic stuff bits
modulo 8, with even parity (R256). The same holds right after an UPDATE for each of these fields of which the span holds
as many logical bits as the field has; and whatever number it holds, UPDATE writes the field as R259 says: the k-th
logical bit gets bit w-1-k of the w-bit number, those from the w-th on keep their value. In a Classical slot UPDATE
writes the CRC alone (R261). -/
def Obligations.CrcRoundTripAfterBuildAndUpdate : Prop :=
  ∀ (s t u : State) (ix : SlotIx), s.fatal = none → t.fatal = none → exec (.getCrc ix) t = .next u →
    (exec (.build ix) s = .next t → t.code = .ok →
      u.result.toNat = fieldValue (t.slot ix).bits .crc ∧
      (flagFdf s.flags = true →
        let n := ((t.slot ix).bits.filter fun b => decide (b.stuff = .normalStuff)).length % 8
        fieldValue (t.slot ix).bits .stuffCount = n ^^^ (n / 2) ∧
        fieldValue (t.slot ix).bits .stuffParity = n % 2)) ∧
    (exec (.update ix) s = .next t →
      let span := spanOf (t.slot ix).bits
      let logical := fun k : FieldTag => (span.filter fun b => decide (b.kind = k ∧ b.stuff = .notStuff)).length
      let n := (span.filter fun b => decide (b.stuff = .normalStuff)).length % 8
      (logical .crc = (t.slot ix).crcKind.width → u.result.toNat = fieldValue span .crc) ∧
      ((t.slot ix).fdf = true → logical .stuffCount = 3 → fieldValue span .stuffCount = n ^^^ (n / 2)) ∧
      ((t.slot ix).fdf = true → logical .stuffParity = 1 → fieldValue span .stuffParity = n % 2) ∧
      FieldWritten .crc (t.slot ix).crcKind.width u.result.toNat (spanOf (s.slot ix).bits) span ∧
      ((t.slot ix).fdf = true →
        FieldWritten .stuffCount 3 (n ^^^ (n / 2)) (spanOf (s.slot ix).bits) span ∧
        FieldWritten .stuffParity 1 (n % 2) (spanOf (s.slot ix).bits) span) ∧
      ((t.slot ix).fdf = false →
        fieldBits span .stuffCount = fieldBits (spanOf (s.slot ix).bits) .stuffCount ∧
        fieldBits span .stuffParity = fieldBits (spanOf (s.slot ix).bits) .stuffParity))

/-! ## RANDOMIZE (40_frame_descriptor.md) -/

/-- RANDOMIZE (R150): with pins that no draw can make illegal it completes; the descriptor is then legal, every pinned
field keeps its value, payload bytes at or above the data length keep theirs, and nothing else changes but CODE and the
ORACLE's state. -/
def Obligations.RandomizeGivesALegalDescriptor : Prop :=
  ∀ s : State,
    ¬(s.pin.getLsbD 0 = true ∧ s.pin.getLsbD 2 = true ∧ flagFdf s.flags = true ∧ flagRtr s.flags = true) →
    (s.pin.getLsbD 5 = true → s.id.toNat ≤ 0x7FF ∨ (s.pin.getLsbD 1 = true ∧ flagIde s.flags = true)) →
    (s.pin.getLsbD 6 = true → s.dlc.toNat ≤ 8 ∨ (s.pin.getLsbD 0 = true ∧ flagFdf s.flags = true)) →
    ∃ (flags : BitVec 5) (id : BitVec 29) (dlc : BitVec 4) (data : Vector Byte 64) (draws : Nat),
      exec .randomize s =
        .next { s with code := .ok, flags := flags, id := id, dlc := dlc, data := data, draws := draws } ∧
      ¬(flagFdf flags = true ∧ flagRtr flags = true) ∧ (flagIde flags = false → id.toNat ≤ 0x7FF) ∧
      (flagFdf flags = false → dlc.toNat ≤ 8) ∧
      (∀ k, k < 5 → s.pin.getLsbD k = true → flags.getLsbD k = s.flags.getLsbD k) ∧
      (s.pin.getLsbD 5 = true → id = s.id) ∧ (s.pin.getLsbD 6 = true → dlc = s.dlc) ∧
      (∀ j : Fin 64, s.pin.getLsbD 7 = true ∨ flagRtr flags = true ∨ fdLengths[dlc.toNat]?.getD 0 ≤ j.val →
        data[j] = s.data[j])

/-- RANDOMIZE's failures (R150, R142): with FDF = 1 and RTR = 1 both pinned it fails with INVALID_FLAG_COMBINATION and
changes nothing else; otherwise, where a pinned identifier is above 0x7FF with IDE pinned 0, or a pinned DLC is above 8
with FDF pinned 0 or RTR pinned 1 (which leaves Classical frames only), it fails with INVALID_FRAME, whatever is drawn,
and only CODE and the ORACLE's state change (log 3). -/
def Obligations.RandomizeFailures : Prop :=
  ∀ s : State,
    (s.pin.getLsbD 0 = true → s.pin.getLsbD 2 = true → flagFdf s.flags = true → flagRtr s.flags = true →
      exec .randomize s = .next { s with code := .invalidFlagCombination }) ∧
    (¬(s.pin.getLsbD 0 = true ∧ s.pin.getLsbD 2 = true ∧ flagFdf s.flags = true ∧ flagRtr s.flags = true) →
      ((s.pin.getLsbD 5 = true ∧ 0x7FF < s.id.toNat ∧ s.pin.getLsbD 1 = true ∧ flagIde s.flags = false) ∨
        (s.pin.getLsbD 6 = true ∧ 8 < s.dlc.toNat ∧
          ((s.pin.getLsbD 0 = true ∧ flagFdf s.flags = false) ∨
            (s.pin.getLsbD 2 = true ∧ flagRtr s.flags = true)))) →
      ∃ d, exec .randomize s = .next { s with code := .invalidFrame, draws := d })

/-- Every legal descriptor that agrees with the pins may be drawn (R151): for each there is an ORACLE that answers it,
with any payload. RANDOMIZE is this operation with the free value `Config.oracle` (log 3). -/
def Obligations.EveryLegalDescriptorMayBeDrawn : Prop :=
  (∀ s : State, exec .randomize s = .next (randomizeWith Config.oracle s)) ∧
  ∀ (s : State) (flags : BitVec 5) (id : BitVec 29) (dlc : BitVec 4) (bytes : Nat → Byte),
    ¬(flagFdf flags = true ∧ flagRtr flags = true) → (flagIde flags = false → id.toNat ≤ 0x7FF) →
    (flagFdf flags = false → dlc.toNat ≤ 8) →
    (∀ k, k < 5 → s.pin.getLsbD k = true → flags.getLsbD k = s.flags.getLsbD k) →
    (s.pin.getLsbD 5 = true → id = s.id) → (s.pin.getLsbD 6 = true → dlc = s.dlc) →
    ∃ o : Nat → Nat,
      (randomizeWith o s).code = .ok ∧ (randomizeWith o s).flags = flags ∧ (randomizeWith o s).id = id ∧
      (randomizeWith o s).dlc = dlc ∧
      (s.pin.getLsbD 7 = false → flagRtr flags = false → ∀ j, j < fdLengths[dlc.toNat]?.getD 0 →
        (randomizeWith o s).byte j = bytes j)

/-! ## Invariants -/

/-- R47, which the spec derives, with what it rests on (R40 to R42): every step keeps the invariant of the slots, from
every state that has it. -/
def Obligations.StepKeepsTheSlotInvariant : Prop :=
  ∀ s t : State, StateOk s → step s = .next t → StateOk t

/-- The invariant holds after reset (R48). -/
def Obligations.ResetHasTheSlotInvariant : Prop := StateOk State.reset

/-- A run whose inputs all have a step never stops: no command, legal or not, ends in a fault or a refusal (R91,
R388). -/
def Obligations.SafeInputsNeverStop : Prop :=
  ∀ s : State, SafeInputs s → ∃ t, step s = .next t ∧ SafeInputs t
end

