-- ==== Sys2Proof/Laws/Encoding.lean ====
section
/-! SUPPORT. The command word: each enumeration's code reads back, the word of fields as a sum, the fields of a word as
quotients and remainders, and cutting a packed word into its fields again. -/

namespace Sys2Proof

@[simp] theorem FieldTag.ofCode_code (t : FieldTag) : FieldTag.ofCode t.code = some t := by cases t <;> rfl

@[simp] theorem FieldTag.ofCode_tagField (t : FieldTag) : FieldTag.ofCode (tagField t).toNat = some t := by
  cases t <;> rfl

@[simp] theorem StuffKind.ofCode_stuffField (k : StuffKind) : StuffKind.ofCode (stuffField k).toNat = some k := by
  cases k <;> rfl

@[simp] theorem Phase.ofCode_phaseField (p : Phase) : Phase.ofCode (phaseField p) = p := by cases p <;> rfl

@[simp] theorem Level.ofBool_levelField (v : Level) : Level.ofBool (levelField v == 1#1) = v := by cases v <;> rfl

@[simp] theorem Level.ofBool_toBool (v : Level) : Level.ofBool v.toBool = v := by cases v <;> rfl

@[simp] theorem Level.toBool_ofBool (b : Bool) : (Level.ofBool b).toBool = b := by cases b <;> rfl

@[simp] theorem Level.flip_flip (v : Level) : v.flip.flip = v := by cases v <;> rfl

theorem Level.flip_ne (v : Level) : v.flip ≠ v := by cases v <;> decide

@[simp] theorem slotOfField_slotField (i : SlotIx) : slotOfField (slotField i) = i := by revert i; decide

/-- A tag has a code exactly where the code is below 28 (R106, R110). -/
theorem FieldTag.ofCode_isSome (n : Nat) : (FieldTag.ofCode n).isSome = true ↔ n < 28 := by
  constructor
  · intro h
    unfold FieldTag.ofCode at h
    split at h <;> first | omega | simp at h
  · intro h
    interval_cases n <;> rfl

/-- Only the tag's own code reads as the tag. -/
theorem FieldTag.code_of_ofCode (n : Nat) (t : FieldTag) (h : FieldTag.ofCode n = some t) : t.code = n := by
  unfold FieldTag.ofCode at h
  split at h <;> simp_all <;> subst h <;> rfl

theorem FieldTag.code_lt (t : FieldTag) : t.code < 28 := by cases t <;> decide

theorem FieldTag.code_inj (t u : FieldTag) : t.code = u.code ↔ t = u := by
  constructor
  · intro h
    have := congrArg FieldTag.ofCode h
    simpa using this
  · exact congrArg _

/-- Two bit vectors laid end to end, as a number. -/
theorem toNat_append_add {n m : Nat} (x : BitVec n) (y : BitVec m) : (x ++ y).toNat = x.toNat * 2 ^ m + y.toNat := by
  rw [BitVec.toNat_append, ← Nat.shiftLeft_add_eq_or_of_lt y.isLt, Nat.shiftLeft_eq]

/-- The word of the fields, as a number (R100). -/
theorem packFields_toNat (f : CmdFields) : (packFields f).toNat =
    f.opc.toNat + 2 ^ 6 * f.slot.toNat + 2 ^ 8 * f.slot2.toNat + 2 ^ 10 * f.kind.toNat + 2 ^ 15 * f.val.toNat
      + 2 ^ 16 * f.valf.toNat + 2 ^ 17 * f.kindf.toNat + 2 ^ 18 * f.ph.toNat + 2 ^ 20 * f.phf.toNat
      + 2 ^ 21 * f.sk.toNat + 2 ^ 23 * f.reserved.toNat := by
  change BitVec.toNat (w := 9 + 2 + 1 + 2 + 1 + 1 + 1 + 5 + 2 + 2 + 6) (f.reserved ++ f.sk ++ f.phf ++ f.ph ++ f.kindf
    ++ f.valf ++ f.val ++ f.kind ++ f.slot2 ++ f.slot ++ f.opc) = _
  simp only [toNat_append_add]
  omega

/-- The fields of a word, as numbers (R100). -/
theorem unpackFields_toNat (w : Word) :
    (unpackFields w).opc.toNat = w.toNat % 64 ∧ (unpackFields w).slot.toNat = w.toNat / 2 ^ 6 % 4 ∧
    (unpackFields w).slot2.toNat = w.toNat / 2 ^ 8 % 4 ∧ (unpackFields w).kind.toNat = w.toNat / 2 ^ 10 % 32 ∧
    (unpackFields w).val.toNat = w.toNat / 2 ^ 15 % 2 ∧ (unpackFields w).valf.toNat = w.toNat / 2 ^ 16 % 2 ∧
    (unpackFields w).kindf.toNat = w.toNat / 2 ^ 17 % 2 ∧ (unpackFields w).ph.toNat = w.toNat / 2 ^ 18 % 4 ∧
    (unpackFields w).phf.toNat = w.toNat / 2 ^ 20 % 2 ∧ (unpackFields w).sk.toNat = w.toNat / 2 ^ 21 % 4 ∧
    (unpackFields w).reserved.toNat = w.toNat / 2 ^ 23 := by
  have := w.isLt
  simp only [unpackFields, BitVec.extractLsb'_toNat, Nat.shiftRight_eq_div_pow]
  refine ⟨?_, ?_, ?_, ?_, ?_, ?_, ?_, ?_, ?_, ?_, ?_⟩ <;> norm_num
  omega

/-- Cutting a packed word gives the fields back (R100). -/
theorem unpackFields_packFields (f : CmdFields) : unpackFields (packFields f) = f := by
  have hw := packFields_toNat f
  obtain ⟨a, b, c, d, e, g, h, i, j, k, l⟩ := f
  dsimp only at hw
  simp only [unpackFields, CmdFields.mk.injEq]
  have := a.isLt; have := b.isLt; have := c.isLt; have := d.isLt; have := e.isLt; have := g.isLt; have := h.isLt
  have := i.isLt; have := j.isLt; have := k.isLt; have := l.isLt
  refine ⟨?_, ?_, ?_, ?_, ?_, ?_, ?_, ?_, ?_, ?_, ?_⟩ <;>
  · apply BitVec.eq_of_toNat_eq
    simp only [BitVec.extractLsb'_toNat, Nat.shiftRight_eq_div_pow, hw]
    omega

/-- What the decoder sees of an encoded command is its fields. -/
theorem decode_encode_fields (i : Instr) : decode (encode i) = decodeFields (encodeFields i) := by
  rw [decode, encode, unpackFields_packFields]

/-- The four lanes of a word, put together, are the word (R82). -/
theorem wordOfLanes_extract (v : Word) :
    wordOfLanes (v.extractLsb' 0 8) (v.extractLsb' 8 8) (v.extractLsb' 16 8) (v.extractLsb' 24 8) = v := by
  apply BitVec.eq_of_toNat_eq
  change BitVec.toNat (w := 8 + 8 + 8 + 8) (v.extractLsb' 24 8 ++ v.extractLsb' 16 8 ++ v.extractLsb' 8 8
    ++ v.extractLsb' 0 8) = _
  have := v.isLt
  simp only [toNat_append_add, BitVec.extractLsb'_toNat, Nat.shiftRight_eq_div_pow]
  omega

end Sys2Proof
end

