-- ==== Sys2Proof/Laws/State.lean ====
section
/-! SUPPORT. One lemma for each field of State under each update, true by `rfl`, so that no proof unfolds a record
update; and the slot read after each update. -/

namespace Sys2Proof.Machine

/-! ## `succeed` -/

@[simp] theorem succeed_cfg (s : State) : (succeed s).cfg = s.cfg := rfl
@[simp] theorem succeed_cmd (s : State) : (succeed s).cmd = s.cmd := rfl
@[simp] theorem succeed_arg0 (s : State) : (succeed s).arg0 = s.arg0 := rfl
@[simp] theorem succeed_arg1 (s : State) : (succeed s).arg1 = s.arg1 := rfl
@[simp] theorem succeed_code (s : State) : (succeed s).code = .ok := rfl
@[simp] theorem succeed_fatal (s : State) : (succeed s).fatal = s.fatal := rfl
@[simp] theorem succeed_result (s : State) : (succeed s).result = s.result := rfl
@[simp] theorem succeed_nbt (s : State) : (succeed s).nbt = s.nbt := rfl
@[simp] theorem succeed_nsjw (s : State) : (succeed s).nsjw = s.nsjw := rfl
@[simp] theorem succeed_dbt (s : State) : (succeed s).dbt = s.dbt := rfl
@[simp] theorem succeed_dsjw (s : State) : (succeed s).dsjw = s.dsjw := rfl
@[simp] theorem succeed_flags (s : State) : (succeed s).flags = s.flags := rfl
@[simp] theorem succeed_id (s : State) : (succeed s).id = s.id := rfl
@[simp] theorem succeed_dlc (s : State) : (succeed s).dlc = s.dlc := rfl
@[simp] theorem succeed_pin (s : State) : (succeed s).pin = s.pin := rfl
@[simp] theorem succeed_data (s : State) : (succeed s).data = s.data := rfl
@[simp] theorem succeed_slots (s : State) : (succeed s).slots = s.slots := rfl
@[simp] theorem succeed_draws (s : State) : (succeed s).draws = s.draws := rfl
@[simp] theorem succeed_pending (s : State) : (succeed s).pending = s.pending := rfl
@[simp] theorem succeed_busData (s : State) : (succeed s).busData = s.busData := rfl
@[simp] theorem succeed_slot (s : State) (ix : SlotIx) : (succeed s).slot ix = s.slot ix := rfl

/-! ## `answer` -/

@[simp] theorem answer_cfg (v : Word) (s : State) : (answer v s).cfg = s.cfg := rfl
@[simp] theorem answer_cmd (v : Word) (s : State) : (answer v s).cmd = s.cmd := rfl
@[simp] theorem answer_arg0 (v : Word) (s : State) : (answer v s).arg0 = s.arg0 := rfl
@[simp] theorem answer_arg1 (v : Word) (s : State) : (answer v s).arg1 = s.arg1 := rfl
@[simp] theorem answer_code (v : Word) (s : State) : (answer v s).code = .ok := rfl
@[simp] theorem answer_fatal (v : Word) (s : State) : (answer v s).fatal = s.fatal := rfl
@[simp] theorem answer_result (v : Word) (s : State) : (answer v s).result = v := rfl
@[simp] theorem answer_nbt (v : Word) (s : State) : (answer v s).nbt = s.nbt := rfl
@[simp] theorem answer_nsjw (v : Word) (s : State) : (answer v s).nsjw = s.nsjw := rfl
@[simp] theorem answer_dbt (v : Word) (s : State) : (answer v s).dbt = s.dbt := rfl
@[simp] theorem answer_dsjw (v : Word) (s : State) : (answer v s).dsjw = s.dsjw := rfl
@[simp] theorem answer_flags (v : Word) (s : State) : (answer v s).flags = s.flags := rfl
@[simp] theorem answer_id (v : Word) (s : State) : (answer v s).id = s.id := rfl
@[simp] theorem answer_dlc (v : Word) (s : State) : (answer v s).dlc = s.dlc := rfl
@[simp] theorem answer_pin (v : Word) (s : State) : (answer v s).pin = s.pin := rfl
@[simp] theorem answer_data (v : Word) (s : State) : (answer v s).data = s.data := rfl
@[simp] theorem answer_slots (v : Word) (s : State) : (answer v s).slots = s.slots := rfl
@[simp] theorem answer_draws (v : Word) (s : State) : (answer v s).draws = s.draws := rfl
@[simp] theorem answer_pending (v : Word) (s : State) : (answer v s).pending = s.pending := rfl
@[simp] theorem answer_busData (v : Word) (s : State) : (answer v s).busData = s.busData := rfl
@[simp] theorem answer_slot (v : Word) (s : State) (ix : SlotIx) : (answer v s).slot ix = s.slot ix := rfl

/-! ## `fail` -/

@[simp] theorem fail_cfg (c : ResultCode) (s : State) : (fail c s).cfg = s.cfg := rfl
@[simp] theorem fail_cmd (c : ResultCode) (s : State) : (fail c s).cmd = s.cmd := rfl
@[simp] theorem fail_arg0 (c : ResultCode) (s : State) : (fail c s).arg0 = s.arg0 := rfl
@[simp] theorem fail_arg1 (c : ResultCode) (s : State) : (fail c s).arg1 = s.arg1 := rfl
@[simp] theorem fail_code (c : ResultCode) (s : State) : (fail c s).code = c := rfl
@[simp] theorem fail_fatal (c : ResultCode) (s : State) : (fail c s).fatal = s.fatal := rfl
@[simp] theorem fail_result (c : ResultCode) (s : State) : (fail c s).result = s.result := rfl
@[simp] theorem fail_nbt (c : ResultCode) (s : State) : (fail c s).nbt = s.nbt := rfl
@[simp] theorem fail_nsjw (c : ResultCode) (s : State) : (fail c s).nsjw = s.nsjw := rfl
@[simp] theorem fail_dbt (c : ResultCode) (s : State) : (fail c s).dbt = s.dbt := rfl
@[simp] theorem fail_dsjw (c : ResultCode) (s : State) : (fail c s).dsjw = s.dsjw := rfl
@[simp] theorem fail_flags (c : ResultCode) (s : State) : (fail c s).flags = s.flags := rfl
@[simp] theorem fail_id (c : ResultCode) (s : State) : (fail c s).id = s.id := rfl
@[simp] theorem fail_dlc (c : ResultCode) (s : State) : (fail c s).dlc = s.dlc := rfl
@[simp] theorem fail_pin (c : ResultCode) (s : State) : (fail c s).pin = s.pin := rfl
@[simp] theorem fail_data (c : ResultCode) (s : State) : (fail c s).data = s.data := rfl
@[simp] theorem fail_slots (c : ResultCode) (s : State) : (fail c s).slots = s.slots := rfl
@[simp] theorem fail_draws (c : ResultCode) (s : State) : (fail c s).draws = s.draws := rfl
@[simp] theorem fail_pending (c : ResultCode) (s : State) : (fail c s).pending = s.pending := rfl
@[simp] theorem fail_busData (c : ResultCode) (s : State) : (fail c s).busData = s.busData := rfl
@[simp] theorem fail_slot (c : ResultCode) (s : State) (ix : SlotIx) : (fail c s).slot ix = s.slot ix := rfl

/-! ## `raiseFatal` -/

@[simp] theorem raiseFatal_cfg (f : FatalCause) (s : State) : (raiseFatal f s).cfg = s.cfg := rfl
@[simp] theorem raiseFatal_cmd (f : FatalCause) (s : State) : (raiseFatal f s).cmd = s.cmd := rfl
@[simp] theorem raiseFatal_arg0 (f : FatalCause) (s : State) : (raiseFatal f s).arg0 = s.arg0 := rfl
@[simp] theorem raiseFatal_arg1 (f : FatalCause) (s : State) : (raiseFatal f s).arg1 = s.arg1 := rfl
@[simp] theorem raiseFatal_code (f : FatalCause) (s : State) : (raiseFatal f s).code = s.code := rfl
@[simp] theorem raiseFatal_fatal (f : FatalCause) (s : State) : (raiseFatal f s).fatal = some f := rfl
@[simp] theorem raiseFatal_result (f : FatalCause) (s : State) : (raiseFatal f s).result = s.result := rfl
@[simp] theorem raiseFatal_nbt (f : FatalCause) (s : State) : (raiseFatal f s).nbt = s.nbt := rfl
@[simp] theorem raiseFatal_nsjw (f : FatalCause) (s : State) : (raiseFatal f s).nsjw = s.nsjw := rfl
@[simp] theorem raiseFatal_dbt (f : FatalCause) (s : State) : (raiseFatal f s).dbt = s.dbt := rfl
@[simp] theorem raiseFatal_dsjw (f : FatalCause) (s : State) : (raiseFatal f s).dsjw = s.dsjw := rfl
@[simp] theorem raiseFatal_flags (f : FatalCause) (s : State) : (raiseFatal f s).flags = s.flags := rfl
@[simp] theorem raiseFatal_id (f : FatalCause) (s : State) : (raiseFatal f s).id = s.id := rfl
@[simp] theorem raiseFatal_dlc (f : FatalCause) (s : State) : (raiseFatal f s).dlc = s.dlc := rfl
@[simp] theorem raiseFatal_pin (f : FatalCause) (s : State) : (raiseFatal f s).pin = s.pin := rfl
@[simp] theorem raiseFatal_data (f : FatalCause) (s : State) : (raiseFatal f s).data = s.data := rfl
@[simp] theorem raiseFatal_slots (f : FatalCause) (s : State) : (raiseFatal f s).slots = s.slots := rfl
@[simp] theorem raiseFatal_draws (f : FatalCause) (s : State) : (raiseFatal f s).draws = s.draws := rfl
@[simp] theorem raiseFatal_pending (f : FatalCause) (s : State) : (raiseFatal f s).pending = s.pending := rfl
@[simp] theorem raiseFatal_busData (f : FatalCause) (s : State) : (raiseFatal f s).busData = s.busData := rfl
@[simp] theorem raiseFatal_slot (f : FatalCause) (s : State) (ix : SlotIx) : (raiseFatal f s).slot ix = s.slot ix := rfl

/-! ## `setSlot` -/

@[simp] theorem setSlot_cfg (s : State) (ix : SlotIx) (sl : Slot) : (s.setSlot ix sl).cfg = s.cfg := rfl
@[simp] theorem setSlot_cmd (s : State) (ix : SlotIx) (sl : Slot) : (s.setSlot ix sl).cmd = s.cmd := rfl
@[simp] theorem setSlot_arg0 (s : State) (ix : SlotIx) (sl : Slot) : (s.setSlot ix sl).arg0 = s.arg0 := rfl
@[simp] theorem setSlot_arg1 (s : State) (ix : SlotIx) (sl : Slot) : (s.setSlot ix sl).arg1 = s.arg1 := rfl
@[simp] theorem setSlot_code (s : State) (ix : SlotIx) (sl : Slot) : (s.setSlot ix sl).code = s.code := rfl
@[simp] theorem setSlot_fatal (s : State) (ix : SlotIx) (sl : Slot) : (s.setSlot ix sl).fatal = s.fatal := rfl
@[simp] theorem setSlot_result (s : State) (ix : SlotIx) (sl : Slot) : (s.setSlot ix sl).result = s.result := rfl
@[simp] theorem setSlot_nbt (s : State) (ix : SlotIx) (sl : Slot) : (s.setSlot ix sl).nbt = s.nbt := rfl
@[simp] theorem setSlot_nsjw (s : State) (ix : SlotIx) (sl : Slot) : (s.setSlot ix sl).nsjw = s.nsjw := rfl
@[simp] theorem setSlot_dbt (s : State) (ix : SlotIx) (sl : Slot) : (s.setSlot ix sl).dbt = s.dbt := rfl
@[simp] theorem setSlot_dsjw (s : State) (ix : SlotIx) (sl : Slot) : (s.setSlot ix sl).dsjw = s.dsjw := rfl
@[simp] theorem setSlot_flags (s : State) (ix : SlotIx) (sl : Slot) : (s.setSlot ix sl).flags = s.flags := rfl
@[simp] theorem setSlot_id (s : State) (ix : SlotIx) (sl : Slot) : (s.setSlot ix sl).id = s.id := rfl
@[simp] theorem setSlot_dlc (s : State) (ix : SlotIx) (sl : Slot) : (s.setSlot ix sl).dlc = s.dlc := rfl
@[simp] theorem setSlot_pin (s : State) (ix : SlotIx) (sl : Slot) : (s.setSlot ix sl).pin = s.pin := rfl
@[simp] theorem setSlot_data (s : State) (ix : SlotIx) (sl : Slot) : (s.setSlot ix sl).data = s.data := rfl
@[simp] theorem setSlot_slots (s : State) (ix : SlotIx) (sl : Slot) : (s.setSlot ix sl).slots = s.slots.set ix sl := rfl
@[simp] theorem setSlot_draws (s : State) (ix : SlotIx) (sl : Slot) : (s.setSlot ix sl).draws = s.draws := rfl
@[simp] theorem setSlot_pending (s : State) (ix : SlotIx) (sl : Slot) : (s.setSlot ix sl).pending = s.pending := rfl
@[simp] theorem setSlot_busData (s : State) (ix : SlotIx) (sl : Slot) : (s.setSlot ix sl).busData = s.busData := rfl

/-! ## Reading a slot -/

@[simp] theorem setSlot_slot_same (s : State) (ix : SlotIx) (sl : Slot) : (s.setSlot ix sl).slot ix = sl := by
  simp [State.slot, State.setSlot]

theorem setSlot_slot_ne (s : State) (ix jx : SlotIx) (sl : Slot) (h : jx ≠ ix) :
    (s.setSlot ix sl).slot jx = s.slot jx := by
  have h' : ix.val ≠ jx.val := fun e => h (Fin.ext e.symm)
  simp [State.slot, State.setSlot, h']

/-- A slot read after a slot is replaced. -/
theorem setSlot_slot (s : State) (ix jx : SlotIx) (sl : Slot) :
    (s.setSlot ix sl).slot jx = if jx = ix then sl else s.slot jx := by
  by_cases h : jx = ix
  · subst h; simp
  · simp [h, setSlot_slot_ne s ix jx sl h]

@[simp] theorem setSlot_self (s : State) (ix : SlotIx) : s.setSlot ix (s.slot ix) = s := by
  simp [State.slot, State.setSlot]

@[simp] theorem setSlot_setSlot (s : State) (ix : SlotIx) (a b : Slot) :
    (s.setSlot ix a).setSlot ix b = s.setSlot ix b := by
  simp [State.setSlot]

/-- Two states whose slots agree at every number have the same slots. -/
theorem slots_ext (s t : State) (h : ∀ ix : SlotIx, s.slot ix = t.slot ix) : s.slots = t.slots := by
  apply Vector.ext
  intro i hi
  exact h ⟨i, hi⟩

@[simp] theorem reset_slot (ix : SlotIx) : State.reset.slot ix = Slot.empty := by
  simp [State.slot, State.reset]

end Sys2Proof.Machine
end

