-- ==== Sys2Proof/Laws/Ops.lean ====
section
/-! SUPPORT. One lemma for everything each shared operation of Machine/Ops.lean and Machine/Operands.lean can do; the
commands' proofs cite these and unfold none of them. -/

namespace Sys2Proof.Machine

/-! ## The prologue, queries and edits -/

theorem withSlot_valid (ix : SlotIx) (s : State) (k : Slot → State) (h : (s.slot ix).valid = true) :
    withSlot ix s k = k (s.slot ix) := if_pos h

theorem withSlot_invalid (ix : SlotIx) (s : State) (k : Slot → State) (h : (s.slot ix).valid = false) :
    withSlot ix s k = raiseFatal .invalidSlot s := by simp [withSlot, h]

theorem query_ok {ix : SlotIx} {f : Slot → Except Halt Word} {s : State} {v : Word} (h : (s.slot ix).valid = true)
    (hf : f (s.slot ix) = .ok v) : query ix f s = answer v s := by
  rw [query, withSlot_valid ix s _ h]; simp only [hf]

theorem query_error {ix : SlotIx} {f : Slot → Except Halt Word} {s : State} {e : Halt} (h : (s.slot ix).valid = true)
    (hf : f (s.slot ix) = .error e) : query ix f s = halt e s := by
  rw [query, withSlot_valid ix s _ h]; simp only [hf]

theorem query_invalid {ix : SlotIx} (f : Slot → Except Halt Word) {s : State} (h : (s.slot ix).valid = false) :
    query ix f s = raiseFatal .invalidSlot s := withSlot_invalid ix s _ h

/-- Everything a query can do. -/
theorem query_cases (ix : SlotIx) (f : Slot → Except Halt Word) (s : State) :
    ((s.slot ix).valid = false ∧ query ix f s = raiseFatal .invalidSlot s) ∨
    (∃ v, (s.slot ix).valid = true ∧ f (s.slot ix) = .ok v ∧ query ix f s = answer v s) ∨
    (∃ e, (s.slot ix).valid = true ∧ f (s.slot ix) = .error e ∧ query ix f s = halt e s) := by
  cases h : (s.slot ix).valid with
  | false => exact .inl ⟨rfl, query_invalid f h⟩
  | true =>
    cases hf : f (s.slot ix) with
    | ok v => exact .inr (.inl ⟨v, rfl, rfl, query_ok h hf⟩)
    | error e => exact .inr (.inr ⟨e, rfl, rfl, query_error h hf⟩)

theorem commit_none (ix : SlotIx) (sl : Slot) (bits : List FrameBit) (s : State) :
    commit ix sl { bits := bits } s = succeed (s.setSlot ix { sl with bits := bits }) := rfl

theorem commit_some (ix : SlotIx) (sl : Slot) (bits : List FrameBit) (v : Word) (s : State) :
    commit ix sl { bits := bits, reply := some v } s = answer v (s.setSlot ix { sl with bits := bits }) := rfl

theorem edit_ok {ix : SlotIx} {f : Slot → Except Halt Edit} {s : State} {e : Edit} (h : (s.slot ix).valid = true)
    (hf : f (s.slot ix) = .ok e) : edit ix f s = commit ix (s.slot ix) e s := by
  rw [edit, withSlot_valid ix s _ h]; simp only [hf]

theorem edit_error {ix : SlotIx} {f : Slot → Except Halt Edit} {s : State} {e : Halt} (h : (s.slot ix).valid = true)
    (hf : f (s.slot ix) = .error e) : edit ix f s = halt e s := by
  rw [edit, withSlot_valid ix s _ h]; simp only [hf]

theorem edit_invalid {ix : SlotIx} (f : Slot → Except Halt Edit) {s : State} (h : (s.slot ix).valid = false) :
    edit ix f s = raiseFatal .invalidSlot s := withSlot_invalid ix s _ h

/-- Everything an edit can do. -/
theorem edit_cases (ix : SlotIx) (f : Slot → Except Halt Edit) (s : State) :
    ((s.slot ix).valid = false ∧ edit ix f s = raiseFatal .invalidSlot s) ∨
    (∃ e, (s.slot ix).valid = true ∧ f (s.slot ix) = .ok e ∧ edit ix f s = commit ix (s.slot ix) e s) ∨
    (∃ e, (s.slot ix).valid = true ∧ f (s.slot ix) = .error e ∧ edit ix f s = halt e s) := by
  cases h : (s.slot ix).valid with
  | false => exact .inl ⟨rfl, edit_invalid f h⟩
  | true =>
    cases hf : f (s.slot ix) with
    | ok e => exact .inr (.inl ⟨e, rfl, rfl, edit_ok h hf⟩)
    | error e => exact .inr (.inr ⟨e, rfl, rfl, edit_error h hf⟩)

theorem fitBits_ok {cfg : Config} {bits : List FrameBit} (h : bits.length ≤ cfg.capBits) :
    fitBits cfg bits = .ok { bits := bits } := if_neg (by omega)

theorem fitBits_error {cfg : Config} {bits : List FrameBit} (h : cfg.capBits < bits.length) :
    fitBits cfg bits = .error (.fatal .capacityExceeded) := if_pos h

/-! ## The search of R10 -/

/-- `nth` finds position `i` exactly where the element there satisfies `p` and `n` earlier ones do. -/
theorem nth_eq_some {α : Type} (p : α → Bool) (l : List α) (n i : Nat) :
    nth p l n = some i ↔ (∃ x, l[i]? = some x ∧ p x = true) ∧ (l.take i).countP p = n := by
  induction l generalizing n i with
  | nil => simp [nth]
  | cons a l ih =>
    cases hp : p a with
    | true =>
      cases n with
      | zero =>
        cases i with
        | zero => simp [nth, hp]
        | succ i => simp [nth, hp]
      | succ n =>
        cases i with
        | zero => simp [nth, hp]
        | succ i => simp [nth, hp, ih]
    | false =>
      cases i with
      | zero => simp [nth, hp]
      | succ i => simp [nth, hp, ih]

/-- `nth` misses exactly where no more than `n` elements satisfy `p`. -/
theorem nth_eq_none {α : Type} (p : α → Bool) (l : List α) (n : Nat) : nth p l n = none ↔ l.countP p ≤ n := by
  induction l generalizing n with
  | nil => simp [nth]
  | cons a l ih =>
    cases hp : p a with
    | true => cases n <;> simp [nth, hp, ih]
    | false => simp [nth, hp, ih]

theorem nth_lt {α : Type} {p : α → Bool} {l : List α} {n i : Nat} (h : nth p l n = some i) : i < l.length := by
  obtain ⟨⟨x, hx, -⟩, -⟩ := (nth_eq_some p l n i).1 h
  exact (List.getElem?_eq_some_iff.1 hx).1

/-- `positions` holds exactly the positions of the elements satisfying `p`. -/
theorem mem_positions {α : Type} (p : α → Bool) (l : List α) (i : Nat) :
    i ∈ positions p l ↔ ∃ x, l[i]? = some x ∧ p x = true := by
  induction l generalizing i with
  | nil => simp [positions]
  | cons a l ih =>
    cases hp : p a <;> cases i <;> simp [positions, hp, ih]

theorem positions_length {α : Type} (p : α → Bool) (l : List α) : (positions p l).length = l.countP p := by
  induction l with
  | nil => rfl
  | cons a l ih => cases hp : p a <;> simp [positions, hp, ih]

/-! ## The bit selector (R115) -/

/-- A selected position is a bit of the slot, or the end where that is allowed. -/
theorem selectBit_lt {bits : List FrameBit} {sel : BitSel} {arg i : Nat} {allowEnd : Bool}
    (h : selectBit bits sel arg allowEnd = .ok i) : i < bits.length ∨ (allowEnd = true ∧ i = bits.length) := by
  cases sel with
  | index =>
    simp only [selectBit] at h
    split at h
    · cases h; simp_all
    · cases h
  | typed t =>
    simp only [selectBit] at h
    split at h
    · cases h; exact .inl (nth_lt ‹_›)
    · cases h

/-- Everything the prologue on one bit can do: a selector error, or `f` on a bit of the slot. -/
theorem atBit_cases {α : Type} (sl : Slot) (sel : BitSel) (arg : Nat) (f : Nat → FrameBit → Except Halt α) :
    (∃ e, selectBit sl.bits sel arg false = .error e ∧ atBit sl sel arg f = .error e) ∨
    (∃ i b, selectBit sl.bits sel arg false = .ok i ∧ sl.bits[i]? = some b ∧ atBit sl sel arg f = f i b) := by
  cases h : selectBit sl.bits sel arg false with
  | error e => exact .inl ⟨e, rfl, by simp only [atBit, h]⟩
  | ok i =>
    have hi : i < sl.bits.length := by
      rcases selectBit_lt h with h' | ⟨h', -⟩
      · exact h'
      · cases h'
    exact .inr ⟨i, sl.bits[i], rfl, List.getElem?_eq_getElem hi, by simp only [atBit, h, List.getElem?_eq_getElem hi]⟩

/-- The prologue on the bit that is selected. -/
theorem atBit_ok {α : Type} {sl : Slot} {sel : BitSel} {arg i : Nat} {b : FrameBit}
    (f : Nat → FrameBit → Except Halt α) (h : selectBit sl.bits sel arg false = .ok i) (hb : sl.bits[i]? = some b) :
    atBit sl sel arg f = f i b := by
  simp only [atBit, h, hb]

theorem atBit_error {α : Type} {sl : Slot} {sel : BitSel} {arg : Nat} {e : Halt}
    (f : Nat → FrameBit → Except Halt α) (h : selectBit sl.bits sel arg false = .error e) :
    atBit sl sel arg f = .error e := by
  simp only [atBit, h]

/-- A command on one bit, on the bit that is selected. -/
theorem editBit_ok {ix : SlotIx} {sel : BitSel} {f : FrameBit → Except Halt BitEdit} {s : State} {i : Nat}
    {b : FrameBit} {e : BitEdit} (hv : (s.slot ix).valid = true)
    (h : selectBit (s.slot ix).bits sel s.arg0.toNat false = .ok i) (hb : (s.slot ix).bits[i]? = some b)
    (hf : f b = .ok e) :
    editBit ix sel f s = commit ix (s.slot ix) { bits := (s.slot ix).bits.set i e.bit, reply := e.reply } s := by
  rw [editBit]
  exact edit_ok hv (by rw [atBit_ok _ h hb]; simp only [hf])

theorem editBit_error {ix : SlotIx} {sel : BitSel} {f : FrameBit → Except Halt BitEdit} {s : State} {i : Nat}
    {b : FrameBit} {e : Halt} (hv : (s.slot ix).valid = true)
    (h : selectBit (s.slot ix).bits sel s.arg0.toNat false = .ok i) (hb : (s.slot ix).bits[i]? = some b)
    (hf : f b = .error e) : editBit ix sel f s = halt e s := by
  rw [editBit]
  exact edit_error hv (by rw [atBit_ok _ h hb]; simp only [hf])

/-! ## Draws (R12, R45) -/

/-- A draw answers an index of the set. -/
theorem drawFrom_lt (o : Nat → Nat) (k n : Nat) (h : 0 < n) : (drawFrom o k n).1 < n := by
  unfold drawFrom
  split
  · exact h
  · exact Nat.mod_lt _ h

/-- Any index of the set may be answered. -/
theorem drawFrom_any (k n i : Nat) (h : i < n) (o : Nat → Nat) (ho : o k = i) : (drawFrom o k n).1 = i := by
  unfold drawFrom
  split
  · simp only; omega
  · simp [ho, Nat.mod_eq_of_lt h]

/-- A draw moves the ORACLE on by at most one. -/
theorem drawFrom_next (o : Nat → Nat) (k n : Nat) : (drawFrom o k n).2 = k ∨ (drawFrom o k n).2 = k + 1 := by
  unfold drawFrom
  split <;> simp

/-! ## Every command answers a next state -/

/-- No command ends in a fault or a refusal (R388). -/
theorem exec_next (i : Instr) (s : State) : ∃ t, exec i s = .next t := by cases i <;> exact ⟨_, rfl⟩

end Sys2Proof.Machine
end

