-- ==== Sys2Proof/Laws/Bus.lean ====
section
/-! SUPPORT. What one input does (spec/20_memory.md R83, spec/30_encoding.md R101, spec/10_state.md R46). -/

namespace Sys2Proof.Machine

/-- Every register is mapped at its own aligned offset (R31). -/
theorem regAt_offset (r : Reg) : regAt r.offset = some r ∧ r.offset % 4 = 0 := by
  cases r with
  | data k => revert k; decide
  | _ => decide

/-- An aligned 32-bit access to a register's offset reaches the register. -/
theorem accessReg_offset (r : Reg) (k : Reg → Host.Outcome State Fault Refusal) : accessReg r.offset 4 k = k r := by
  obtain ⟨h1, h2⟩ := regAt_offset r
  simp [accessReg, h1, h2]

/-- The next input is a write to a register. -/
theorem step_write {s : State} {rest : List HostInput} {r : Reg} {v : Word}
    (h : s.pending = .write r.offset 4 v :: rest) : step s = registerWrite r v { s with pending := rest } := by
  simp only [step, nextInput, h, hostInput, accessReg_offset]

/-- The next input is a read of a register. -/
theorem step_read {s : State} {rest : List HostInput} {r : Reg} (h : s.pending = .read r.offset 4 :: rest) :
    step s = .next (registerRead r { s with pending := rest }) := by
  simp only [step, nextInput, h, hostInput, accessReg_offset]

/-- The next input is reset. -/
theorem step_reset {s : State} {rest : List HostInput} (h : s.pending = .reset :: rest) :
    step s = .next (resetState { s with pending := rest }) := by
  simp only [step, nextInput, h, hostInput]

theorem step_idle {s : State} (h : s.pending = []) : step s = .next s := by
  simp only [step, nextInput, h]

/-- A CMD write while FATAL = 1 (R101 step 2). -/
theorem commandWrite_fatal (w : Word) {s : State} {f : FatalCause} (h : s.fatal = some f) :
    commandWrite w s = .next { s with cmd := w } := by
  simp only [commandWrite, writeReg, h]

/-- A CMD write of an illegal word (R101 step 3). -/
theorem commandWrite_illegal {w : Word} {s : State} {e : DecodeError} (h : s.fatal = none) (hd : decode w = .error e) :
    commandWrite w s = .next { s with cmd := w, fatal := some .illegalCommand } := by
  simp only [commandWrite, writeReg, h, hd, raiseFatal]

/-- A CMD write of a legal word (R101 step 4). -/
theorem commandWrite_legal {w : Word} {s : State} {i : Instr} (h : s.fatal = none) (hd : decode w = .ok i) :
    commandWrite w s = exec i { s with cmd := w } := by
  simp only [commandWrite, writeReg, h, hd]

/-- A CMD write always gives a next state. -/
theorem commandWrite_next (w : Word) (s : State) : ∃ t, commandWrite w s = .next t := by
  cases h : s.fatal with
  | some f => exact ⟨_, commandWrite_fatal w h⟩
  | none =>
    cases hd : decode w with
    | error e => exact ⟨_, commandWrite_illegal h hd⟩
    | ok i =>
      obtain ⟨t, ht⟩ := exec_next i { s with cmd := w }
      exact ⟨t, (commandWrite_legal h hd).trans ht⟩

/-- The state in which the next input is a CMD write of `w`. -/
theorem step_withFetchWord (s : State) (w : Word) : step (s.withFetchWord 32 w.toNat) = commandWrite w s := by
  have hw : BitVec.ofNat 32 (w.toNat % 2 ^ 32) = w := by
    apply BitVec.eq_of_toNat_eq
    rw [BitVec.toNat_ofNat, Nat.mod_mod, Nat.mod_eq_of_lt w.isLt]
  have h : (s.withFetchWord 32 w.toNat).pending = .write (Reg.cmd).offset 4 w :: s.pending := by
    simp only [State.withFetchWord, hw, Reg.offset]
  rw [step_write h]
  rfl

end Sys2Proof.Machine
end

