-- ==== Sys2Proof/Laws/PerInstr.lean ====
section
/-! SUPPORT. A statement about every command as syntax: its encoded word matches its row of spec/opcode_table.json. -/

namespace Sys2Proof.Laws.EncodeMatch

/-- The "match" column of spec/opcode_table.json. -/
def tableMatch : Instr → Nat
  | .build _ => 0x00000001
  | .update _ => 0x00000002
  | .clone _ _ => 0x00000003
  | .getCrc _ => 0x00000004
  | .randomize => 0x00000005
  | .getBitOf _ _ => 0x00000008
  | .getBitOfNoStuff _ _ => 0x00000009
  | .getStuffBit _ _ _ => 0x0000000A
  | .getFixedStuffBit _ _ => 0x0000000B
  | .getNumStuffBits _ _ _ => 0x0000000C
  | .getBitIndex _ => 0x0000000D
  | .getFieldLength _ _ => 0x0000000E
  | .getLength _ => 0x0000000F
  | .readBit _ _ => 0x00000010
  | .readPhaseLen _ _ _ => 0x00000011
  | .getRandomBit _ _ => 0x00000012
  | .getRandomBitOf _ _ _ => 0x00000013
  | .insertBit _ _ _ => 0x00000018
  | .removeBit _ _ => 0x00000019
  | .removeBitsFrom _ _ => 0x0000001A
  | .appendBit _ _ _ => 0x0000001B
  | .insertActiveErrorFrame _ _ => 0x0000001C
  | .insertPassiveErrorFrame _ _ => 0x0000001D
  | .insertOverloadFrame _ _ => 0x0000001E
  | .appendSuspend _ => 0x0000001F
  | .turnReceived _ => 0x00000020
  | .loseArbitration _ _ => 0x00000021
  | .appendFrame _ _ => 0x00000022
  | .flipBit _ _ => 0x00000028
  | .setBitValue _ _ _ => 0x00000029
  | .setStuffKind _ _ _ => 0x0000002A
  | .shortenPhase _ _ _ => 0x0000002B
  | .lengthenPhase _ _ _ => 0x0000002C
  | .forceTq _ _ _ _ => 0x0000002D
  | .qzLength _ => 0x00000030
  | .qzRead _ => 0x00000031

/-- The bits that the mask 0xFF80003F of every row covers are those of the row's match: OPC in [5:0], and [31:23]
clear. -/
def Statement (i : Instr) : Prop := (encode i).toNat % 64 = tableMatch i ∧ (encode i).toNat / 2 ^ 23 = 0

/-- The word matches where the fields' OPC does and the reserved field is 0. -/
theorem statement_of_fields (i : Instr)
    (h : (encodeFields i).opc.toNat = tableMatch i ∧ (encodeFields i).reserved = 0) :
    Statement i := by
  obtain ⟨h1, h2⟩ := h
  have hu := unpackFields_toNat (encode i)
  rw [encode, unpackFields_packFields] at hu
  obtain ⟨u1, -, -, -, -, -, -, -, -, -, u11⟩ := hu
  refine ⟨?_, ?_⟩
  · rw [encode, ← h1, u1]
  · rw [encode, ← u11, h2]; rfl

theorem build (dst : SlotIx) : Statement (.build dst) := statement_of_fields _ ⟨rfl, rfl⟩

theorem update (slot : SlotIx) : Statement (.update slot) := statement_of_fields _ ⟨rfl, rfl⟩

theorem clone (dst src : SlotIx) : Statement (.clone dst src) := statement_of_fields _ ⟨rfl, rfl⟩

theorem getCrc (slot : SlotIx) : Statement (.getCrc slot) := statement_of_fields _ ⟨rfl, rfl⟩

theorem randomize : Statement (.randomize) := statement_of_fields _ ⟨rfl, rfl⟩

theorem getBitOf (slot : SlotIx) (kind : FieldTag) : Statement (.getBitOf slot kind) :=
  statement_of_fields _ ⟨rfl, rfl⟩

theorem getBitOfNoStuff (slot : SlotIx) (kind : FieldTag) : Statement (.getBitOfNoStuff slot kind) :=
  statement_of_fields _ ⟨rfl, rfl⟩

theorem getStuffBit (slot : SlotIx) (kind : Option FieldTag) (val : Option Level) : Statement
    (.getStuffBit slot kind val) :=
  statement_of_fields _ (by cases kind <;> cases val <;> exact ⟨rfl, rfl⟩)

theorem getFixedStuffBit (slot : SlotIx) (val : Level) : Statement (.getFixedStuffBit slot val) :=
  statement_of_fields _ ⟨rfl, rfl⟩

theorem getNumStuffBits (slot : SlotIx) (sk : StuffKind) (val : Option Level) : Statement
    (.getNumStuffBits slot sk val) :=
  statement_of_fields _ (by cases val <;> exact ⟨rfl, rfl⟩)

theorem getBitIndex (slot : SlotIx) : Statement (.getBitIndex slot) := statement_of_fields _ ⟨rfl, rfl⟩

theorem getFieldLength (slot : SlotIx) (kind : FieldTag) : Statement (.getFieldLength slot kind) :=
  statement_of_fields _ ⟨rfl, rfl⟩

theorem getLength (slot : SlotIx) : Statement (.getLength slot) := statement_of_fields _ ⟨rfl, rfl⟩

theorem readBit (slot : SlotIx) (sel : BitSel) : Statement (.readBit slot sel) :=
  statement_of_fields _ (by cases sel <;> exact ⟨rfl, rfl⟩)

theorem readPhaseLen (slot : SlotIx) (sel : BitSel) (ph : Phase) : Statement (.readPhaseLen slot sel ph) :=
  statement_of_fields _ (by cases sel <;> exact ⟨rfl, rfl⟩)

theorem getRandomBit (slot : SlotIx) (val : Option Level) : Statement (.getRandomBit slot val) :=
  statement_of_fields _ (by cases val <;> exact ⟨rfl, rfl⟩)

theorem getRandomBitOf (slot : SlotIx) (kind : FieldTag) (val : Option Level) : Statement
    (.getRandomBitOf slot kind val) :=
  statement_of_fields _ (by cases val <;> exact ⟨rfl, rfl⟩)

theorem insertBit (slot : SlotIx) (kind : FieldTag) (val : Level) : Statement (.insertBit slot kind val) :=
  statement_of_fields _ ⟨rfl, rfl⟩

theorem removeBit (slot : SlotIx) (sel : BitSel) : Statement (.removeBit slot sel) :=
  statement_of_fields _ (by cases sel <;> exact ⟨rfl, rfl⟩)

theorem removeBitsFrom (slot : SlotIx) (sel : BitSel) : Statement (.removeBitsFrom slot sel) :=
  statement_of_fields _ (by cases sel <;> exact ⟨rfl, rfl⟩)

theorem appendBit (slot : SlotIx) (kind : FieldTag) (val : Level) : Statement (.appendBit slot kind val) :=
  statement_of_fields _ ⟨rfl, rfl⟩

theorem insertActiveErrorFrame (slot : SlotIx) (sel : BitSel) : Statement (.insertActiveErrorFrame slot sel) :=
  statement_of_fields _ (by cases sel <;> exact ⟨rfl, rfl⟩)

theorem insertPassiveErrorFrame (slot : SlotIx) (sel : BitSel) : Statement (.insertPassiveErrorFrame slot sel) :=
  statement_of_fields _ (by cases sel <;> exact ⟨rfl, rfl⟩)

theorem insertOverloadFrame (slot : SlotIx) (sel : BitSel) : Statement (.insertOverloadFrame slot sel) :=
  statement_of_fields _ (by cases sel <;> exact ⟨rfl, rfl⟩)

theorem appendSuspend (slot : SlotIx) : Statement (.appendSuspend slot) := statement_of_fields _ ⟨rfl, rfl⟩

theorem turnReceived (slot : SlotIx) : Statement (.turnReceived slot) := statement_of_fields _ ⟨rfl, rfl⟩

theorem loseArbitration (slot : SlotIx) (sel : BitSel) : Statement (.loseArbitration slot sel) :=
  statement_of_fields _ (by cases sel <;> exact ⟨rfl, rfl⟩)

theorem appendFrame (dst src : SlotIx) : Statement (.appendFrame dst src) := statement_of_fields _ ⟨rfl, rfl⟩

theorem flipBit (slot : SlotIx) (sel : BitSel) : Statement (.flipBit slot sel) :=
  statement_of_fields _ (by cases sel <;> exact ⟨rfl, rfl⟩)

theorem setBitValue (slot : SlotIx) (sel : BitSel) (val : Level) : Statement (.setBitValue slot sel val) :=
  statement_of_fields _ (by cases sel <;> exact ⟨rfl, rfl⟩)

theorem setStuffKind (slot : SlotIx) (sel : BitSel) (sk : StuffKind) : Statement (.setStuffKind slot sel sk) :=
  statement_of_fields _ (by cases sel <;> exact ⟨rfl, rfl⟩)

theorem shortenPhase (slot : SlotIx) (sel : BitSel) (ph : Phase) : Statement (.shortenPhase slot sel ph) :=
  statement_of_fields _ (by cases sel <;> exact ⟨rfl, rfl⟩)

theorem lengthenPhase (slot : SlotIx) (sel : BitSel) (ph : Phase) : Statement (.lengthenPhase slot sel ph) :=
  statement_of_fields _ (by cases sel <;> exact ⟨rfl, rfl⟩)

theorem forceTq (slot : SlotIx) (sel : BitSel) (ph : Option Phase) (val : Level) : Statement
    (.forceTq slot sel ph val) :=
  statement_of_fields _ (by cases sel <;> cases ph <;> exact ⟨rfl, rfl⟩)

theorem qzLength (slot : SlotIx) : Statement (.qzLength slot) := statement_of_fields _ ⟨rfl, rfl⟩

theorem qzRead (slot : SlotIx) : Statement (.qzRead slot) := statement_of_fields _ ⟨rfl, rfl⟩

end Sys2Proof.Laws.EncodeMatch
end

