-- ==== Sys2Proof/Laws/Timing.lean ====
section
/-! SUPPORT. What a fresh bit is (spec/41_bit_timing.md R172). -/

namespace Sys2Proof.Machine

@[simp] theorem newBit_kind (sl : Slot) (k : FieldTag) (v : Level) (st : StuffKind) : (newBit sl k v st).kind = k := rfl
@[simp] theorem newBit_val (sl : Slot) (k : FieldTag) (v : Level) (st : StuffKind) : (newBit sl k v st).val = v := rfl
@[simp] theorem newBit_stuff (sl : Slot) (k : FieldTag) (v : Level) (st : StuffKind) :
    (newBit sl k v st).stuff = st := rfl

/-- The prescaler of a phase of a fresh bit is that of the phase's timing. -/
theorem newBit_pbrp (sl : Slot) (k : FieldTag) (v : Level) (st : StuffKind) (ph : Phase) :
    (newBit sl k v st).pbrp.get ph = (phaseTiming sl k st ph).brp := by cases ph <;> rfl

@[simp] theorem freshQuanta_length (ph : Phase) (brp : Byte) (n : Nat) : (freshQuanta ph brp n).length = n := by
  simp [freshQuanta]

theorem mem_freshQuanta {ph : Phase} {brp : Byte} {n : Nat} {q : TimeQuantum} (h : q ∈ freshQuanta ph brp n) :
    q = { phase := ph, cycles := List.replicate brp.toNat none } := List.eq_of_mem_replicate h

/-- Every quantum of a fresh bit is as long as its phase's prescaler and has no override. -/
theorem newBit_cycles (sl : Slot) (k : FieldTag) (v : Level) (st : StuffKind) (q : TimeQuantum)
    (h : q ∈ (newBit sl k v st).tqs) :
    q.cycles = List.replicate ((newBit sl k v st).pbrp.get q.phase).toNat none := by
  simp only [newBit, List.mem_append] at h
  rcases h with ((h | h) | h) | h <;> obtain rfl := mem_freshQuanta h <;> rfl

/-- A fresh bit's quanta stand in phase order (R41). -/
theorem newBit_ordered (sl : Slot) (k : FieldTag) (v : Level) (st : StuffKind) :
    PhaseOrdered (newBit sl k v st).tqs := by
  simp only [PhaseOrdered, newBit, List.pairwise_append, List.mem_append]
  have fresh : ∀ (ph : Phase) (brp : Byte) (n : Nat),
      (freshQuanta ph brp n).Pairwise fun a b => a.phase.code ≤ b.phase.code := by
    intro ph brp n
    rw [freshQuanta, List.pairwise_replicate]
    exact .inr (Nat.le_refl _)
  refine ⟨⟨⟨fresh _ _ _, fresh _ _ _, ?_⟩, fresh _ _ _, ?_⟩, fresh _ _ _, ?_⟩ <;> intro a ha b hb <;>
    obtain rfl := mem_freshQuanta hb
  · obtain rfl := mem_freshQuanta ha
    simp [Phase.code]
  · rcases ha with ha | ha <;> obtain rfl := mem_freshQuanta ha <;> simp [Phase.code]
  · rcases ha with (ha | ha) | ha <;> obtain rfl := mem_freshQuanta ha <;> simp [Phase.code]

/-- How many quanta a fresh bit has. -/
theorem newBit_length (sl : Slot) (k : FieldTag) (v : Level) (st : StuffKind) :
    (newBit sl k v st).tqs.length = 1 + (phaseTiming sl k st .prop).prop.toNat
      + (phaseTiming sl k st .phase1).ph1.toNat + (phaseTiming sl k st .phase2).ph2.toNat := by
  simp [newBit, Nat.add_assoc]

/-- Outside FD with bit-rate shift every phase has the nominal timing (R171). -/
theorem phaseTiming_nominal {sl : Slot} (h : ¬(sl.fdf = true ∧ sl.brs = true)) (k : FieldTag) (st : StuffKind)
    (ph : Phase) : phaseTiming sl k st ph = sl.nbt := by
  have : (sl.fdf && sl.brs) = false := by cases h1 : sl.fdf <;> cases h2 : sl.brs <;> simp_all
  simp [phaseTiming, domain, this, Slot.timing]

/-- A fresh bit of a slot with legal copies has every prescaler at least 1 (R41, R47). -/
theorem phaseTiming_brp {sl : Slot} (h : CopiesOk sl) (k : FieldTag) (st : StuffKind) (ph : Phase) :
    1 ≤ (phaseTiming sl k st ph).brp.toNat := by
  obtain ⟨-, -, -, -, hn, -, hd⟩ := h
  by_cases hf : sl.fdf = true ∧ sl.brs = true
  · unfold phaseTiming
    cases domain sl k st ph
    · exact hn
    · exact (hd hf.1 hf.2).1
  · rw [phaseTiming_nominal hf]; exact hn

/-- A fresh bit of a slot with legal copies is a good bit: it has at most 766 quanta (R47, R172). -/
theorem newBit_ok {cfg : Config} (hc : cfg.Legal) {sl : Slot} (h : CopiesOk sl) (k : FieldTag) (v : Level)
    (st : StuffKind) : BitOk cfg (newBit sl k v st) := by
  refine ⟨newBit_ordered sl k v st, ?_, ?_, ?_⟩
  · have h1 := (phaseTiming sl k st .prop).prop.isLt
    have h2 := (phaseTiming sl k st .phase1).ph1.isLt
    have h3 := (phaseTiming sl k st .phase2).ph2.isLt
    have := hc.2.1
    rw [newBit_length]
    omega
  · intro q hq
    rw [newBit_cycles sl k v st q hq, List.length_replicate]
  · exact ⟨phaseTiming_brp h k st .sync, phaseTiming_brp h k st .prop, phaseTiming_brp h k st .phase1,
      phaseTiming_brp h k st .phase2⟩

/-- A phase has its timing's number of fresh quanta, Sync one (R172). -/
theorem newBit_count (sl : Slot) (k : FieldTag) (v : Level) (st : StuffKind) (ph : Phase) :
    ((newBit sl k v st).tqs.filter fun q => decide (q.phase = ph)).length =
      match ph with
      | .sync => 1
      | .prop => (phaseTiming sl k st ph).prop.toNat
      | .phase1 => (phaseTiming sl k st ph).ph1.toNat
      | .phase2 => (phaseTiming sl k st ph).ph2.toNat := by
  have keep : ∀ (ph : Phase) (brp : Byte) (n : Nat),
      (freshQuanta ph brp n).filter (fun q => decide (q.phase = ph)) = freshQuanta ph brp n := by
    intro ph brp n
    rw [List.filter_eq_self]
    intro q hq
    simp [mem_freshQuanta hq]
  have drop : ∀ (ph p : Phase) (brp : Byte) (n : Nat), p ≠ ph →
      (freshQuanta p brp n).filter (fun q => decide (q.phase = ph)) = [] := by
    intro ph p brp n hp
    rw [List.filter_eq_nil_iff]
    intro q hq
    simp [mem_freshQuanta hq, hp]
  cases ph <;> simp [newBit, List.filter_append, keep, drop]

/-- The timing of a phase: the data timing exactly where R171 says so. -/
theorem phaseTiming_eq (sl : Slot) (k : FieldTag) (st : StuffKind) (ph : Phase) :
    phaseTiming sl k st ph =
      if sl.fdf = true ∧ sl.brs = true ∧
          ((k = .brs ∧ (st ≠ .notStuff ∨ ph = .phase2)) ∨ (k = .crcDelimiter ∧ ph ≠ .phase2) ∨
            k = .esi ∨ k = .dlc ∨ k = .data ∨ k = .stuffCount ∨ k = .stuffParity ∨ k = .crc)
        then sl.dbt else sl.nbt := by
  by_cases h : sl.fdf = true ∧ sl.brs = true
  · rw [phaseTiming, domain, h.1, h.2]
    cases k <;> cases ph <;> simp [inDataPhase, Slot.timing] <;> cases st <;> simp
  · rw [phaseTiming_nominal h, if_neg fun c => h ⟨c.1, c.2.1⟩]

/-- A fresh bit with another value is a fresh bit of that value. -/
theorem newBit_withVal (sl : Slot) (k : FieldTag) (v l : Level) (st : StuffKind) :
    { newBit sl k v st with val := l } = newBit sl k l st := rfl

end Sys2Proof.Machine
end

