-- ==== Sys2Proof/Laws/Stuffing.lean ====
section
/-! SUPPORT. What writing a field, dynamic stuffing and fixed stuffing do to a bit sequence, and what a re-derived span
holds (spec/43_bitframe_build.md R252, R255, R256, R257, R259, R261). -/

namespace Sys2Proof.Machine

/-! ## WriteField (R259) -/

/-- Writing a field changes values only. -/
theorem writeFieldFrom_map {β : Type} (f : FrameBit → β)
    (hf : ∀ (b : FrameBit) (v : Level), f { b with val := v } = f b)
    (tag : FieldTag) (v w k : Nat) (bits : List FrameBit) :
    (writeFieldFrom tag v w k bits).map f = bits.map f := by
  induction bits generalizing k with
  | nil => rfl
  | cons b bs ih =>
    simp only [writeFieldFrom]
    split
    · split <;> simp [hf, ih]
    · simp [ih]

theorem writeField_map {β : Type} (f : FrameBit → β) (hf : ∀ (b : FrameBit) (v : Level), f { b with val := v } = f b)
    (tag : FieldTag) (v w : Nat) (bits : List FrameBit) : (writeField bits tag v w).map f = bits.map f :=
  writeFieldFrom_map f hf tag v w 0 bits

@[simp] theorem writeField_length (bits : List FrameBit) (tag : FieldTag) (v w : Nat) :
    (writeField bits tag v w).length = bits.length := by
  have := congrArg List.length (writeField_map (fun b => b.kind) (fun _ _ => rfl) tag v w bits)
  simpa using this

/-- Every bit after writing a field is a bit before it with another value. -/
theorem mem_writeFieldFrom {tag : FieldTag} {v w k : Nat} {bits : List FrameBit} {b : FrameBit}
    (h : b ∈ writeFieldFrom tag v w k bits) : ∃ c ∈ bits, ∃ l : Level, b = { c with val := l } := by
  induction bits generalizing k with
  | nil => simp [writeFieldFrom] at h
  | cons a as ih =>
    simp only [writeFieldFrom] at h
    split at h
    · rcases List.mem_cons.1 h with rfl | h
      · split
        · exact ⟨a, by simp, _, rfl⟩
        · exact ⟨a, by simp, a.val, rfl⟩
      · obtain ⟨c, hc, l, rfl⟩ := ih h
        exact ⟨c, by simp [hc], l, rfl⟩
    · rcases List.mem_cons.1 h with rfl | h
      · exact ⟨b, by simp, b.val, rfl⟩
      · obtain ⟨c, hc, l, rfl⟩ := ih h
        exact ⟨c, by simp [hc], l, rfl⟩

theorem mem_writeField {tag : FieldTag} {v w : Nat} {bits : List FrameBit} {b : FrameBit}
    (h : b ∈ writeField bits tag v w) : ∃ c ∈ bits, ∃ l : Level, b = { c with val := l } := mem_writeFieldFrom h

/-- Writing a field leaves the bits of every other tag whole. -/
theorem writeField_filter (p : FrameBit → Bool) (hp : ∀ (b : FrameBit) (v : Level), p { b with val := v } = p b)
    (tag : FieldTag) (hk : ∀ b : FrameBit, p b = true → b.kind ≠ tag) (v w : Nat) (bits : List FrameBit) :
    (writeField bits tag v w).filter p = bits.filter p := by
  unfold writeField
  generalize 0 = k
  induction bits generalizing k with
  | nil => rfl
  | cons b bs ih =>
    simp only [writeFieldFrom]
    split
    · have hb : p b = false := by
        cases h : p b with
        | false => rfl
        | true => simp_all
      split <;> simp [hp, hb, ih]
    · simp [List.filter_cons, ih]

/-- The bits before the first one of the written tag stay whole. -/
theorem writeField_takeWhile (p : FrameBit → Bool) (hp : ∀ (b : FrameBit) (v : Level), p { b with val := v } = p b)
    (tag : FieldTag) (hk : ∀ b : FrameBit, p b = true → b.kind ≠ tag) (v w : Nat) (bits : List FrameBit) :
    (writeField bits tag v w).takeWhile p = bits.takeWhile p := by
  unfold writeField
  generalize 0 = k
  induction bits generalizing k with
  | nil => rfl
  | cons b bs ih =>
    simp only [writeFieldFrom]
    split
    · have hb : p b = false := by
        cases h : p b with
        | false => rfl
        | true => simp_all
      split <;> simp [hp, hb]
    · simp [List.takeWhile_cons, ih]

/-- A second write of the same field replaces the first. -/
theorem writeField_writeField (tag : FieldTag) (v v' w : Nat) (bits : List FrameBit) :
    writeField (writeField bits tag v w) tag v' w = writeField bits tag v' w := by
  unfold writeField
  generalize 0 = k
  induction bits generalizing k with
  | nil => rfl
  | cons b bs ih =>
    simp only [writeFieldFrom]
    split
    · split <;> simp_all [writeFieldFrom]
    · simp_all [writeFieldFrom]

theorem writeFieldFrom_comm (t t' : FieldTag) (h : t ≠ t') (v v' w w' k k' : Nat) (bits : List FrameBit) :
    writeFieldFrom t' v' w' k' (writeFieldFrom t v w k bits) =
      writeFieldFrom t v w k (writeFieldFrom t' v' w' k' bits) := by
  induction bits generalizing k k' with
  | nil => rfl
  | cons b bs ih =>
    cases hs : b.stuff == .notStuff <;> by_cases h1 : b.kind = t <;> by_cases h2 : b.kind = t' <;>
      simp_all [writeFieldFrom] <;> split <;> simp_all

/-- Writes of different fields do not meet. -/
theorem writeField_comm (t t' : FieldTag) (h : t ≠ t') (v v' w w' : Nat) (bits : List FrameBit) :
    writeField (writeField bits t v w) t' v' w' = writeField (writeField bits t' v' w') t v w :=
  writeFieldFrom_comm t t' h v v' w w' 0 0 bits

/-- One more bit of a number, read from the top. -/
theorem div_two_pow_succ (v n : Nat) : 2 * (v / 2 ^ (n + 1)) + (v.testBit n).toNat = v / 2 ^ n := by
  rw [Nat.pow_succ, ← Nat.div_div_eq_div_mul, Nat.toNat_testBit]
  omega

theorem foldl_writeFieldFrom (tag : FieldTag) (v w k n : Nat) (bits : List FrameBit)
    (hn : bits.countP (fun b => b.kind == tag && b.stuff == .notStuff) = n) (hk : k + n = w) :
    ((writeFieldFrom tag v w k bits).filter fun b => b.kind == tag && b.stuff == .notStuff).foldl
      (fun n b => 2 * n + b.val.toBool.toNat) (v / 2 ^ n) = v := by
  induction bits generalizing k n with
  | nil => simp at hn; subst hn; simp [writeFieldFrom]
  | cons b bs ih =>
    cases hb : (b.kind == tag && b.stuff == .notStuff) with
    | false =>
      simp only [List.countP_cons, hb, Bool.false_eq_true, if_false, Nat.add_zero] at hn
      simp only [writeFieldFrom, hb]
      rw [if_neg (by simp), List.filter_cons_of_neg (by simp [hb])]
      exact ih k n hn hk
    | true =>
      simp only [List.countP_cons, hb, if_true] at hn
      have hkw : k < w := by omega
      simp only [writeFieldFrom, hb, if_pos, hkw]
      rw [List.filter_cons_of_pos (by simpa using hb), List.foldl_cons]
      obtain ⟨m, rfl⟩ : ∃ m, n = m + 1 := ⟨n - 1, by omega⟩
      have hm : w - 1 - k = m := by omega
      simp only [hm, Level.toBool_ofBool]
      rw [div_two_pow_succ]
      exact ih (k + 1) m (by omega) (by omega)

/-- A field of `w` NotStuff bits, written with `v`, spells `v`. -/
theorem fieldValue_writeField (tag : FieldTag) (v w : Nat) (bits : List FrameBit) (hv : v < 2 ^ w)
    (hw : bits.countP (fun b => b.kind == tag && b.stuff == .notStuff) = w) :
    fieldValue (writeField bits tag v w) tag = v := by
  have := foldl_writeFieldFrom tag v w 0 w bits hw (by omega)
  rwa [Nat.div_eq_of_lt hv] at this

/-! ## Dynamic stuffing (R252) -/

/-- Either a stuff bit is due after a run of five, or none is and the run goes on. -/
theorem stuffDue_cases (sl : Slot) (r : Option Run) :
    (∃ tag level, r = some ⟨tag, level, 5⟩ ∧ stuffDue sl r = some (newBit sl tag level.flip .normalStuff) ∧
      afterDue r = some ⟨tag, level.flip, 1⟩) ∨
    (stuffDue sl r = none ∧ afterDue r = r ∧ ∀ x, r = some x → x.len ≠ 5) := by
  rcases r with _ | ⟨tag, level, len⟩
  · exact .inr ⟨rfl, rfl, by simp⟩
  · by_cases h : len = 5
    · subst h; exact .inl ⟨tag, level, rfl, rfl, rfl⟩
    · refine .inr ⟨?_, ?_, by rintro x ⟨⟩; exact h⟩ <;> simp [stuffDue, afterDue] <;> split <;> simp_all

/-- What `DynStuff` puts out for one more bit: the due stuff bit, if any, and the bit. -/
theorem dynStuffFrom_cons (sl : Slot) (om : Bool) (r : Option Run) (b : FrameBit) (bs : List FrameBit) :
    (dynStuffFrom sl om r (b :: bs)).1 =
      (stuffDue sl r).toList ++ b :: (dynStuffFrom sl om (some (extendRun (afterDue r) b)) bs).1 ∧
    (dynStuffFrom sl om r (b :: bs)).2 =
      (stuffDue sl r).toList.length + (dynStuffFrom sl om (some (extendRun (afterDue r) b)) bs).2 := by
  simp only [dynStuffFrom]
  cases stuffDue sl r <;> simp [Nat.add_comm]

/-- What `DynStuff` puts out at the end: the due stuff bit, if any and if trailing ones are wanted. -/
theorem dynStuffFrom_nil (sl : Slot) (om : Bool) (r : Option Run) :
    (dynStuffFrom sl om r []).1 = (if om then [] else (stuffDue sl r).toList) ∧
    (dynStuffFrom sl om r []).2 = (if om then 0 else (stuffDue sl r).toList.length) := by
  simp only [dynStuffFrom]
  cases om <;> cases stuffDue sl r <;> simp

/-- A due stuff bit is labelled as one, and has the tag of the bit before it (R253). -/
theorem mem_stuffDue {sl : Slot} {r : Option Run} {d : FrameBit} (h : d ∈ (stuffDue sl r).toList) :
    ∃ x, r = some x ∧ d = newBit sl x.tag x.level.flip .normalStuff := by
  rcases stuffDue_cases sl r with ⟨tag, level, rfl, hd, -⟩ | ⟨hd, -⟩
  · rw [hd] at h
    exact ⟨_, rfl, by simpa using h⟩
  · simp [hd] at h

theorem stuffDue_stuff {sl : Slot} {r : Option Run} {d : FrameBit} (h : d ∈ (stuffDue sl r).toList) :
    d.stuff = .normalStuff := by
  obtain ⟨x, -, rfl⟩ := mem_stuffDue h
  rfl

/-- Every bit put out is a bit put in, or a dynamic stuff bit of this slot with the tag of one. -/
theorem mem_dynStuffFrom {sl : Slot} {om : Bool} {r : Option Run} {bits : List FrameBit} {b : FrameBit}
    (h : b ∈ (dynStuffFrom sl om r bits).1) :
    b ∈ bits ∨ ∃ tag level, b = newBit sl tag level .normalStuff ∧
      ((∃ x, r = some x ∧ x.tag = tag) ∨ ∃ c ∈ bits, c.kind = tag) := by
  induction bits generalizing r with
  | nil =>
    rw [(dynStuffFrom_nil sl om r).1] at h
    cases om
    · obtain ⟨x, hx, rfl⟩ := mem_stuffDue h
      exact .inr ⟨_, _, rfl, .inl ⟨x, hx, rfl⟩⟩
    · simp at h
  | cons c cs ih =>
    rw [(dynStuffFrom_cons sl om r c cs).1] at h
    rcases List.mem_append.1 h with h | h
    · obtain ⟨x, hx, rfl⟩ := mem_stuffDue h
      exact .inr ⟨_, _, rfl, .inl ⟨x, hx, rfl⟩⟩
    · rcases List.mem_cons.1 h with rfl | h
      · exact .inl (by simp)
      · rcases ih h with h | ⟨tag, level, rfl, ⟨x, hx, ht⟩ | ⟨d, hd, ht⟩⟩
        · exact .inl (by simp [h])
        · refine .inr ⟨tag, level, rfl, .inr ⟨c, by simp, ?_⟩⟩
          simp only [Option.some.injEq] at hx
          subst hx
          rw [← ht]
          unfold extendRun
          split <;> (try split) <;> rfl
        · exact .inr ⟨tag, level, rfl, .inr ⟨d, by simp [hd], ht⟩⟩

theorem mem_dynStuff {sl : Slot} {om : Bool} {bits : List FrameBit} {b : FrameBit} (h : b ∈ (dynStuff sl om bits).1) :
    b ∈ bits ∨ ∃ tag level, b = newBit sl tag level .normalStuff ∧ ∃ c ∈ bits, c.kind = tag := by
  rcases mem_dynStuffFrom h with h | ⟨tag, level, hb, ⟨x, hx, -⟩ | hc⟩
  · exact .inl h
  · cases hx
  · exact .inr ⟨tag, level, hb, hc⟩

/-- The bits put out, without the stuff bits, are the bits put in. -/
theorem dynStuffFrom_filter (sl : Slot) (om : Bool) (r : Option Run) (bits : List FrameBit)
    (h : ∀ b ∈ bits, b.stuff = .notStuff) :
    (dynStuffFrom sl om r bits).1.filter (fun b => b.stuff == .notStuff) = bits := by
  have hd : ∀ r, (stuffDue sl r).toList.filter (fun b => b.stuff == .notStuff) = [] := by
    intro r
    rw [List.filter_eq_nil_iff]
    intro d hd
    simp [stuffDue_stuff hd]
  induction bits generalizing r with
  | nil => rw [(dynStuffFrom_nil sl om r).1]; cases om <;> simp [hd]
  | cons b bs ih =>
    rw [(dynStuffFrom_cons sl om r b bs).1, List.filter_append, hd,
      List.filter_cons_of_pos (by simp [h b]), ih _ fun c hc => h c (by simp [hc])]
    rfl

theorem dynStuff_filter (sl : Slot) (om : Bool) (bits : List FrameBit) (h : ∀ b ∈ bits, b.stuff = .notStuff) :
    (dynStuff sl om bits).1.filter (fun b => b.stuff == .notStuff) = bits := dynStuffFrom_filter sl om none bits h

/-- The count is the number of dynamic stuff bits put out. -/
theorem dynStuffFrom_count (sl : Slot) (om : Bool) (r : Option Run) (bits : List FrameBit)
    (h : ∀ b ∈ bits, b.stuff = .notStuff) :
    (dynStuffFrom sl om r bits).1.countP (fun b => b.stuff == .normalStuff) = (dynStuffFrom sl om r bits).2 := by
  have hd : ∀ r, (stuffDue sl r).toList.countP (fun b => b.stuff == .normalStuff) = (stuffDue sl r).toList.length :=
    by
    intro r
    rw [List.countP_eq_length]
    intro d hd
    simp [stuffDue_stuff hd]
  induction bits generalizing r with
  | nil => rw [(dynStuffFrom_nil sl om r).1, (dynStuffFrom_nil sl om r).2]; cases om <;> simp [hd]
  | cons b bs ih =>
    rw [(dynStuffFrom_cons sl om r b bs).1, (dynStuffFrom_cons sl om r b bs).2, List.countP_append, hd,
      List.countP_cons_of_neg (by simp [h b]), ih _ fun c hc => h c (by simp [hc])]

theorem dynStuff_count (sl : Slot) (om : Bool) (bits : List FrameBit) (h : ∀ b ∈ bits, b.stuff = .notStuff) :
    (dynStuff sl om bits).1.countP (fun b => b.stuff == .normalStuff) = (dynStuff sl om bits).2 :=
  dynStuffFrom_count sl om none bits h

/-- As many bits come out as went in and were counted. -/
theorem dynStuffFrom_length (sl : Slot) (om : Bool) (r : Option Run) (bits : List FrameBit) :
    (dynStuffFrom sl om r bits).1.length = bits.length + (dynStuffFrom sl om r bits).2 := by
  induction bits generalizing r with
  | nil => rw [(dynStuffFrom_nil sl om r).1, (dynStuffFrom_nil sl om r).2]; cases om <;> simp
  | cons b bs ih =>
    rw [(dynStuffFrom_cons sl om r b bs).1, (dynStuffFrom_cons sl om r b bs).2, List.length_append, List.length_cons,
      List.length_cons, ih]
    omega

/-- The length of a run. -/
def runLength : Option Run → Nat
  | some r => r.len
  | none => 0

/-- At most one stuff bit for every four bits after the first. -/
theorem dynStuffFrom_bound (sl : Slot) (om : Bool) (r : Option Run) (bits : List FrameBit)
    (hr : runLength r ≤ 5) : (dynStuffFrom sl om r bits).2 ≤ (runLength r + bits.length - 1) / 4 := by
  induction bits generalizing r with
  | nil =>
    rw [(dynStuffFrom_nil sl om r).2]
    rcases stuffDue_cases sl r with ⟨tag, level, rfl, hd, -⟩ | ⟨hd, -, -⟩
    · cases om <;> simp [hd, runLength]
    · cases om <;> simp [hd]
  | cons b bs ih =>
    rw [(dynStuffFrom_cons sl om r b bs).2]
    rcases stuffDue_cases sl r with ⟨tag, level, rfl, hd, ha⟩ | ⟨hd, ha, hl⟩
    · have hx : runLength (some (extendRun (some ⟨tag, level.flip, 1⟩) b)) ≤ 2 := by
        simp only [extendRun]; split <;> simp [runLength]
      have := ih (some (extendRun (some ⟨tag, level.flip, 1⟩) b)) (by omega)
      rw [hd, ha]
      simp only [runLength, Option.toList_some, List.length_cons, List.length_nil] at *
      omega
    · have hx : runLength (some (extendRun r b)) ≤ runLength r + 1 := by
        rcases r with _ | ⟨t, l, n⟩
        · simp [extendRun, runLength]
        · simp only [extendRun]; split <;> simp [runLength]
      have hr' : runLength r < 5 := by
        rcases r with _ | x
        · simp [runLength]
        · have := hl x rfl
          simp only [runLength] at *
          omega
      have := ih (some (extendRun r b)) (by omega)
      rw [hd, ha]
      simp only [Option.toList_none, List.length_nil, List.length_cons] at *
      omega

/-- A stuffed sequence is at most a quarter longer. -/
theorem dynStuff_length_le (sl : Slot) (om : Bool) (bits : List FrameBit) :
    (dynStuff sl om bits).1.length ≤ bits.length + (bits.length - 1) / 4 := by
  have h1 := dynStuffFrom_length sl om none bits
  have h2 := dynStuffFrom_bound sl om none bits (by simp [runLength])
  simp only [runLength, Nat.zero_add] at h2
  unfold dynStuff
  omega

/-! ## Fixed stuffing (R255) -/

/-- Every bit put out is a bit of the region, or a fixed stuff bit of this slot with the tag of one. -/
theorem mem_fixStuffFrom {sl : Slot} {j : Nat} {p : Level} {bits : List FrameBit} {b : FrameBit}
    (h : b ∈ fixStuffFrom sl j p bits) :
    b ∈ bits ∨ ∃ level, ∃ c ∈ bits, b = newBit sl c.kind level .fixedStuff := by
  induction bits generalizing j p with
  | nil => simp [fixStuffFrom] at h
  | cons c cs ih =>
    simp only [fixStuffFrom] at h
    have key : b ∈ c :: fixStuffFrom sl (j + 1) c.val cs →
        b ∈ c :: cs ∨ ∃ level, ∃ d ∈ c :: cs, b = newBit sl d.kind level .fixedStuff := by
      intro h
      rcases List.mem_cons.1 h with rfl | h
      · exact .inl (by simp)
      · rcases ih h with h | ⟨level, d, hd, rfl⟩
        · exact .inl (by simp [h])
        · exact .inr ⟨level, d, by simp [hd], rfl⟩
    split at h
    · rcases List.mem_cons.1 h with rfl | h
      · exact .inr ⟨_, c, by simp, rfl⟩
      · exact key h
    · exact key h

/-- The bits put out, without the stuff bits, are the bits put in. -/
theorem fixStuffFrom_filter (sl : Slot) (j : Nat) (p : Level) (bits : List FrameBit)
    (h : ∀ b ∈ bits, b.stuff = .notStuff) :
    (fixStuffFrom sl j p bits).filter (fun b => b.stuff == .notStuff) = bits := by
  induction bits generalizing j p with
  | nil => rfl
  | cons b bs ih =>
    have hb := h b (by simp)
    have ih := fun j p => ih j p fun c hc => h c (by simp [hc])
    simp only [fixStuffFrom]
    split <;> simp [hb, ih]

/-- One fixed stuff bit before every fourth bit. -/
theorem fixStuffFrom_length (sl : Slot) (j : Nat) (p : Level) (bits : List FrameBit) :
    (fixStuffFrom sl j p bits).length = bits.length + ((j + bits.length + 3) / 4 - (j + 3) / 4) := by
  induction bits generalizing j p with
  | nil => simp [fixStuffFrom]
  | cons b bs ih =>
    simp only [fixStuffFrom]
    split <;> simp only [List.length_cons, ih] <;> omega

/-! ## Re-derivation (R261) -/

/-- The bits of a span are in the span. -/
theorem inSpan_of_mem_spanOf {bits : List FrameBit} {b : FrameBit} (h : b ∈ spanOf bits) : inSpan b = true :=
  List.mem_takeWhile_imp h

theorem logicalBits_notStuff {bits : List FrameBit} {b : FrameBit} (h : b ∈ logicalBits bits) :
    b.stuff = .notStuff ∧ inSpan b = true := by
  simp only [logicalBits, List.mem_filter, beq_iff_eq] at h
  exact ⟨h.2, inSpan_of_mem_spanOf h.1⟩

theorem spanOf_append_tailOf (bits : List FrameBit) : spanOf bits ++ tailOf bits = bits :=
  List.takeWhile_append_dropWhile

/-- Bits of the span put before a tail are the span of the whole, and the tail its tail. -/
theorem spanOf_append {pre bits : List FrameBit} (h : ∀ b ∈ pre, inSpan b = true) :
    spanOf (pre ++ tailOf bits) = pre ∧ tailOf (pre ++ tailOf bits) = tailOf bits := by
  have ht : (tailOf bits).takeWhile inSpan = [] ∧ (tailOf bits).dropWhile inSpan = tailOf bits := by
    unfold tailOf
    induction bits with
    | nil => simp
    | cons b bs ih => cases hb : inSpan b <;> simp [hb, ih]
  constructor
  · rw [spanOf, List.takeWhile_append_of_pos h, ht.1, List.append_nil]
  · rw [tailOf, List.dropWhile_append_of_pos h, ht.2]

/-- Writing a field keeps what does not look at values. -/
theorem writeField_all {p : FrameBit → Prop} (hp : ∀ (b : FrameBit) (v : Level), p b → p { b with val := v })
    {tag : FieldTag} {v w : Nat} {bits : List FrameBit} (h : ∀ b ∈ bits, p b) : ∀ b ∈ writeField bits tag v w, p b :=
      by
  intro b hb
  obtain ⟨c, hc, l, rfl⟩ := mem_writeField hb
  exact hp c l (h c hc)

theorem dynPart_append_fixedPart (p : List FrameBit) : dynPart p ++ fixedPart p = p :=
  List.takeWhile_append_dropWhile

theorem mem_dynPart {p : List FrameBit} {b : FrameBit} (h : b ∈ dynPart p) : b ∈ p ∧ opensFixedRegion b = false :=
  ⟨(List.takeWhile_sublist _).subset h, by simpa using List.mem_takeWhile_imp h⟩

theorem mem_fixedPart {p : List FrameBit} {b : FrameBit} (h : b ∈ fixedPart p) : b ∈ p :=
  (List.dropWhile_sublist _).subset h

theorem fixedPart_head {p : List FrameBit} {b : FrameBit} (h : (fixedPart p).head? = some b) :
    opensFixedRegion b = true := by
  induction p with
  | nil => simp [fixedPart] at h
  | cons a as ih => cases ha : opensFixedRegion a <;> simp_all [fixedPart]

/-- Bits that do not open the fixed region, before bits of which the first does, are the dynamic part, and the others
the fixed part. -/
theorem parts_append {d f : List FrameBit} (hd : ∀ b ∈ d, opensFixedRegion b = false)
    (hf : ∀ b, f.head? = some b → opensFixedRegion b = true) : dynPart (d ++ f) = d ∧ fixedPart (d ++ f) = f := by
  have hd' : ∀ b ∈ d, (!opensFixedRegion b) = true := fun b hb => by simp [hd b hb]
  have hf' : f.takeWhile (fun b => !opensFixedRegion b) = [] ∧ f.dropWhile (fun b => !opensFixedRegion b) = f := by
    cases f with
    | nil => simp
    | cons x xs => simp [hf x rfl]
  exact ⟨by rw [dynPart, List.takeWhile_append_of_pos hd', hf'.1, List.append_nil],
    by rw [fixedPart, List.dropWhile_append_of_pos hd', hf'.2]⟩

/-- The coded part differs from the fixed part in values only. -/
theorem codedPart_map {β : Type} (f : FrameBit → β) (hf : ∀ (b : FrameBit) (v : Level), f { b with val := v } = f b)
    (cfg : Config) (sl : Slot) (p : List FrameBit) : (codedPart cfg sl p).map f = (fixedPart p).map f := by
  rw [codedPart, writeField_map f hf, countedPart, writeField_map f hf, writeField_map f hf]

theorem codedPart_all {q : FrameBit → Prop} (hq : ∀ (b : FrameBit) (v : Level), q b → q { b with val := v })
    {cfg : Config} {sl : Slot} {p : List FrameBit} (h : ∀ b ∈ p, q b) : ∀ b ∈ codedPart cfg sl p, q b :=
  writeField_all hq (writeField_all hq (writeField_all hq fun b hb => h b (mem_fixedPart hb)))

theorem codedPart_head {cfg : Config} {sl : Slot} {p : List FrameBit} {b : FrameBit}
    (h : (codedPart cfg sl p).head? = some b) : opensFixedRegion b = true := by
  have h1 : ((codedPart cfg sl p).map opensFixedRegion).head? = some (opensFixedRegion b) := by simp [h]
  rw [codedPart_map _ (fun _ _ => rfl), List.head?_map] at h1
  cases h2 : (fixedPart p).head? with
  | none => simp [h2] at h1
  | some y =>
    simp only [h2, Option.map_some, Option.some.injEq] at h1
    rw [← h1, fixedPart_head h2]

/-- The logical bits with the derived fields written: what the new span is without its stuff bits (R261). -/
def rederived (cfg : Config) (sl : Slot) (p : List FrameBit) : List FrameBit :=
  if sl.fdf then dynPart p ++ codedPart cfg sl p else writeField p .crc (crcOfSpan cfg sl p) sl.crcKind.width

theorem restuffSpan_filter (cfg : Config) (sl : Slot) (p : List FrameBit) (h : ∀ b ∈ p, b.stuff = .notStuff) :
    (restuffSpan cfg sl p).filter (fun b => b.stuff == .notStuff) = rederived cfg sl p := by
  unfold restuffSpan rederived
  cases sl.fdf with
  | false => exact dynStuff_filter _ _ _ (writeField_all (fun _ _ h => h) h)
  | true =>
    simp only [if_true, restuffFd, fixStuff, stuffedDyn]
    rw [List.filter_append, dynStuff_filter _ _ _ (fun b hb => h b (mem_dynPart hb).1),
      fixStuffFrom_filter _ _ _ _ (codedPart_all (fun _ _ h => h) h)]

/-- Every bit of the new span has a tag that a logical bit has. -/
theorem restuffSpan_tags {q : FieldTag → Prop} (cfg : Config) (sl : Slot) (p : List FrameBit) (h : ∀ b ∈ p, q b.kind)
    :
    ∀ b ∈ restuffSpan cfg sl p, q b.kind := by
  have dyn : ∀ (om : Bool) (bits : List FrameBit), (∀ b ∈ bits, q b.kind) → ∀ b ∈ (dynStuff sl om bits).1,
    q b.kind := by
    intro om bits h b hb
    rcases mem_dynStuff hb with hb | ⟨tag, l, rfl, c, hc, rfl⟩
    · exact h b hb
    · exact h c hc
  unfold restuffSpan
  cases sl.fdf with
  | false => exact dyn _ _ (writeField_all (p := fun b => q b.kind) (fun _ _ h => h) h)
  | true =>
    intro b hb
    simp only [if_true, restuffFd, fixStuff, List.mem_append] at hb
    rcases hb with hb | hb
    · exact dyn _ _ (fun b hb => h b (mem_dynPart hb).1) b hb
    · have hc := codedPart_all (q := fun b => q b.kind) (fun _ _ h => h) (cfg := cfg) (sl := sl) h
      rcases mem_fixStuffFrom hb with hb | ⟨l, c, hc', rfl⟩
      · exact hc b hb
      · exact hc c hc'

/-- Span, tail and logical bits after re-derivation (R250, R251, R261). -/
theorem restuff_parts (cfg : Config) (sl : Slot) :
    spanOf (restuff cfg sl) = restuffSpan cfg sl (logicalBits sl.bits) ∧
    tailOf (restuff cfg sl) = tailOf sl.bits ∧
    logicalBits (restuff cfg sl) = rederived cfg sl (logicalBits sl.bits) := by
  have h := spanOf_append (bits := sl.bits) (restuffSpan_tags
    (q := fun k => decide (k.code ≤ FieldTag.crc.code) = true) cfg sl (logicalBits sl.bits)
    fun b hb => (logicalBits_notStuff hb).2)
  refine ⟨h.1, h.2, ?_⟩
  rw [logicalBits, restuff, h.1]
  exact restuffSpan_filter cfg sl _ fun b hb => (logicalBits_notStuff hb).1

/-- What is written into the Crc bits does not enter the CRC (R258). -/
theorem crcInput_writeField (cfg : Config) (fdf : Bool) (pre bits : List FrameBit) (v w : Nat) :
    crcInput cfg fdf (pre ++ writeField bits .crc v w) = crcInput cfg fdf (pre ++ bits) := by
  have key := writeField_takeWhile (fun b => b.kind != .crc) (fun _ _ => rfl) .crc
    (by intro b hb; simpa using hb) v w bits
  have : ((pre ++ writeField bits .crc v w).takeWhile fun b => b.kind != .crc) =
      ((pre ++ bits).takeWhile fun b => b.kind != .crc) := by
    induction pre with
    | nil => exact key
    | cons x xs ih => simp [List.takeWhile_cons, ih]
  unfold crcInput
  rw [this]

/-! ## A slot's bits do not matter to what is created in it -/

theorem dynStuffFrom_bits (sl : Slot) (bs : List FrameBit) (om : Bool) (r : Option Run) (bits : List FrameBit) :
    dynStuffFrom { sl with bits := bs } om r bits = dynStuffFrom sl om r bits := by
  have hd : ∀ r, stuffDue { sl with bits := bs } r = stuffDue sl r := fun _ => rfl
  induction bits generalizing r with
  | nil => simp only [dynStuffFrom, hd]
  | cons b bs ih => simp only [dynStuffFrom, hd, ih]

theorem fixStuffFrom_bits (sl : Slot) (bs : List FrameBit) (j : Nat) (p : Level) (bits : List FrameBit) :
    fixStuffFrom { sl with bits := bs } j p bits = fixStuffFrom sl j p bits := by
  have hn : ∀ k l st, newBit { sl with bits := bs } k l st = newBit sl k l st := fun _ _ _ => rfl
  induction bits generalizing j p with
  | nil => rfl
  | cons b bs ih => simp only [fixStuffFrom, hn, ih]

theorem restuffSpan_bits (cfg : Config) (sl : Slot) (bs p : List FrameBit) :
    restuffSpan cfg { sl with bits := bs } p = restuffSpan cfg sl p := by
  have hd : ∀ om bits, dynStuff { sl with bits := bs } om bits = dynStuff sl om bits :=
    fun om bits => dynStuffFrom_bits sl bs om none bits
  have hs : stuffedDyn cfg { sl with bits := bs } p = stuffedDyn cfg sl p := by simp only [stuffedDyn, hd]
  have hk : ({ sl with bits := bs } : Slot).crcKind = sl.crcKind := rfl
  have hc : countedPart cfg { sl with bits := bs } p = countedPart cfg sl p := by simp only [countedPart, hs]
  have hco : codedPart cfg { sl with bits := bs } p = codedPart cfg sl p := by
    simp only [codedPart, crcOfSpan, hs, hc, hk]
  simp only [restuffSpan, restuffFd, restuffClassical, fixStuff, fixStuffFrom_bits, hs, hco, hd, crcOfSpan, hk]

/-! ## Created bits (R172) -/

/-- Every stuff bit of the new span is one that NewBit makes in the slot (R172, R252, R255). -/
theorem restuffSpan_stuff {cfg : Config} {sl : Slot} {p : List FrameBit} {b : FrameBit}
    (h : ∀ b ∈ p, b.stuff = .notStuff) (hb : b ∈ restuffSpan cfg sl p) (hs : b.stuff ≠ .notStuff) :
    b = newBit sl b.kind b.val b.stuff := by
  have dyn : ∀ {om : Bool} {bits : List FrameBit}, (∀ b ∈ bits, b.stuff = .notStuff) →
      b ∈ (dynStuff sl om bits).1 → b = newBit sl b.kind b.val b.stuff := by
    intro om bits h hb
    rcases mem_dynStuff hb with hb | ⟨tag, l, rfl, -⟩
    · exact absurd (h b hb) hs
    · rfl
  unfold restuffSpan at hb
  cases hf : sl.fdf with
  | false =>
    rw [hf] at hb
    exact dyn (writeField_all (fun _ _ h => h) h) hb
  | true =>
    rw [hf] at hb
    simp only [if_true, restuffFd, fixStuff, List.mem_append] at hb
    rcases hb with hb | hb
    · exact dyn (fun b hb => h b (mem_dynPart hb).1) hb
    · rcases mem_fixStuffFrom hb with hb | ⟨l, c, -, rfl⟩
      · exact absurd (codedPart_all (q := fun b => b.stuff = .notStuff) (fun _ _ h => h) h b hb) hs
      · rfl

/-- Where every logical bit is one that NewBit makes in the slot, every bit of the new span is (R172, R261, R263). -/
theorem restuffSpan_fresh {cfg : Config} {sl : Slot} {p : List FrameBit}
    (h : ∀ b ∈ p, b.stuff = .notStuff) (hn : ∀ b ∈ p, b = newBit sl b.kind b.val b.stuff) :
    ∀ b ∈ restuffSpan cfg sl p, b = newBit sl b.kind b.val b.stuff := by
  intro b hb
  by_cases hs : b.stuff = .notStuff
  · have hr : b ∈ rederived cfg sl p := by
      rw [← restuffSpan_filter cfg sl p h, List.mem_filter]
      exact ⟨hb, by simp [hs]⟩
    have keep : ∀ (b : FrameBit) (v : Level), b = newBit sl b.kind b.val b.stuff →
        ({ b with val := v } : FrameBit) = newBit sl b.kind v b.stuff := by
      intro b v hb
      rw [hb]
      rfl
    unfold rederived at hr
    cases hf : sl.fdf with
    | false =>
      rw [hf] at hr
      exact writeField_all (p := fun b => b = newBit sl b.kind b.val b.stuff) keep hn b hr
    | true =>
      rw [hf] at hr
      rcases List.mem_append.1 hr with hr | hr
      · exact hn b (mem_dynPart hr).1
      · exact codedPart_all (q := fun b => b = newBit sl b.kind b.val b.stuff) keep hn b hr
  · exact restuffSpan_stuff h hb hs

/-! ## The derived fields (R256, R257) -/

/-- The CRC register after a sequence, as the recurrence of R257 on numbers. -/
theorem crcFrom_eq_foldl (w : CrcKind) (start : Nat) (xs : List Level) :
    crcFrom w start xs = xs.foldl (fun c x =>
      if (x.toBool.toNat + c / 2 ^ (w.width - 1)) % 2 = 1 then (2 * c) % 2 ^ w.width ^^^ w.poly
      else (2 * c) % 2 ^ w.width) start := by
  have step : ∀ c x, crcStep w c x = if (x.toBool.toNat + c / 2 ^ (w.width - 1)) % 2 = 1 then
      (2 * c) % 2 ^ w.width ^^^ w.poly else (2 * c) % 2 ^ w.width := by
    intro c x
    have hb : Bool.xor x.toBool (c.testBit (w.width - 1)) =
        decide ((x.toBool.toNat + c / 2 ^ (w.width - 1)) % 2 = 1) := by
      rw [Nat.testBit_eq_decide_div_mod_eq]
      generalize c / 2 ^ (w.width - 1) = q
      rcases Nat.mod_two_eq_zero_or_one q with hq | hq <;>
        cases x.toBool <;> simp [Nat.add_mod, hq]
    simp only [crcStep, hb, Nat.shiftLeft_eq, Nat.pow_one, Nat.mul_comm c 2, decide_eq_true_eq]
  rw [crcFrom]
  congr 1
  funext c x
  exact step c x

/-- Only the NotStuff bits spell a field. -/
theorem fieldValue_notStuff (bits : List FrameBit) (t : FieldTag) :
    fieldValue (bits.filter fun b => b.stuff == .notStuff) t = fieldValue bits t := by
  unfold fieldValue
  rw [List.filter_filter]
  congr 2
  funext b
  cases b.stuff == .notStuff <;> simp

/-- Bits of other tags in front do not spell the field. -/
theorem fieldValue_append {d f : List FrameBit} {t : FieldTag} (h : ∀ b ∈ d, b.kind ≠ t) :
    fieldValue (d ++ f) t = fieldValue f t := by
  have : d.filter (fun b => b.kind == t && b.stuff == .notStuff) = [] := by
    rw [List.filter_eq_nil_iff]
    intro b hb
    simp [h b hb]
  rw [fieldValue, List.filter_append, this, List.nil_append]
  rfl

/-- How many NotStuff bits of a tag there are does not change with what is written. -/
theorem writeField_count (t tag : FieldTag) (v w : Nat) (bits : List FrameBit) :
    (writeField bits tag v w).countP (fun b => b.kind == t && b.stuff == .notStuff) =
      bits.countP (fun b => b.kind == t && b.stuff == .notStuff) := by
  have := congrArg (List.countP id)
    (writeField_map (fun b => b.kind == t && b.stuff == .notStuff) (fun _ _ => rfl) tag v w bits)
  simpa only [List.countP_map, Function.comp_def, id] using this

/-- What a re-derived FD span spells for a field of the fixed region (R261). -/
theorem fieldValue_restuffFd {cfg : Config} {sl : Slot} {p : List FrameBit} {t : FieldTag} (hf : sl.fdf = true)
    (h : ∀ b ∈ p, b.stuff = .notStuff) (ht : ∀ b : FrameBit, b.kind = t → opensFixedRegion b = true) :
    fieldValue (restuffSpan cfg sl p) t = fieldValue (codedPart cfg sl p) t := by
  rw [← fieldValue_notStuff, restuffSpan_filter cfg sl p h, rederived, if_pos hf]
  refine fieldValue_append fun b hb hk => ?_
  have := (mem_dynPart hb).2
  rw [ht b hk] at this
  cases this

/-- The bits of a tag of the fixed region all stand in the fixed part. -/
theorem fixedPart_count {p : List FrameBit} {t : FieldTag}
    (ht : ∀ b : FrameBit, b.kind = t → opensFixedRegion b = true) :
    (fixedPart p).countP (fun b => b.kind == t && b.stuff == .notStuff) =
      p.countP (fun b => b.kind == t && b.stuff == .notStuff) := by
  conv_rhs => rw [← dynPart_append_fixedPart p, List.countP_append]
  have : (dynPart p).countP (fun b => b.kind == t && b.stuff == .notStuff) = 0 := by
    rw [List.countP_eq_zero]
    intro b hb hk
    simp only [Bool.and_eq_true, beq_iff_eq] at hk
    have := (mem_dynPart hb).2
    rw [ht b hk.1] at this
    cases this
  omega

/-- The stuff count and the parity of a re-derived FD span (R256, R261): each spells its number where there are as many
logical bits of it as the field has. -/
theorem rederived_stuffCount {cfg : Config} {sl : Slot} {p : List FrameBit} (hf : sl.fdf = true)
    (h : ∀ b ∈ p, b.stuff = .notStuff) :
    (p.countP (fun b => b.kind == .stuffCount && b.stuff == .notStuff) = 3 →
      fieldValue (restuffSpan cfg sl p) .stuffCount = stuffGray (stuffedDyn cfg sl p).2) ∧
    (p.countP (fun b => b.kind == .stuffParity && b.stuff == .notStuff) = 1 →
      fieldValue (restuffSpan cfg sl p) .stuffParity = grayParity (stuffGray (stuffedDyn cfg sl p).2)) := by
  have hc : ∀ b : FrameBit, b.kind = .stuffCount → opensFixedRegion b = true := fun b hb => by
    simp [opensFixedRegion, hb]
  have hp : ∀ b : FrameBit, b.kind = .stuffParity → opensFixedRegion b = true := fun b hb => by
    simp [opensFixedRegion, hb]
  constructor
  · intro hn
    rw [fieldValue_restuffFd hf h hc, codedPart, countedPart, writeField_comm .stuffCount .stuffParity (by decide),
      writeField_comm .stuffCount .crc (by decide)]
    refine fieldValue_writeField _ _ _ _ ?_ ?_
    · exact (Nat.xor_lt_two_pow (n := 3) (Nat.mod_lt _ (by decide))
        (Nat.lt_of_le_of_lt (Nat.shiftRight_le _ _) (Nat.mod_lt _ (by decide))))
    · rw [writeField_count, writeField_count, fixedPart_count hc, hn]
  · intro hn
    rw [fieldValue_restuffFd hf h hp, codedPart, countedPart, writeField_comm .stuffParity .crc (by decide)]
    refine fieldValue_writeField _ _ _ _ (Nat.mod_lt _ (by decide)) ?_
    rw [writeField_count, writeField_count, fixedPart_count hp, hn]

/-- The Gray code and its parity in the number's own terms (R256). -/
theorem stuffGray_eq (n : Nat) : stuffGray n = n % 8 ^^^ (n % 8) / 2 ∧ grayParity (stuffGray n) = n % 8 % 2 := by
  have : ∀ m : Fin 8, m.val ^^^ m.val >>> 1 = m.val ^^^ m.val / 2 ∧ grayParity (m.val ^^^ m.val >>> 1) = m.val % 2 := by
    decide
  exact this ⟨n % 8, Nat.mod_lt _ (by decide)⟩

/-- The number of NormalStuff bits in the new span of an FD slot is the count that enters the stuff count (R256). -/
theorem restuffFd_count {cfg : Config} {sl : Slot} {p : List FrameBit} (hf : sl.fdf = true)
    (h : ∀ b ∈ p, b.stuff = .notStuff) :
    (restuffSpan cfg sl p).countP (fun b => b.stuff == .normalStuff) = (stuffedDyn cfg sl p).2 := by
  have h0 : ∀ j l, (fixStuffFrom sl j l (codedPart cfg sl p)).countP (fun b => b.stuff == .normalStuff) = 0 := by
    intro j l
    rw [List.countP_eq_zero]
    intro b hb
    rcases mem_fixStuffFrom hb with hb | ⟨l, c, -, rfl⟩
    · simp [codedPart_all (q := fun b => b.stuff = .notStuff) (fun _ _ h => h) h b hb]
    · simp
  rw [restuffSpan, if_pos hf, restuffFd, fixStuff, List.countP_append, h0, Nat.add_zero, stuffedDyn,
    dynStuff_count _ _ _ fun b hb => h b (mem_dynPart hb).1]

/-- Writing a field writes it (R259). -/
theorem fieldWritten_writeFieldFrom (t : FieldTag) (w v j : Nat) (bits : List FrameBit) (k : Nat) (b : FrameBit)
    (h : (fieldBits bits t)[k]? = some b) :
    (fieldBits (writeFieldFrom t v w j bits) t)[k]? = some
      { b with val := if j + k < w then
          (if v / 2 ^ (w - 1 - (j + k)) % 2 = 1 then .recessive else .dominant) else b.val } := by
  induction bits generalizing j k with
  | nil => simp [fieldBits] at h
  | cons x xs ih =>
    cases hx : (x.kind == t && x.stuff == .notStuff) with
    | false =>
      rw [fieldBits, List.filter_cons_of_neg (by simp [hx])] at h
      rw [writeFieldFrom, if_neg (by simp [hx]), fieldBits, List.filter_cons_of_neg (by simp [hx])]
      exact ih j k h
    | true =>
      rw [fieldBits, List.filter_cons_of_pos (by simpa using hx)] at h
      rw [writeFieldFrom, if_pos (by simpa using hx), fieldBits,
        List.filter_cons_of_pos (by split <;> simpa using hx)]
      cases k with
      | zero =>
        simp only [List.getElem?_cons_zero, Option.some.injEq, Nat.add_zero] at h ⊢
        subst h
        split
        · rw [Nat.testBit_eq_decide_div_mod_eq]
          by_cases hd : v / 2 ^ (w - 1 - j) % 2 = 1 <;> simp [hd, Level.ofBool]
        · rfl
      | succ k =>
        simp only [List.getElem?_cons_succ] at h ⊢
        rw [show j + (k + 1) = j + 1 + k by omega]
        exact ih (j + 1) k h

theorem fieldWritten_writeField (t : FieldTag) (w v : Nat) (bits : List FrameBit) :
    FieldWritten t w v bits (writeField bits t v w) := by
  refine ⟨?_, fun k b h => ?_⟩
  · simpa only [fieldBits, List.countP_eq_length_filter] using writeField_count t t v w bits
  · have := fieldWritten_writeFieldFrom t w v 0 bits k b h
    rwa [Nat.zero_add] at this

end Sys2Proof.Machine
end

