-- ==== Sys2Proof/Laws/Restuff.lean ====
section
/-! SUPPORT. `Restuff` applied twice (spec/43_bitframe_build.md R261, R277), the runs of a stuffed sequence
(R252, R255, R275), and the rule by which stuff bits stand in it (R252 to R255). -/

namespace Sys2Proof.Machine

/-- Re-deriving the re-derived logical bits gives the same span (R261). -/
theorem rederived_idem (cfg : Config) (sl : Slot) (p : List FrameBit) :
    restuffSpan cfg sl (rederived cfg sl p) = restuffSpan cfg sl p := by
  unfold restuffSpan rederived
  cases hf : sl.fdf with
  | false =>
    have := crcInput_writeField cfg sl.fdf [] p (crcOf sl.crcKind (crcInput cfg sl.fdf p)) sl.crcKind.width
    simp only [List.nil_append] at this
    simp only [Bool.false_eq_true, if_false, restuffClassical, crcOfSpan]
    rw [this, writeField_writeField]
  | true =>
    have hp := parts_append (d := dynPart p) (f := codedPart cfg sl p) (fun b hb => (mem_dynPart hb).2)
      (fun b hb => codedPart_head hb)
    have he : (codedPart cfg sl p).isEmpty = (fixedPart p).isEmpty := by
      have := congrArg List.length (codedPart_map opensFixedRegion (fun _ _ => rfl) cfg sl p)
      simp only [List.length_map] at this
      rw [Bool.eq_iff_iff, List.isEmpty_iff_length_eq_zero, List.isEmpty_iff_length_eq_zero, this]
    have hs : stuffedDyn cfg sl (dynPart p ++ codedPart cfg sl p) = stuffedDyn cfg sl p := by
      simp only [stuffedDyn, hp.1, hp.2, he]
    have hc : countedPart cfg sl (dynPart p ++ codedPart cfg sl p) = codedPart cfg sl p := by
      conv_lhs => rw [countedPart]
      rw [hs, hp.2]
      rw [codedPart, writeField_comm .crc .stuffCount (by decide), writeField_comm .crc .stuffParity (by decide),
        countedPart]
      rw [writeField_comm .stuffParity .stuffCount (by decide), writeField_writeField, writeField_writeField]
    simp only [if_true, restuffFd, hs]
    congr 1
    conv_lhs => rw [codedPart]
    rw [hc, hs, crcOfSpan, codedPart, crcInput_writeField, ← crcOfSpan, writeField_writeField]

/-- `Restuff` of what `Restuff` made (R261, R277). -/
theorem restuff_idem (cfg : Config) (sl : Slot) :
    restuff cfg { sl with bits := restuff cfg sl } = restuff cfg sl := by
  obtain ⟨-, h2, h3⟩ := restuff_parts cfg sl
  conv_lhs => rw [restuff]
  simp only [h2, h3]
  have : ∀ p, restuffSpan cfg { sl with bits := restuff cfg sl } p = restuffSpan cfg sl p :=
    fun p => restuffSpan_bits _ _ _ _
  rw [this, rederived_idem]; rfl

/-! ## Runs of levels -/

/-- The levels so far end in a run: `pre` is `front`, which does not end in `lv`, and then `n` times `lv`. -/
def EndsInRun (pre : List Level) (lv : Level) (n : Nat) : Prop :=
  ∃ front, pre = front ++ List.replicate n lv ∧ front.getLast? ≠ some lv

/-- No six equal levels in a row. -/
def SixFree (l : List Level) : Prop := ∀ (v : Level) (a b : List Level), l ≠ a ++ List.replicate 6 v ++ b

/-- One more of the run's level. -/
theorem EndsInRun.same {pre lv n} (h : EndsInRun pre lv n) : EndsInRun (pre ++ [lv]) lv (n + 1) := by
  obtain ⟨front, rfl, hf⟩ := h
  refine ⟨front, ?_, hf⟩
  rw [List.replicate_succ', List.append_assoc]

/-- Another level starts a run of one. -/
theorem EndsInRun.other {pre : List Level} {lv n v} (h : EndsInRun pre lv n) (hn : 1 ≤ n) (hv : v ≠ lv) : EndsInRun
    (pre ++ [v]) v 1 := by
  obtain ⟨front, rfl, hf⟩ := h
  refine ⟨front ++ List.replicate n lv, by simp, ?_⟩
  obtain ⟨m, rfl⟩ : ∃ m, n = m + 1 := ⟨n - 1, by omega⟩
  rw [List.replicate_succ', ← List.append_assoc, List.getLast?_concat]
  intro h; exact hv (Option.some.inj h).symm

/-- A single level is a run of one. -/
theorem EndsInRun.first (v : Level) : EndsInRun [v] v 1 := ⟨[], rfl, by simp⟩

/-- Equal levels at the end all belong to the last run. -/
theorem replicate_suffix {front a : List Level} {lv v : Level} {n m : Nat}
    (h : front ++ List.replicate n lv = a ++ List.replicate m v)
    (hn : 1 ≤ n) (hf : front.getLast? ≠ some lv) (hm : 1 ≤ m) : v = lv ∧ m ≤ n := by
  obtain ⟨n, rfl⟩ : ∃ k, n = k + 1 := ⟨n - 1, by omega⟩
  obtain ⟨m, rfl⟩ : ∃ k, m = k + 1 := ⟨m - 1, by omega⟩
  clear hn hm
  induction n generalizing m with
  | zero =>
    cases m with
    | zero =>
      simp only [List.replicate_succ', ← List.append_assoc] at h
      have := List.append_inj_right' h rfl
      simp_all
    | succ m =>
      simp only [List.replicate_succ', ← List.append_assoc] at h
      have h1 := List.append_inj_right' h rfl
      have h2 := List.append_inj_left' h rfl
      simp only [List.cons.injEq, and_true] at h1
      subst h1
      simp only [List.replicate_zero, List.append_nil] at h2
      rw [h2, List.getLast?_concat] at hf
      exact absurd rfl hf
  | succ n ih =>
    cases m with
    | zero => 
      simp only [List.replicate_succ', ← List.append_assoc] at h
      have h1 := List.append_inj_right' h rfl
      simp only [List.cons.injEq, and_true] at h1
      exact ⟨h1.symm, by omega⟩
    | succ m =>
      rw [List.replicate_succ' (n := n+1), List.replicate_succ' (n := m + 1), ← List.append_assoc,
        ← List.append_assoc] at h
      have h2 := List.append_inj_left' h rfl
      obtain ⟨h3, h4⟩ := ih m h2
      exact ⟨h3, by omega⟩

/-- A level that makes the last run no longer than five keeps the sequence free of six. -/
theorem SixFree.snoc {pre : List Level} {v} {n : Nat} (h : SixFree pre) (hr : EndsInRun (pre ++ [v]) v n)
    (h1 : 1 ≤ n) (hn : n ≤ 5) :
    SixFree (pre ++ [v]) := by
  intro w a b hab
  rcases List.eq_nil_or_concat b with rfl | ⟨b', x, rfl⟩
  · obtain ⟨front, hfr, hf⟩ := hr
    rw [hfr, List.append_nil] at hab
    have := (replicate_suffix hab h1 hf (by omega)).2
    omega
  · rw [List.concat_eq_append, ← List.append_assoc] at hab
    exact h w a b' (List.append_inj_left' hab rfl)

/-- Every NormalStuff bit follows five equal levels of the opposite value, `pre` standing before. -/
def StuffOk (pre : List Level) : List FrameBit → Prop
  | [] => True
  | b :: bs => (b.stuff = .normalStuff → ∃ front, pre = front ++ List.replicate 5 b.val.flip) ∧
    StuffOk (pre ++ [b.val]) bs

/-- The run describes the end of the levels so far. -/
def RunDesc (pre : List Level) (r : Option Run) : Prop :=
  match r with
  | none => pre = []
  | some x => EndsInRun pre x.level x.len ∧ 1 ≤ x.len ∧ x.len ≤ 5

theorem ne_flip {a b : Level} (h : a ≠ b) : a = b.flip := by cases a <;> cases b <;> simp_all [Level.flip]

/-- One more bit where no stuff bit is due. -/
theorem RunDesc.extend {pre r} {b : FrameBit} (h : RunDesc pre r) (hl : ∀ x, r = some x → x.len ≠ 5)
    (h6 : SixFree pre) :
    RunDesc (pre ++ [b.val]) (some (extendRun r b)) ∧ SixFree (pre ++ [b.val]) := by
  rcases r with _ | ⟨t, lv, n⟩
  · simp only [RunDesc] at h
    subst h
    have := EndsInRun.first b.val
    exact ⟨⟨this, by simp [extendRun], by simp [extendRun]⟩, SixFree.snoc h6 this (by omega) (by omega)⟩
  · obtain ⟨h1, h2, h3⟩ := h
    have h5 := hl _ rfl
    dsimp only at *
    by_cases hv : b.val = lv
    · have := h1.same
      rw [← hv] at this
      refine ⟨?_, h6.snoc this (by omega) (by omega)⟩
      simp only [extendRun, hv, if_true, RunDesc]
      rw [← hv]
      exact ⟨this, by omega, by omega⟩
    · have := h1.other h2 hv
      refine ⟨?_, h6.snoc this (by omega) (by omega)⟩
      simp only [extendRun, hv, if_false, RunDesc]
      exact ⟨this, by omega, by omega⟩

/-- The due stuff bit, if any. -/
theorem RunDesc.due {sl pre r} (h : RunDesc pre r) (h6 : SixFree pre) :
    RunDesc (pre ++ (stuffDue sl r).toList.map (·.val)) (afterDue r) ∧
      SixFree (pre ++ (stuffDue sl r).toList.map (·.val)) ∧ StuffOk pre (stuffDue sl r).toList ∧
      ∀ x, afterDue r = some x → x.len ≠ 5 := by
  rcases stuffDue_cases sl r with ⟨tag, lv, rfl, hd, ha⟩ | ⟨hd, ha, hl⟩
  · obtain ⟨h1, -, -⟩ := h
    have := h1.other (Nat.le_add_left 1 4) (Level.flip_ne lv)
    rw [hd, ha]
    simp only [Option.toList_some, List.map_cons, List.map_nil, newBit_val]
    refine ⟨⟨this, by simp, by simp⟩, h6.snoc this (by omega) (by omega), ⟨?_, trivial⟩, by rintro x ⟨⟩; simp⟩
    intro _
    obtain ⟨front, hf, -⟩ := h1
    exact ⟨front, by simpa using hf⟩
  · rw [hd, ha]
    simpa [StuffOk] using ⟨h, h6, hl⟩

theorem StuffOk_append {pre : List Level} {a b : List FrameBit} (h : StuffOk pre a)
    (h' : StuffOk (pre ++ a.map (·.val)) b) :
    StuffOk pre (a ++ b) := by
  induction a generalizing pre with
  | nil => simpa using h'
  | cons x xs ih => 
    refine ⟨h.1, ih h.2 ?_⟩
    simpa using h'

/-- Dynamic stuffing keeps the sequence free of six, every stuff bit follows five equal levels, and the last run is
known. -/
theorem dynStuffFrom_ok (sl : Slot) (om : Bool) (bits : List FrameBit) (hb : ∀ b ∈ bits, b.stuff = .notStuff)
    (pre : List Level) (r : Option Run)
    (h : RunDesc pre r) (h6 : SixFree pre) :
    SixFree (pre ++ (dynStuffFrom sl om r bits).1.map (·.val)) ∧ StuffOk pre (dynStuffFrom sl om r bits).1 ∧
      ∃ r', RunDesc (pre ++ (dynStuffFrom sl om r bits).1.map (·.val)) r' := by
  induction bits generalizing pre r with
  | nil =>
    rw [(dynStuffFrom_nil sl om r).1]
    obtain ⟨h1, h2, h3, -⟩ := h.due (sl := sl) h6
    cases om
    · exact ⟨h2, h3, _, h1⟩
    · exact ⟨by simpa using h6, trivial, r, by simpa using h⟩
  | cons b bs ih =>
    rw [(dynStuffFrom_cons sl om r b bs).1]
    obtain ⟨h1, h2, h3, h4⟩ := h.due (sl := sl) h6
    obtain ⟨g1, g2⟩ := h1.extend (b := b) h4 h2
    obtain ⟨k1, k2, r', k3⟩ := ih (fun c hc => hb c (by simp [hc])) _ _ g1 g2
    have e : pre ++ List.map (·.val) ((stuffDue sl r).toList ++ b ::
      (dynStuffFrom sl om (some (extendRun (afterDue r) b)) bs).1)
      = pre ++ List.map (·.val) (stuffDue sl r).toList ++ [b.val] ++ List.map (·.val) (dynStuffFrom sl om (some (extendRun (afterDue r) b)) bs).1 := by simp
    rw [e]
    refine ⟨k1, StuffOk_append h3 ⟨?_, k2⟩, r', k3⟩
    intro hh; rw [hb b (by simp)] at hh; cases hh

/-- Fixed stuffing keeps the sequence free of six and puts out no NormalStuff bit. -/
theorem fixStuffFrom_ok (sl : Slot) (bits : List FrameBit) (hb : ∀ b ∈ bits, b.stuff = .notStuff) (pre : List Level)
    (j : Nat) (p : Level) (lv : Level) (n : Nat)
    (h : (pre = [] ∧ j % 4 = 0) ∨ (EndsInRun pre lv n ∧ 1 ≤ n ∧ p = lv ∧
      n ≤ (if j % 4 = 0 then 5 else j % 4 + 1)))  (h6 : SixFree pre) :
    SixFree (pre ++ (fixStuffFrom sl j p bits).map (·.val)) ∧ StuffOk pre (fixStuffFrom sl j p bits) := by
  induction bits generalizing pre j p lv n with
  | nil => simpa [fixStuffFrom, StuffOk] using h6
  | cons b bs ih =>
    have hbb := hb b (by simp)
    have ih := ih fun c hc => hb c (by simp [hc])
    have step : ∀ (pre : List Level) (lv : Level) (n : Nat), EndsInRun pre lv n → 1 ≤ n → n ≤ j % 4 + 1 →
      SixFree pre →
        SixFree (pre ++ [b.val] ++ (fixStuffFrom sl (j + 1) b.val bs).map (·.val)) ∧
          StuffOk (pre ++ [b.val]) (fixStuffFrom sl (j + 1) b.val bs) := by
      intro pre lv n h1 h2 h3 h6
      by_cases hv : b.val = lv
      · have := h1.same
        rw [← hv] at this
        refine ih _ _ _ b.val (n + 1) (.inr ⟨this, by omega, rfl, ?_⟩) (h6.snoc this (by omega) (by omega))
        split <;> omega
      · have := h1.other h2 hv
        refine ih _ _ _ b.val 1 (.inr ⟨this, by omega, rfl, ?_⟩) (h6.snoc this (by omega) (by omega))
        split <;> omega
    simp only [fixStuffFrom]
    split
    · rename_i hj
      have hF : EndsInRun (pre ++ [p.flip]) p.flip 1 := by
        rcases h with ⟨rfl, -⟩ | ⟨h1, h2, rfl, -⟩
        · exact EndsInRun.first _
        · exact h1.other h2 (Level.flip_ne p)
      obtain ⟨g1, g2⟩ := step _ _ _ hF (by omega) (by omega) (h6.snoc hF (by omega) (by omega))
      refine ⟨by simpa using g1, ?_, ?_, g2⟩
      · simp [newBit]
      · simp [hbb]
    · rename_i hj
      rcases h with ⟨rfl, h⟩ | ⟨h1, h2, rfl, h3⟩
      · exact absurd h hj
      · simp only [hj, if_false] at h3
        obtain ⟨g1, g2⟩ := step _ _ _ h1 h2 h3 h6
        exact ⟨by simpa using g1, by simp [hbb], g2⟩

/-! ## The stuffing rule (R252 to R255) -/

/-- The first bit put out has the tag of the first bit of the region (R253). -/
theorem fixStuffFrom_head {sl : Slot} {p : Level} {f : List FrameBit}
    (hf : ∀ b, f.head? = some b → opensFixedRegion b = true) :
    ∀ b, (fixStuffFrom sl 0 p f).head? = some b → opensFixedRegion b = true := by
  intro b hb
  cases f with
  | nil => simp [fixStuffFrom] at hb
  | cons x xs =>
    simp [fixStuffFrom] at hb
    subst hb
    exact hf x rfl

/-- The run describes the end of the bits put out so far: its level, its length, and the tag of the last bit. -/
def RunEnds (pre : List FrameBit) (r : Option Run) : Prop :=
  RunDesc (pre.map (·.val)) r ∧ ∀ x, r = some x → ∃ c, pre.getLast? = some c ∧ c.kind = x.tag

/-- Where five equal bits end, the run that ends there has length five and the last bit's tag and level. -/
theorem RunEnds.five {pre : List FrameBit} {r : Option Run} {c : FrameBit} (h : RunEnds pre r) (hc : EndsInFive pre c) :
    r = some ⟨c.kind, c.val, 5⟩ := by
  obtain ⟨hl, front, hf⟩ := hc
  obtain ⟨h1, h2⟩ := h
  cases r with
  | none =>
    simp only [RunDesc] at h1
    rw [h1] at hf
    simp at hf
  | some x =>
    obtain ⟨⟨fr, he, hn⟩, g1, g2⟩ := h1
    obtain ⟨e1, e2⟩ := replicate_suffix (he.symm.trans hf) g1 hn (by omega)
    obtain ⟨d, hd, ht⟩ := h2 x rfl
    rw [hl] at hd
    obtain rfl := Option.some.inj hd
    obtain ⟨tag, level, len⟩ := x
    simp only at *
    rw [ht, e1, show len = 5 by omega]

/-- Where the run has length five, five equal bits end there. -/
theorem RunEnds.isFive {pre : List FrameBit} {tag : FieldTag} {level : Level} (h : RunEnds pre (some ⟨tag, level, 5⟩)) :
    ∃ c, EndsInFive pre c ∧ c.kind = tag ∧ c.val = level := by
  obtain ⟨⟨⟨fr, he, -⟩, -, -⟩, h2⟩ := h
  obtain ⟨c, hc, ht⟩ := h2 _ rfl
  have hv : c.val = level := by
    have := congrArg List.getLast? he
    simp only [List.getLast?_map, hc, Option.map_some, List.replicate_succ', ← List.append_assoc,
      List.getLast?_concat, Option.some.injEq] at this
    exact this
  exact ⟨c, ⟨hc, fr, by rw [hv]; exact he⟩, ht, hv⟩

/-- The stuffing rule of R252 and R253 along a sequence, `pre` standing before it; `last` says that five equal bits at
the end stay unstuffed. -/
def RuleOk (sl : Slot) (last : Prop) (pre : List FrameBit) : List FrameBit → Prop
  | [] => ∀ c, EndsInFive pre c → last
  | b :: bs => (∀ c, EndsInFive pre c → b = newBit sl c.kind c.val.flip .normalStuff) ∧
    (b.stuff ≠ .notStuff → (∃ c, EndsInFive pre c ∧ b = newBit sl c.kind c.val.flip .normalStuff) ∧
      (bs = [] → ¬ last)) ∧ RuleOk sl last (pre ++ [b]) bs

/-- The run after a bit that no due stuff bit stands before. -/
theorem RunEnds.extend {pre : List FrameBit} {r : Option Run} {b : FrameBit} (h : RunEnds pre r)
    (hl : ∀ x, r = some x → x.len ≠ 5) (h6 : SixFree (pre.map (·.val))) :
    RunEnds (pre ++ [b]) (some (extendRun r b)) ∧ SixFree ((pre ++ [b]).map (·.val)) := by
  obtain ⟨g1, g2⟩ := RunDesc.extend (b := b) h.1 hl h6
  rw [List.map_append, List.map_singleton]
  refine ⟨⟨by rwa [List.map_append, List.map_singleton], ?_⟩, g2⟩
  rintro x ⟨⟩
  refine ⟨b, by simp, ?_⟩
  unfold extendRun
  split <;> (try split) <;> rfl

/-- The run after a due stuff bit. -/
theorem RunEnds.due {sl : Slot} {pre : List FrameBit} {tag : FieldTag} {level : Level}
    (h : RunEnds pre (some ⟨tag, level, 5⟩)) (h6 : SixFree (pre.map (·.val))) :
    RunEnds (pre ++ [newBit sl tag level.flip .normalStuff]) (some ⟨tag, level.flip, 1⟩) ∧
      SixFree ((pre ++ [newBit sl tag level.flip .normalStuff]).map (·.val)) := by
  have h1 := h.1.1.other (Nat.le_add_left 1 4) (Level.flip_ne level)
  have h2 := h6.snoc h1 (by omega) (by omega)
  refine ⟨⟨?_, ?_⟩, by simpa using h2⟩
  · simpa [RunDesc] using h1
  · rintro x ⟨⟩
    exact ⟨_, List.getLast?_concat, rfl⟩

/-- Dynamic stuffing follows the rule (R252, R253): a stuff bit after every five equal bits and nowhere else, but for five
at the end where trailing ones are omitted (R254). -/
theorem dynStuffFrom_rule (sl : Slot) (om : Bool) (bits : List FrameBit) (hb : ∀ b ∈ bits, b.stuff = .notStuff)
    (pre : List FrameBit) (r : Option Run) (h : RunEnds pre r) (h6 : SixFree (pre.map (·.val))) :
    RuleOk sl (om = true) pre (dynStuffFrom sl om r bits).1 := by
  induction bits generalizing pre r with
  | nil =>
    rw [(dynStuffFrom_nil sl om r).1]
    rcases stuffDue_cases sl r with ⟨tag, level, rfl, hd, -⟩ | ⟨hd, -, hl⟩
    · cases om with
      | true => exact fun _ _ => rfl
      | false =>
        rw [hd]
        refine ⟨fun c hc => ?_, fun _ => ⟨?_, by simp⟩, fun c hc => ?_⟩
        · cases h.five hc; rfl
        · obtain ⟨c, hc, rfl, rfl⟩ := h.isFive
          exact ⟨c, hc, rfl⟩
        · have := (h.due (sl := sl) h6).1.five hc
          simp at this
    · rw [hd]
      cases om <;> exact fun c hc => absurd rfl (hl _ (h.five hc))
  | cons b bs ih =>
    have hbb := hb b (by simp)
    have ih := ih fun c hc => hb c (by simp [hc])
    rw [(dynStuffFrom_cons sl om r b bs).1]
    rcases stuffDue_cases sl r with ⟨tag, level, rfl, hd, ha⟩ | ⟨hd, ha, hl⟩
    · rw [hd, ha]
      obtain ⟨g1, g2⟩ := h.due (sl := sl) h6
      obtain ⟨k1, k2⟩ := g1.extend (b := b) (by rintro x ⟨⟩; simp) g2
      refine ⟨fun c hc => ?_, fun _ => ⟨?_, by simp⟩, fun c hc => ?_, fun hs => absurd hbb hs, ih _ _ k1 k2⟩
      · cases h.five hc; rfl
      · obtain ⟨c, hc, rfl, rfl⟩ := h.isFive
        exact ⟨c, hc, rfl⟩
      · have := g1.five hc
        simp at this
    · rw [hd, ha]
      obtain ⟨k1, k2⟩ := h.extend (b := b) hl h6
      exact ⟨fun c hc => absurd rfl (hl _ (h.five hc)), fun hs => absurd hbb hs, ih _ _ k1 k2⟩

/-- `RuleOk` at every place of the sequence. -/
theorem RuleOk.split {sl : Slot} {last : Prop} {pre bits : List FrameBit} (h : RuleOk sl last pre bits) :
    ∀ front post, bits = front ++ post → RuleOk sl last (pre ++ front) post := by
  induction bits generalizing pre with
  | nil => rintro front post hp; simp_all
  | cons b bs ih =>
    rintro (_ | ⟨f, fs⟩) post hp
    · rw [List.nil_append] at hp
      subst hp
      simpa using h
    · simp only [List.cons_append, List.cons.injEq] at hp
      obtain ⟨rfl, hp⟩ := hp
      simpa using ih h.2.2 fs post hp

/-- Fixed stuffing gives each fixed stuff bit the tag of the bit after it (R253, R255). -/
theorem fixStuffFrom_tags (sl : Slot) (j : Nat) (p : Level) (bits : List FrameBit)
    (h : ∀ b ∈ bits, b.stuff = .notStuff) : FixedTagsFollow (fixStuffFrom sl j p bits) := by
  induction bits generalizing j p with
  | nil => intro pre b post hp; simp [fixStuffFrom] at hp
  | cons x xs ih =>
    have hx := h x (by simp)
    have ih := fun j p => ih j p fun c hc => h c (by simp [hc])
    have key : FixedTagsFollow (x :: fixStuffFrom sl (j + 1) x.val xs) := by
      rintro (_ | ⟨a, pre⟩) b post hp hs
      · simp only [List.nil_append, List.cons.injEq] at hp
        rw [← hp.1, hx] at hs
        cases hs
      · simp only [List.cons_append, List.cons.injEq] at hp
        exact ih _ _ pre b post hp.2 hs
    simp only [fixStuffFrom]
    split
    · rintro (_ | ⟨a, pre⟩) b post hp hs
      · simp only [List.nil_append, List.cons.injEq] at hp
        exact ⟨x, _, hp.2.symm, by rw [← hp.1]; rfl⟩
      · simp only [List.cons_append, List.cons.injEq] at hp
        exact key pre b post hp.2 hs
    · exact key

end Sys2Proof.Machine
end

