-- ==== Sys2Proof/Laws/Select.lean ====
section
/-! SUPPORT. What the relations of Safety.lean say of the selector and the searches, and what the quantum edits, the
readout and the flag draw set hold (spec/30_encoding.md R115, spec/42_bit_ops.md R223, R224, spec/41_bit_timing.md R200,
spec/40_frame_descriptor.md R150). -/

namespace Sys2Proof.Machine

/-! ## Selection and search -/

theorem nth_of_isNth {α : Type} {p : α → Prop} [DecidablePred p] {l : List α} {n i : Nat} (h : IsNth p l n i) :
    nth (fun x => decide (p x)) l n = some i := by
  rw [nth_eq_some]
  obtain ⟨⟨x, hx, hp⟩, hc⟩ := h
  exact ⟨⟨x, hx, by simpa using hp⟩, hc⟩

theorem kind_beq (t : FieldTag) : (fun b : FrameBit => b.kind == t) = fun b => decide (b.kind = t) := by
  funext b
  exact beq_eq_decide _ _

theorem selectBit_of_selects {bits : List FrameBit} {sel : BitSel} {arg i : Nat} (h : Selects bits sel arg i)
    (allowEnd : Bool) : selectBit bits sel arg allowEnd = .ok i := by
  cases sel with
  | index =>
    obtain ⟨rfl, h⟩ := h
    simp [selectBit, h]
  | typed t =>
    have := nth_of_isNth h
    simp only [selectBit, kind_beq, this]

theorem selectBit_of_selectsOrEnd {bits : List FrameBit} {sel : BitSel} {arg i : Nat} (h : SelectsOrEnd bits sel arg i) :
    selectBit bits sel arg true = .ok i := by
  rcases h with h | ⟨rfl, h, rfl⟩
  · exact selectBit_of_selects h true
  · simp [selectBit, h]

theorem selectBit_index_error {bits : List FrameBit} {arg : Nat} {allowEnd : Bool}
    (h : bits.length < arg ∨ (allowEnd = false ∧ arg = bits.length)) :
    selectBit bits .index arg allowEnd = .error (.fatal .indexOutOfRange) := by
  rw [selectBit, if_neg]
  rcases h with h | ⟨rfl, h⟩
  · simp; omega
  · simp; omega

theorem selectBit_typed_error {bits : List FrameBit} {t : FieldTag} {arg : Nat} {allowEnd : Bool}
    (h : bits.countP (fun b => decide (b.kind = t)) ≤ arg) :
    selectBit bits (.typed t) arg allowEnd = .error (.fail .bitNotFound) := by
  have := (nth_eq_none (fun b : FrameBit => b.kind == t) bits arg).2 (by rwa [kind_beq])
  simp only [selectBit, this]

theorem findBit_some {ix : SlotIx} {p : FrameBit → Bool} {s : State} {i : Nat} (hv : (s.slot ix).valid = true)
    (h : nth p (s.slot ix).bits s.arg0.toNat = some i) : findBit ix p s = answer (BitVec.ofNat 32 i) s := by
  rw [findBit]
  exact query_ok (v := BitVec.ofNat 32 i) hv (by simp only [h])

theorem findBit_none {ix : SlotIx} {p : FrameBit → Bool} {s : State} (hv : (s.slot ix).valid = true)
    (h : nth p (s.slot ix).bits s.arg0.toNat = none) : findBit ix p s = fail .bitNotFound s := by
  rw [findBit]
  exact query_error (e := .fail .bitNotFound) hv (by simp only [h])

theorem countBits_valid {ix : SlotIx} {p : FrameBit → Bool} {s : State} (hv : (s.slot ix).valid = true) :
    countBits ix p s = answer (BitVec.ofNat 32 ((s.slot ix).bits.countP p)) s := by
  rw [countBits]
  exact query_ok hv rfl

/-! ## Quanta (R223, R224) -/

theorem keepFirst_filter {α : Type} (p : α → Bool) (k : Nat) (l : List α) :
    (keepFirst p k l).filter p = (l.filter p).take k := by
  induction l generalizing k with
  | nil => simp [keepFirst]
  | cons x xs ih => cases hp : p x <;> cases k <;> simp [keepFirst, hp, ih]

theorem keepFirst_filter_not {α : Type} (p : α → Bool) (k : Nat) (l : List α) :
    (keepFirst p k l).filter (fun x => !p x) = l.filter fun x => !p x := by
  induction l generalizing k with
  | nil => simp [keepFirst]
  | cons x xs ih => cases hp : p x <;> cases k <;> simp [keepFirst, hp, ih]

theorem keepFirst_sublist {α : Type} (p : α → Bool) (k : Nat) (l : List α) : (keepFirst p k l).Sublist l := by
  induction l generalizing k with
  | nil => simp [keepFirst]
  | cons x xs ih =>
    cases hp : p x <;> cases k <;> simp only [keepFirst, hp, if_true, Bool.false_eq_true, if_false]
    · exact (ih _).cons_cons x
    · exact (ih _).cons_cons x
    · exact (ih _).cons x
    · exact (ih _).cons_cons x

/-- In phase order, the quanta before the end of a phase are those of it or an earlier one, the others those after. -/
theorem phaseEnd_split {tqs : List TimeQuantum} (h : PhaseOrdered tqs) (ph : Phase) :
    (∀ q ∈ tqs.take (phaseEnd tqs ph), q.phase.code ≤ ph.code) ∧
    (∀ q ∈ tqs.drop (phaseEnd tqs ph), ph.code < q.phase.code) := by
  induction tqs with
  | nil => simp
  | cons a as ih =>
    obtain ⟨h1, h2⟩ := List.pairwise_cons.1 h
    by_cases ha : a.phase.code ≤ ph.code
    · have he : phaseEnd (a :: as) ph = phaseEnd as ph + 1 := by simp [phaseEnd, ha]
      obtain ⟨i1, i2⟩ := ih h2
      rw [he]
      refine ⟨?_, by simpa using i2⟩
      intro q hq
      rw [List.take_succ_cons] at hq
      rcases List.mem_cons.1 hq with rfl | hq
      · exact ha
      · exact i1 q hq
    · have he : phaseEnd (a :: as) ph = 0 := by
        rw [phaseEnd, List.countP_eq_zero]
        intro q hq
        rcases List.mem_cons.1 hq with rfl | hq
        · simpa using ha
        · have := h1 q hq
          simp only [decide_eq_true_eq]
          omega
      rw [he]
      refine ⟨by simp, ?_⟩
      intro q hq
      rcases List.mem_cons.1 (by simpa using hq) with rfl | hq
      · omega
      · have := h1 q hq
        omega

theorem phase_code_inj (p q : Phase) : p.code = q.code ↔ p = q := by cases p <;> cases q <;> decide

/-! ## The readout (R200) -/

/-- The number of cycles of a bit. -/
theorem bitCycles_length (i : Nat) (b : FrameBit) :
    (bitCycles i b).length = (b.tqs.map fun q => q.cycles.length).sum := by
  simp [bitCycles, List.length_flatMap]

theorem cyclesFrom_length (i : Nat) (bits : List FrameBit) :
    (cyclesFrom i bits).length = (bits.map fun b => (b.tqs.map fun q => q.cycles.length).sum).sum := by
  induction bits generalizing i with
  | nil => rfl
  | cons b bs ih => simp [cyclesFrom, bitCycles_length, ih]

theorem cyclesFrom_append (i : Nat) (pre post : List FrameBit) :
    cyclesFrom i (pre ++ post) = cyclesFrom i pre ++ cyclesFrom (i + pre.length) post := by
  induction pre generalizing i with
  | nil => rfl
  | cons b bs ih => simp [cyclesFrom, ih, Nat.add_assoc, Nat.add_comm 1]

/-! ## The flag draw set (R150 step 1) -/

theorem mem_allFlags (x : BitVec 5) : x ∈ allFlags := by
  simp only [allFlags, List.mem_map, List.mem_range]
  exact ⟨x.toNat, x.isLt, by simp⟩

/-- The draw set holds the legal combinations that agree with every pinned flag. -/
theorem mem_flagChoices (pin : BitVec 8) (flags x : BitVec 5) :
    x ∈ flagChoices pin flags ↔
      ¬(flagFdf x = true ∧ flagRtr x = true) ∧ ∀ k, k < 5 → pin.getLsbD k = true → x.getLsbD k = flags.getLsbD k := by
  simp only [flagChoices, List.mem_filter, mem_allFlags, true_and, Bool.and_eq_true, Bool.not_eq_true',
    Bool.and_eq_false_iff, beq_iff_eq]
  refine and_congr (by cases flagFdf x <;> cases flagRtr x <;> simp) ?_
  constructor
  · intro h k hk hp
    have := congrArg (fun v : BitVec 5 => v.getLsbD k) h
    simp [pinFlags, hk, hp] at this
    cases h1 : x.getLsbD k <;> cases h2 : flags.getLsbD k <;> simp_all
  · intro h
    apply BitVec.eq_of_getLsbD_eq
    intro k hk
    have := h k hk
    simp only [pinFlags, BitVec.getLsbD_and, BitVec.getLsbD_xor, BitVec.getLsbD_extractLsb', hk, decide_true,
      Bool.true_and, Nat.zero_add]
    cases hp : pin.getLsbD k
    · simp
    · rw [this hp]
      simp

/-! ## The invariant under an edit -/

/-- Putting a good slot in a good state keeps it good. -/
theorem stateOk_setSlot {s : State} {ix : SlotIx} {sl : Slot} (h : StateOk s) (hs : SlotOk s.cfg sl) :
    StateOk (s.setSlot ix sl) := by
  refine ⟨h.1, fun jx => ?_⟩
  rw [setSlot_slot]
  split
  · exact hs
  · exact h.2 jx

/-- New good bits, not too many, keep a built slot good. -/
theorem slotOk_bits {cfg : Config} {sl : Slot} {bits : List FrameBit} (h : SlotOk cfg sl) (hv : sl.valid = true)
    (hl : bits.length ≤ cfg.capBits) (hb : ∀ b ∈ bits, BitOk cfg b) : SlotOk cfg { sl with bits := bits } :=
  ⟨hl, hb, h.2.2.1, fun hf => by simp [hv] at hf⟩

/-! ## The random selections (R300, R301) -/

/-- The value filter as a proposition (R116). -/
theorem matchesLevel_eq (vf : Option Level) :
    matchesLevel vf = fun b => decide (vf = none ∨ vf = some b.val) := by
  funext b
  cases vf with
  | none => simp [matchesLevel]
  | some l => cases l <;> cases h : b.val <;> simp [matchesLevel, h]

end Sys2Proof.Machine
end

