-- ==== Sys2Proof/Tests/Slice0.lean ====
section
/-! SUPPORT. The model's own tests: the checks of WellFormed and of the decoder, spec/95_test_vectors.md on one step
each, and for each statement with hypotheses a state and operands that meet them. -/

namespace Sys2Proof.Machine

/- One theorem after another: kernel evaluation in many threads at once takes more memory than the check allows. -/
set_option Elab.async false

/-! ## WellFormed -/

theorem test_wellFormed_refuses_counting_notStuff : (Instr.getNumStuffBits 0 .notStuff none).wellFormed = false := by
  decide

theorem test_wellFormed_accepts_counting_fixedStuff :
    (Instr.getNumStuffBits 0 .fixedStuff none).wellFormed = true := by decide

/-! ## Decoding: words written out field by field from the table of R100, in the order reserved, SK, PHF, PH, KINDF,
VALF, VAL, KIND, SLOT2, SLOT, OPC (codes: R110 to R113, R120) -/

theorem test_decode_build_family :
    decodeTableWord 32 0b000000000_00_0_00_0_0_0_00000_00_10_000001 = some (.build 2) ∧
    decodeTableWord 32 0b000000000_00_0_00_0_0_0_00000_00_01_000010 = some (.update 1) ∧
    decodeTableWord 32 0b000000000_00_0_00_0_0_0_00000_00_11_000011 = some (.clone 3 0) ∧
    decodeTableWord 32 0b000000000_00_0_00_0_0_0_00000_00_11_000100 = some (.getCrc 3) := by decide

theorem test_decode_randomize :
    decodeTableWord 32 0b000000000_00_0_00_0_0_0_00000_00_00_000101 = some (.randomize) := by decide

theorem test_decode_search_family :
    decodeTableWord 32 0b000000000_00_0_00_0_0_0_10100_00_01_001000 = some (.getBitOf 1 .intermission) ∧
    decodeTableWord 32 0b000000000_00_0_00_0_0_0_01111_00_00_001001 = some (.getBitOfNoStuff 0 .crc) ∧
    decodeTableWord 32 0b000000000_00_0_00_1_1_1_11011_00_10_001010 =
      some (.getStuffBit 2 (some .idle) (some .recessive)) ∧
    decodeTableWord 32 0b000000000_00_0_00_0_0_1_11011_00_10_001010 = some (.getStuffBit 2 none none) ∧
    decodeTableWord 32 0b000000000_00_0_00_0_0_1_00000_00_00_001011 = some (.getFixedStuffBit 0 .recessive) ∧
    decodeTableWord 32 0b000000000_10_0_00_0_1_0_00000_00_01_001100 =
      some (.getNumStuffBits 1 .fixedStuff (some .dominant)) := by decide

theorem test_decode_query_family :
    decodeTableWord 32 0b000000000_00_0_00_0_0_0_00000_00_10_001101 = some (.getBitIndex 2) ∧
    decodeTableWord 32 0b000000000_00_0_00_0_0_0_01110_00_00_001110 = some (.getFieldLength 0 .stuffParity) ∧
    decodeTableWord 32 0b000000000_00_0_00_0_0_0_00000_00_11_001111 = some (.getLength 3) ∧
    decodeTableWord 32 0b000000000_00_0_00_1_0_0_01100_00_01_010000 = some (.readBit 1 (.typed .data)) ∧
    decodeTableWord 32 0b000000000_00_0_11_1_0_0_01001_00_00_010001 = some (.readPhaseLen 0 (.typed .brs) .phase2) ∧
    decodeTableWord 32 0b000000000_00_0_00_0_1_1_00000_00_01_010010 = some (.getRandomBit 1 (some .recessive)) ∧
    decodeTableWord 32 0b000000000_00_0_00_0_0_0_10011_00_00_010011 = some (.getRandomBitOf 0 .eof none) := by decide

theorem test_decode_surgery_family :
    decodeTableWord 32 0b000000000_00_0_00_0_0_1_10010_00_00_011000 = some (.insertBit 0 .ackDelimiter .recessive) ∧
    decodeTableWord 32 0b000000000_00_0_00_0_0_0_00000_00_11_011001 = some (.removeBit 3 .index) ∧
    decodeTableWord 32 0b000000000_00_0_00_1_0_0_10011_00_01_011010 = some (.removeBitsFrom 1 (.typed .eof)) ∧
    decodeTableWord 32 0b000000000_00_0_00_0_0_1_11011_00_00_011011 = some (.appendBit 0 .idle .recessive) ∧
    decodeTableWord 32 0b000000000_00_0_00_0_0_0_00000_00_10_011100 = some (.insertActiveErrorFrame 2 .index) ∧
    decodeTableWord 32 0b000000000_00_0_00_1_0_0_00000_00_00_011101 =
      some (.insertPassiveErrorFrame 0 (.typed .sof)) ∧
    decodeTableWord 32 0b000000000_00_0_00_1_0_0_10100_00_00_011110 =
      some (.insertOverloadFrame 0 (.typed .intermission)) ∧
    decodeTableWord 32 0b000000000_00_0_00_0_0_0_00000_00_01_011111 = some (.appendSuspend 1) ∧
    decodeTableWord 32 0b000000000_00_0_00_0_0_0_00000_00_01_100000 = some (.turnReceived 1) ∧
    decodeTableWord 32 0b000000000_00_0_00_1_0_0_00001_00_00_100001 =
      some (.loseArbitration 0 (.typed .baseIdentifier)) ∧
    decodeTableWord 32 0b000000000_00_0_00_0_0_0_00000_10_00_100010 = some (.appendFrame 0 2) := by decide

theorem test_decode_bit_family :
    decodeTableWord 32 0b000000000_00_0_00_1_0_0_11001_00_00_101000 = some (.flipBit 0 (.typed .overloadDelimiter)) ∧
    decodeTableWord 32 0b000000000_00_0_00_0_0_1_00000_00_00_101001 = some (.setBitValue 0 .index .recessive) ∧
    decodeTableWord 32 0b000000000_01_0_00_0_0_0_00000_00_01_101010 = some (.setStuffKind 1 .index .normalStuff) ∧
    decodeTableWord 32 0b000000000_00_0_10_0_0_0_00000_00_00_101011 = some (.shortenPhase 0 .index .phase1) ∧
    decodeTableWord 32 0b000000000_00_0_01_1_0_0_01010_00_00_101100 = some (.lengthenPhase 0 (.typed .esi) .prop) ∧
    decodeTableWord 32 0b000000000_00_1_11_0_0_1_00000_00_00_101101 =
      some (.forceTq 0 .index (some .phase2) .recessive) ∧
    decodeTableWord 32 0b000000000_00_0_11_0_0_0_00000_00_00_101101 =
      some (.forceTq 0 .index none .dominant) := by decide

theorem test_decode_quantizer_family :
    decodeTableWord 32 0b000000000_00_0_00_0_0_0_00000_00_01_110000 = some (.qzLength 1) ∧
    decodeTableWord 32 0b000000000_00_0_00_0_0_0_00000_00_10_110001 = some (.qzRead 2) := by decide

/-! ## Decoding: words refused (R104 to R106) -/

theorem test_decode_refuses :
    decode 0x00800001 = .error .reservedBits ∧ decode 0x80000001 = .error .reservedBits ∧
    decode 0x00000000 = .error .unassignedOpcode ∧ decode 0x00000006 = .error .unassignedOpcode ∧
    decode 0x00000014 = .error .unassignedOpcode ∧ decode 0x0000003F = .error .unassignedOpcode ∧
    decode 0x00007008 = .error .unassignedKind ∧ decode 0x00027010 = .error .unassignedKind ∧
    decode 0x0060002A = .error .illegalStuffKind ∧ decode 0x0000000C = .error .illegalStuffKind := by decide

/-- KIND is not read, and not checked, where KINDF = 0 (R106). -/
theorem test_decode_ignores_unread_kind : decode 0x00007010 = .ok (.readBit 0 .index) := by decide

/-! ## Single steps on the frames of spec/95_test_vectors.md -/

/-- The state after a command. -/
def after (i : Instr) (s : State) : State :=
  match exec i s with
  | .next t => t
  | _ => s

theorem exec_after (i : Instr) (s : State) : exec i s = .next (after i s) := by
  obtain ⟨t, ht⟩ := exec_next i s
  simp only [after, ht]

/-- The registers of V1, with ARG0 and ARG1. -/
def v1Registers (a0 a1 : Word) : State :=
  { State.reset with
    arg0 := a0, arg1 := a1, nbt := 0x01010101, nsjw := 1, dbt := 0x01010101, dsjw := 1, id := 0x7EF, dlc := 1
    data := State.reset.data.set 0 0x01 }

/-- V1 built in slot 0. -/
def v1 (a0 a1 : Word) : State := buildInto 0 (v1Registers a0 a1)

/-- V5 built in slot 0. -/
def v5 (a0 : Word) : State := buildInto 0 { v1Registers a0 0 with flags := 0x9, nbt := 0x02020304 }

/-- The levels of slot 0, the first bit most significant. -/
def wire (s : State) : Nat := (s.slot 0).bits.foldl (fun n b => 2 * n + b.val.toBool.toNat) 0

/-- STATUS and RESULT after a command. -/
def outcome (i : Instr) (s : State) : Nat × Nat :=
  ((readReg .status (after i s)).toNat, (readReg .result (after i s)).toNat)

/-- STATUS after a command and the length of slot 0. -/
def lengthAfter (i : Instr) (s : State) : Nat × Nat :=
  ((readReg .status (after i s)).toNat, ((after i s).slot 0).bits.length)

theorem test_build_v1 : ((v1 0 0).slot 0).bits.length = 58 ∧
    wire (v1 0 0) = 0b0111110101111000001010000010011101100010001001111111111111 := by decide +kernel

theorem test_build_v5 : ((v5 0).slot 0).bits.length = 72 ∧
    wire (v5 0) = 0b011111010111100101000010000010010011011010110110010100101011111111111111 := by decide +kernel

theorem test_build_fails_on_reset_timing : outcome (.build 0) (State.reset) = (0x0004, 0) := by decide +kernel

theorem test_getCrc : outcome (.getCrc 0) (v1 0 0) = (0, 0x6C44) := by decide +kernel

theorem test_getCrc_fd : outcome (.getCrc 0) (v5 0) = (0, 0x156AB) := by decide +kernel

theorem test_update_after_flip : outcome (.update 0) (after (.flipBit 0 .index) (v1 29 0)) = (0, 0) := by decide +kernel

theorem test_update_writes_crc :
    outcome (.getCrc 0) (after (.update 0) (after (.flipBit 0 .index) (v1 29 0))) = (0, 0x29DD) := by decide +kernel

theorem test_clone_of_unbuilt : lengthAfter (.clone 0 3) (v1 0 0) = (0x3100, 58) := by decide +kernel

theorem test_getBitOf : outcome (.getBitOf 0 .data) (v1 7 0) = (0, 28) := by decide +kernel

theorem test_getBitOf_misses : outcome (.getBitOf 0 .data) (v1 9 0) = (2, 0) := by decide +kernel

theorem test_getBitOfNoStuff : outcome (.getBitOfNoStuff 0 .data) (v1 7 0) = (0, 29) := by decide +kernel

theorem test_getStuffBit : outcome (.getStuffBit 0 none (some .recessive)) (v1 1 0) = (0, 26) := by decide +kernel

theorem test_getFixedStuffBit : outcome (.getFixedStuffBit 0 .dominant) (v5 0) = (0, 32) := by decide +kernel

theorem test_getNumStuffBits : outcome (.getNumStuffBits 0 .normalStuff (some .dominant)) (v1 0 0) = (0, 1) := by decide +kernel

theorem test_getBitIndex_beyond : outcome (.getBitIndex 0) (v1 58 0) = (0x2100, 0) := by decide +kernel

theorem test_getFieldLength : outcome (.getFieldLength 0 .data) (v1 0 0) = (0, 9) := by decide +kernel

theorem test_getLength : outcome (.getLength 0) (v1 0 0) = (0, 58) := by decide +kernel

theorem test_readBit : outcome (.readBit 0 (.typed .data)) (v1 8 0) = (0, 0x0004002C) := by decide +kernel

theorem test_readPhaseLen_brs : outcome (.readPhaseLen 0 (.typed .brs) .phase2) (v5 0) = (0, 0x00010001) := by decide +kernel

theorem test_getRandomBit_single : outcome (.getRandomBit 0 (some .dominant)) (after (.removeBitsFrom 0 .index) (v1 1 0)) = (0, 0) := by decide +kernel

theorem test_getRandomBitOf_misses : outcome (.getRandomBitOf 0 .brs none) (v1 0 0) = (2, 0) := by decide +kernel

theorem test_insertBit_at_end : lengthAfter (.insertBit 0 .sof .dominant) (v1 58 0) = (0, 59) := by decide +kernel

theorem test_insertBit_beyond : lengthAfter (.insertBit 0 .sof .dominant) (v1 59 0) = (0x2100, 58) := by decide +kernel

theorem test_removeBit : lengthAfter (.removeBit 0 (.typed .crc)) (v1 0 0) = (0, 57) := by decide +kernel

theorem test_removeBitsFrom : lengthAfter (.removeBitsFrom 0 (.typed .eof)) (v1 0 0) = (0, 48) := by decide +kernel

theorem test_appendBit : lengthAfter (.appendBit 0 .intermission .recessive) (v1 0 0) = (0, 59) := by decide +kernel

theorem test_insertActiveErrorFrame : lengthAfter (.insertActiveErrorFrame 0 (.typed .data)) (v1 0 0) = (0, 35) := by decide +kernel

theorem test_activeErrorFlag_is_dominant :
    wire (after (.insertActiveErrorFrame 0 .index) (v1 0 0)) = 0b00000011111111 := by decide +kernel

theorem test_insertPassiveErrorFrame : lengthAfter (.insertPassiveErrorFrame 0 (.typed .eof)) (v1 0 0) = (0, 62) := by decide +kernel

theorem test_insertOverloadFrame : lengthAfter (.insertOverloadFrame 0 (.typed .intermission)) (v1 0 0) = (0, 69) := by decide +kernel

theorem test_appendSuspend : lengthAfter (.appendSuspend 0) (v1 0 0) = (0, 66) := by decide +kernel

theorem test_turnReceived : wire (after (.turnReceived 0) (v1 0 0)) = 2 ^ 58 - 1 - 2 ^ 11 := by decide +kernel

theorem test_loseArbitration : lengthAfter (.loseArbitration 0 (.typed .baseIdentifier)) (v1 11 0) = (0, 13) := by decide +kernel

theorem test_appendFrame_to_itself : lengthAfter (.appendFrame 0 0) (v1 0 0) = (0, 116) := by decide +kernel

theorem test_flipBit : wire (after (.flipBit 0 .index) (v1 0 0)) = 2 ^ 57 + wire (v1 0 0) := by decide +kernel

theorem test_setBitValue :
    outcome (.readBit 0 .index) (after (.setBitValue 0 .index .dominant) (v1 1 0)) = (0, 0x00040001) := by decide +kernel

theorem test_setStuffKind :
    outcome (.getNumStuffBits 0 .normalStuff none) (after (.setStuffKind 0 .index .notStuff) (v1 6 0)) = (0, 2) := by
  decide +kernel

theorem test_shortenPhase_residual : outcome (.shortenPhase 0 .index .phase2) (v1 0 3) = (0, 2) := by decide +kernel

theorem test_lengthenPhase_beyond_capacity : outcome (.lengthenPhase 0 .index .phase1) (v1 0 1021) = (0x4100, 0) := by decide +kernel

theorem test_lengthenPhase :
    outcome (.readPhaseLen 0 .index .phase1) (after (.lengthenPhase 0 .index .phase1) (v1 0 2)) = (0, 0x00010003) := by
  decide +kernel

theorem test_forceTq :
    outcome (.qzRead 0) (after (.forceTq 0 .index none .recessive) (v1 0 0)) = (0, 0x9) := by decide +kernel

theorem test_forceTq_beyond : outcome (.forceTq 0 .index none .recessive) (v1 0 4) = (0x2100, 0) := by decide +kernel

theorem test_qzLength : outcome (.qzLength 0) (v5 0) = (0, 1128) := by decide +kernel

theorem test_qzRead : outcome (.qzRead 0) (v1 231 0) = (0, 0x00003907) := by decide +kernel

/-- RANDOMIZE with FDF and RTR both pinned (E5). -/
theorem test_randomize_illegal_pins : outcome .randomize { State.reset with pin := 0x05, flags := 0x5 } = (1, 0) := by
  decide +kernel

/-- The least draw of a RANDOMIZE with nothing pinned, from an ORACLE that answers 0 (family table 40). -/
theorem test_randomize_least : (randomizeWith (fun _ => 0) State.reset).code = .ok ∧
    (randomizeWith (fun _ => 0) State.reset).flags = 0 ∧ (randomizeWith (fun _ => 0) State.reset).id = 0 ∧
    (randomizeWith (fun _ => 0) State.reset).dlc = 0 := by decide +kernel

/-- The CRC register's check values, from start value 0 (95_test_vectors.md). -/
theorem test_crc_check_values :
    let xs := [0x31, 0x32, 0x33, 0x34, 0x35, 0x36, 0x37, 0x38, 0x39].flatMap fun c : Nat =>
      (List.range 8).map fun k => Level.ofBool (c.testBit (7 - k))
    crcFrom .crc15 0 xs = 0x059E ∧ crcFrom .crc17 0 xs = 0x04F03 ∧ crcFrom .crc21 0 xs = 0x0ED841 := by decide +kernel

/-- NDERIV of the family table 40. -/
theorem test_nderiv : (readReg .nderiv { State.reset with nbt := 0x0A1E0A01 }).toNat = 0x00290033 := by decide

/-- A command word placed for the next step is executed by it. -/
theorem test_step_runs_fetched_word :
    step (State.reset.withFetchWord 32 0x0000000F) =
      .next { State.reset with cmd := 0x0000000F, fatal := some .invalidSlot } := by rfl

/-- An access of another size, a misaligned one and an unmapped one have no step. -/
theorem test_refused_accesses :
    step { State.reset with pending := [.read 0x000 2] } = .refused .accessSize ∧
    step { State.reset with pending := [.read 0x002 4] } = .refused .misalignedOffset ∧
    step { State.reset with pending := [.read 0x014 4] } = .fault .unmappedOffset := ⟨rfl, rfl, rfl⟩

/-! ## Witnesses: a state and operands that meet the hypotheses of each statement, clause by clause -/

/-- A bit of four quanta of one cycle. -/
def bit (k : FieldTag) (v : Level) (st : StuffKind) : FrameBit :=
  { kind := k, val := v, stuff := st
    pbrp := { sync := 1, prop := 1, phase1 := 1, phase2 := 1 }
    tqs := [{ phase := .sync, cycles := [none] }, { phase := .prop, cycles := [none] },
      { phase := .phase1, cycles := [none] }, { phase := .phase2, cycles := [none] }] }

/-- A built slot of four bits. -/
def smallSlot : Slot :=
  { Slot.empty with
    valid := true
    bits := [bit .sof .dominant .notStuff, bit .data .recessive .normalStuff, bit .data .dominant .notStuff,
      bit .ack .recessive .fixedStuff] }

/-- Slot 0 small, the others unbuilt, with ARG0 and ARG1. -/
def small (a0 a1 : Word) : State := ({ State.reset with arg0 := a0, arg1 := a1 } : State).setSlot 0 smallSlot

/-- The same with room for four bits only. -/
def full (a0 : Word) : State := { small a0 0 with cfg := { Config.default with capBits := 4 } }

/-- Reset, with one input to come. -/
def withInput (a : HostInput) : State := { State.reset with pending := [a] }

/-- SOF and four Data bits, all dominant, then a recessive bit of a tag, in a built slot 0. -/
def fiveThen (fdf : Bool) (k : FieldTag) (m : FdBoundaryStuff) : State :=
  ({ State.reset with cfg := { Config.default with fdBoundaryStuff := m } } : State).setSlot 0
    { smallSlot with
      fdf := fdf
      bits := bit .sof .dominant .notStuff :: List.replicate 4 (bit .data .dominant .notStuff)
        ++ [bit k .recessive .notStuff] }

/-- Tags, levels and stuff kinds of slot 0 from bit 5 on, after an UPDATE. -/
def afterFive (s : State) : List (FieldTag × Level × StuffKind) :=
  (((after (.update 0) s).slot 0).bits.drop 5).map fun b => (b.kind, b.val, b.stuff)

/-- Five equal bits are stuffed though the next bit differs, with the tag of the bit before (R252, R253, by hand). -/
theorem test_stuffs_after_five : afterFive (fiveThen false .srr .fixedOnly) =
    [(.data, .recessive, .normalStuff), (.srr, .recessive, .notStuff)] := by decide +kernel

/-- Five equal bits at the FD boundary (R254, R255, by hand): no dynamic stuff bit; or one, which the fixed one follows. -/
theorem test_boundary_stuff :
    afterFive (fiveThen true .stuffCount .fixedOnly) =
      [(.stuffCount, .recessive, .fixedStuff), (.stuffCount, .dominant, .notStuff)] ∧
    afterFive (fiveThen true .stuffCount .dynamicThenFixed) =
      [(.data, .recessive, .normalStuff), (.stuffCount, .dominant, .fixedStuff),
        (.stuffCount, .dominant, .notStuff)] := by decide +kernel

theorem witness_DecodeOfEncodeIsTheCommand : (Instr.getNumStuffBits 3 .fixedStuff (some .recessive)).WellFormed := by
  decide

/-- Two different words each, the second pair differing in KIND alone. -/
theorem witness_UnreadFieldsAreIgnored :
    ((0x00000001 : Word) ≠ 0x007FFF01 ∧
      (0x00000001 : Word) &&& readBits 0x01 = 0x007FFF01 &&& readBits 0x01) ∧
    ((0x00000010 : Word) ≠ 0x00007C10 ∧ (0x10 ∈ kindfOpcodes) ∧ (0x00000010 : Nat) / 2 ^ 17 % 2 = 0 ∧
      (0x00000010 : Word) &&& (readBits 0x10 &&& 0xFFFF83FF) = 0x00007C10 &&& (readBits 0x10 &&& 0xFFFF83FF)) := by
  decide

/-- A write while FATAL = 1; the least illegal words of R104, R105 and R106; the highest legal KIND. -/
theorem witness_CmdWriteExecutesInOrder :
    (∃ s : State, s.pending = [.write 0x000 4 0x0000000F] ∧ s.fatal = some .invalidSlot) ∧
    ((withInput (.write 0x000 4 0x00800001)).pending = [.write 0x000 4 0x00800001] ∧
      (withInput (.write 0x000 4 0x00800001)).fatal = none) ∧
    ¬ LegalWord 0x00800001 ∧ ¬ LegalWord 0x00000000 ∧ ¬ LegalWord 0x00007008 ∧ ¬ LegalWord 0x0000000C ∧
    LegalWord 0x00006C08 := by
  refine ⟨⟨{ withInput (.write 0x000 4 0x0000000F) with fatal := some .invalidSlot }, rfl, rfl⟩, ⟨rfl, rfl⟩, ?_⟩
  refine ⟨?_, ?_, ?_, ?_, ?_⟩ <;> unfold LegalWord <;> decide

theorem witness_StepRunsTheDecodedCommand :
    State.reset.fatal = none ∧ decode 0x00000303 = .ok (.clone 0 3) ∧ (Instr.clone 0 3).WellFormed :=
  ⟨rfl, rfl, rfl⟩

theorem witness_NothingPendingNothingChanges : State.reset.pending = [] := rfl

/-- The last mapped offset, the first unmapped one behind it, a hole, a misaligned offset and another size. -/
theorem witness_OnlyAlignedMappedWordAccessesHaveAStep :
    (∀ off ∈ [0x13C, 0x140, 0x014, 0x002], ∀ size ∈ [4, 2],
      (withInput (.write off size 0)).pending = [.write off size 0] ∧
      (withInput (.read off size)).pending = [.read off size]) ∧
    0x13C ∈ mappedOffsets ∧ 0x140 ∉ mappedOffsets ∧ 0x014 ∉ mappedOffsets := by
  refine ⟨fun _ _ _ _ => ⟨rfl, rfl⟩, ?_⟩
  decide

/-- CMD, a register that is read only, one that is not, and the derived view of one. -/
theorem witness_RegisterWriteThenRead :
    (withInput (.write (Reg.cmd).offset 4 0x80000001)).pending = [.write (Reg.cmd).offset 4 0x80000001] ∧
    (withInput (.write (Reg.status).offset 4 1)).pending = [.write (Reg.status).offset 4 1] ∧
    (Reg.status).readOnly = true ∧ (Reg.data 15).readOnly = false ∧ Reg.nderiv ≠ Reg.nbt ∧
    (Reg.nderiv).derivesFrom .nbt = true ∧ (Reg.dderiv).derivesFrom .nbt = false :=
  ⟨rfl, rfl, rfl, rfl, by decide, rfl, rfl⟩

theorem witness_RegisterReadChangesNothing :
    (withInput (.read (Reg.data 15).offset 4)).pending = [.read (Reg.data 15).offset 4] := rfl

theorem witness_PayloadBytesAreLittleEndian :
    (withInput (.write (0x100 + 4 * (15 : Fin 16).val) 4 0xAABBCCDD)).pending =
      [.write (0x100 + 4 * (15 : Fin 16).val) 4 0xAABBCCDD] ∧ 3 < 4 ∧ 59 / 4 ≠ (15 : Fin 16).val := by
  decide

/-- Each clause of the data length at its boundary: FD remote, FD, Classical with DLC 9 and 8. -/
theorem witness_DerivedRegistersRead :
    (flagFdf 0x5 = true ∧ flagRtr 0x5 = true) ∧ (flagFdf 0x1 = true ∧ flagRtr 0x1 = false) ∧
    (flagFdf 0x0 = false ∧ 8 < (9 : BitVec 4).toNat) ∧ (flagFdf 0x4 = false ∧ (8 : BitVec 4).toNat ≤ 8) := by
  decide

theorem witness_ResetGivesTheResetValues :
    (withInput .reset).pending = [.reset] ∧
    ∃ s t : State, s.fatal = some .invalidSlot ∧ step s = .next t ∧ t.fatal = none :=
  ⟨rfl, { withInput .reset with fatal := some .invalidSlot }, State.reset, rfl, rfl, rfl⟩

/-- A command that raises a fatal error; and while FATAL = 1 a CMD write, another write, a read and a step. -/
theorem witness_FatalErrorIsPreciseAndSticky :
    (State.reset.fatal = none ∧ exec (.update 0) State.reset = .next { State.reset with fatal := some .invalidSlot }) ∧
    (∀ a ∈ [HostInput.write 0x000 4 1, .write (Reg.arg0).offset 4 1, .read (Reg.status).offset 4],
      ({ withInput a with fatal := some .invalidSlot } : State).pending = [a]) ∧
    ∃ t, step { State.reset with fatal := some .invalidSlot } = .next t :=
  ⟨⟨rfl, rfl⟩, fun _ _ => rfl, _, rfl⟩

/-- A command that succeeds and one that fails. -/
theorem witness_FailIsPreciseAndCodeIsNotSticky :
    ((small 0 0).fatal = none ∧ (after (.getLength 0) (small 0 0)).fatal = none ∧
      (after (.getLength 0) (small 0 0)).code = .ok) ∧
    (State.reset.fatal = none ∧ (after (.build 0) State.reset).fatal = none ∧
      (after (.build 0) State.reset).code = .invalidTiming) := by
  decide +kernel

theorem witness_UnbuiltSlotRaisesInvalidSlot :
    (Instr.appendFrame 0 3).WellFormed ∧ (3 : SlotIx) ∈ slotsRead (.appendFrame 0 3) ∧
    ((small 0 0).slot 3).valid = false := by
  decide

/-- An absolute index at the length without and behind it with allowEnd; a typed miss at the number of matches. -/
theorem witness_SelectorErrors :
    (selectorOf (.flipBit 0 .index) = some (0, .index, false) ∧ ((small 4 0).slot 0).valid = true ∧
      (small 4 0).arg0.toNat = ((small 4 0).slot 0).bits.length) ∧
    (selectorOf (.removeBitsFrom 0 .index) = some (0, .index, true) ∧ ((small 5 0).slot 0).valid = true ∧
      ((small 5 0).slot 0).bits.length < (small 5 0).arg0.toNat) ∧
    (selectorOf (.removeBit 0 (.typed .data)) = some (0, .typed .data, false) ∧
      ((small 2 0).slot 0).bits.countP (fun b => decide (b.kind = .data)) ≤ (small 2 0).arg0.toNat) := by
  decide

/-- Each clause at its boundary: one bit too many where there is room for four; and a BUILD of V1's 58 bits into a slot
never built, where there is room for 57. -/
theorem witness_CapacityExceededRaisesFatal :
    ((full 4).slot 0).valid = true ∧ (full 4).cfg.capBits < ((full 4).slot 0).bits.length + 1 ∧
    (full 4).arg0.toNat ≤ ((full 4).slot 0).bits.length ∧ (full 4).cfg.capBits < ((full 4).slot 0).bits.length + 8 ∧
    (full 4).cfg.capBits < 0 + 14 ∧ SelectsOrEnd ((full 0).slot 0).bits .index (full 0).arg0.toNat 0 ∧
    (full 4).cfg.capBits < ((full 4).slot 0).bits.length + ((full 4).slot 0).bits.length ∧
    (BuildLegal { v1Registers 0 0 with cfg := { Config.default with capBits := 57 } } ∧
      ((v1Registers 0 0).slot 0).valid = false ∧
      57 < (builtSlot { v1Registers 0 0 with cfg := { Config.default with capBits := 57 } }).bits.length) := by
  refine ⟨rfl, by decide, by decide, by decide, by decide, .inl ⟨rfl, by decide⟩, by decide, by decide, rfl, ?_⟩
  decide +kernel

/-- An UPDATE that does not fit: V1 in a machine with room for 57 bits. -/
theorem witness_CapacityExceededRaisesFatal_update :
    ((v1 0 0).slot 0).valid = true ∧
    57 < (restuff { Config.default with capBits := 57 } ((v1 0 0).slot 0)).length := by
  decide +kernel

theorem witness_CommandsLeaveTheOtherRegisters :
    (∃ t, exec (.build 0) State.reset = .next t) ∧ Instr.build 0 ≠ .randomize ∧ returnsValue (.build 0) = false ∧
    mayDraw (.build 0) = false :=
  ⟨⟨_, exec_after _ _⟩, by decide, rfl, rfl⟩

theorem witness_CommandsChangeOnlyTheirSlot :
    (∃ t, exec (.flipBit 0 .index) (small 0 0) = .next t) ∧ targetOf (.flipBit 0 .index) ≠ some 3 ∧
    (∀ d, Instr.flipBit 0 .index ≠ .build d) ∧ ∀ d c, Instr.flipBit 0 .index ≠ .clone d c :=
  ⟨⟨_, exec_after _ _⟩, by decide, by simp, by simp⟩

/-- The n-th match of each search, at the first and the last match. -/
theorem witness_SearchesAnswerTheNthMatch :
    ((small 0 0).slot 0).valid = true ∧
    IsNth (fun b : FrameBit => b.kind = .data) ((small 1 0).slot 0).bits (small 1 0).arg0.toNat 2 ∧
    IsNth (fun b : FrameBit => b.kind = .data ∧ b.stuff = .notStuff) ((small 0 0).slot 0).bits
      (small 0 0).arg0.toNat 2 ∧
    IsNth (fun b : FrameBit => b.stuff = .normalStuff ∧ (some FieldTag.data = none ∨ some FieldTag.data = some b.kind) ∧
      (some Level.recessive = none ∨ some Level.recessive = some b.val)) ((small 0 0).slot 0).bits
      (small 0 0).arg0.toNat 1 ∧
    IsNth (fun b : FrameBit => b.stuff = .fixedStuff ∧ b.val = .recessive) ((small 0 0).slot 0).bits
      (small 0 0).arg0.toNat 3 :=
  ⟨rfl, ⟨⟨_, rfl, by decide⟩, by decide⟩, ⟨⟨_, rfl, by decide⟩, by decide⟩, ⟨⟨_, rfl, by decide⟩, by decide⟩,
    ⟨⟨_, rfl, by decide⟩, by decide⟩⟩

/-- Each search one beyond its last match; and no bit to draw from. -/
theorem witness_SearchesMissRecoverably :
    ((small 0 0).slot 0).valid = true ∧
    ((small 2 0).slot 0).bits.countP (fun b => decide (b.kind = .data)) ≤ (small 2 0).arg0.toNat ∧
    ((small 1 0).slot 0).bits.countP (fun b => decide (b.kind = .data ∧ b.stuff = .notStuff)) ≤ (small 1 0).arg0.toNat ∧
    ((small 1 0).slot 0).bits.countP (fun b => decide (b.stuff = .normalStuff ∧
      ((none : Option FieldTag) = none ∨ none = some b.kind) ∧ ((none : Option Level) = none ∨ none = some b.val)))
      ≤ (small 1 0).arg0.toNat ∧
    ((small 0 0).slot 0).bits.countP (fun b => decide (b.stuff = .fixedStuff ∧ b.val = .dominant)) ≤
      (small 0 0).arg0.toNat ∧
    (((small 0 0).setSlot 0 { smallSlot with bits := [] }).slot 0).valid = true ∧
    (∀ b ∈ (((small 0 0).setSlot 0 { smallSlot with bits := [] }).slot 0).bits,
      ¬((none : Option Level) = none ∨ none = some b.val)) ∧
    (∀ b ∈ ((small 0 0).slot 0).bits, ¬(b.kind = .ack ∧ (some Level.dominant = none ∨ some Level.dominant = some b.val))) := by
  decide

theorem witness_CountsAndLengths :
    ((small 3 0).slot 0).valid = true ∧ StuffKind.normalStuff ≠ .notStuff ∧
    (small 3 0).arg0.toNat < ((small 3 0).slot 0).bits.length ∧
    ((small 4 0).slot 0).bits.length ≤ (small 4 0).arg0.toNat := by
  decide

/-- An absolute and a typed selection of the last bit they can name. -/
theorem witness_ReadsReportTheSelectedBit :
    ((small 3 0).slot 0).valid = true ∧
    (Selects ((small 3 0).slot 0).bits .index (small 3 0).arg0.toNat 3 ∧
      ((small 3 0).slot 0).bits[3]? = some (bit .ack .recessive .fixedStuff)) ∧
    (Selects ((small 1 0).slot 0).bits (.typed .data) (small 1 0).arg0.toNat 2 ∧
      ((small 1 0).slot 0).bits[2]? = some (bit .data .dominant .notStuff)) :=
  ⟨rfl, ⟨⟨rfl, by decide⟩, rfl⟩, ⟨⟨⟨_, rfl, by decide⟩, by decide⟩, rfl⟩⟩

theorem witness_RandomSelectionAnswersAMatchingBit :
    ((small 0 0).slot 0).valid = true ∧
    (∃ b ∈ ((small 0 0).slot 0).bits, some Level.recessive = none ∨ some Level.recessive = some b.val) ∧
    (∃ b ∈ ((small 0 0).slot 0).bits, b.kind = .sof ∧ ((none : Option Level) = none ∨ none = some b.val)) := by
  decide

/-- The last bit, by a filter on its level. -/
theorem witness_EveryMatchingBitMayBeDrawn :
    ((small 0 0).slot 0).valid = true ∧
    ((small 0 0).slot 0).bits[3]? = some (bit .ack .recessive .fixedStuff) ∧
    (fun b : FrameBit => decide (some Level.recessive = none ∨ some Level.recessive = some b.val))
      (bit .ack .recessive .fixedStuff) = true :=
  ⟨rfl, rfl, rfl⟩

/-- The searches of a tag; and a stuff-bit search at the last number that succeeds and the first that misses. -/
theorem witness_LookupLaws :
    ((small 0 0).slot 0).valid = true ∧ (∃ t, exec (.getBitOf 0 .data) (small 0 0) = .next t) ∧
    (after (.getBitOfNoStuff 0 .data) (small 0 0)).code = .ok ∧ ((small 0 0).slot 0).bits.length ≤ 2 ^ 24 ∧
    (∃ u, exec (.getNumStuffBits 0 .normalStuff none) (small 0 0) = .next u) ∧
    (after (.getNumStuffBits 0 .normalStuff none) (small 0 0)).result = 1 ∧
    (after (.getStuffBit 0 none none) (small 0 0)).code = .ok ∧
    (after (.getStuffBit 0 none none) (small 1 0)).code = .bitNotFound :=
  ⟨rfl, ⟨_, exec_after _ _⟩, by decide +kernel, by decide, ⟨_, exec_after _ _⟩, by decide +kernel, by decide +kernel,
    by decide +kernel⟩

/-- For the statements whose one hypothesis is a built slot. -/
theorem witness_builtSlot : ((small 0 0).slot 0).valid = true := rfl

/-- A slot of each CRC width, at the highest and lowest DLC of the FD ones. -/
theorem witness_GetCrcAnswersTheCrcOfTheBits :
    (((small 0 0).slot 0).valid = true ∧ ((small 0 0).slot 0).fdf = false) ∧
    (({ smallSlot with fdf := true, dlc := 10 } : Slot).valid = true ∧
      ({ smallSlot with fdf := true, dlc := 10 } : Slot).fdf = true ∧
      ({ smallSlot with fdf := true, dlc := 10 } : Slot).dlc.toNat ≤ 10) ∧
    (({ smallSlot with fdf := true, dlc := 11 } : Slot).valid = true ∧
      ({ smallSlot with fdf := true, dlc := 11 } : Slot).fdf = true ∧
      10 < ({ smallSlot with fdf := true, dlc := 11 } : Slot).dlc.toNat) := by
  decide

theorem witness_QzLengthCountsTheCycles : ((v5 0).slot 0).valid = true := by decide +kernel

/-- The third quantum's cycle of the second bit: cycle 4 + 2. -/
theorem witness_QzReadReportsTheCycle :
    ((small 6 0).slot 0).valid = true ∧
    ((small 6 0).slot 0).bits = [bit .sof .dominant .notStuff] ++ bit .data .recessive .normalStuff ::
      [bit .data .dominant .notStuff, bit .ack .recessive .fixedStuff] ∧
    (bit .data .recessive .normalStuff).tqs = [{ phase := .sync, cycles := [none] }, { phase := .prop, cycles := [none] }]
      ++ { phase := .phase1, cycles := [none] } :: [{ phase := .phase2, cycles := [none] }] ∧
    ([none] : List (Option Level)) = [] ++ none :: [] ∧
    (small 6 0).arg0.toNat =
      (([bit .sof .dominant .notStuff] : List FrameBit).map fun b => (b.tqs.map fun q => q.cycles.length).sum).sum
        + (([{ phase := .sync, cycles := [none] }, { phase := .prop, cycles := [none] }] : List TimeQuantum).map
            fun q => q.cycles.length).sum + ([] : List (Option Level)).length := by
  decide

theorem witness_QzReadBeyondTheReadoutIsFatal :
    ((small 16 0).slot 0).valid = true ∧
    (((small 16 0).slot 0).bits.map fun b => (b.tqs.map fun q => q.cycles.length).sum).sum ≤ (small 16 0).arg0.toNat := by
  decide

/-- For the edits of one selected bit. -/
theorem witness_ValueAndLabelEdits :
    ((small 1 0).slot 0).valid = true ∧ Selects ((small 1 0).slot 0).bits (.typed .data) (small 1 0).arg0.toNat 2 ∧
    ((small 1 0).slot 0).bits[2]? = some (bit .data .dominant .notStuff) :=
  ⟨rfl, ⟨⟨_, rfl, by decide⟩, by decide⟩, rfl⟩

theorem witness_FlipTwiceIsTheIdentity :
    (∃ t u, exec (.flipBit 0 .index) (small 3 0) = .next t ∧ exec (.flipBit 0 .index) t = .next u) ∧
    (after (.flipBit 0 .index) (small 3 0)).code = .ok ∧ (after (.flipBit 0 .index) (small 3 0)).fatal = none :=
  ⟨⟨_, _, exec_after _ _, exec_after _ _⟩, by decide +kernel, by decide +kernel⟩

theorem witness_ShortenPhaseRemovesTheLastQuanta :
    ((small 0 2).slot 0).valid = true ∧ Selects ((small 0 2).slot 0).bits .index (small 0 2).arg0.toNat 0 ∧
    ((small 0 2).slot 0).bits[0]? = some (bit .sof .dominant .notStuff) :=
  ⟨rfl, ⟨rfl, by decide⟩, rfl⟩

/-- The most quanta that fit, and one more. -/
theorem witness_LengthenPhaseAddsFreshQuanta :
    ((small 0 1020).slot 0).valid = true ∧ Selects ((small 0 1020).slot 0).bits .index (small 0 1020).arg0.toNat 0 ∧
    ((small 0 1020).slot 0).bits[0]? = some (bit .sof .dominant .notStuff) ∧
    ((bit .sof .dominant .notStuff).tqs.length + (small 0 1020).arg1.toNat ≤ (small 0 1020).cfg.capTq ∧
      PhaseOrdered (bit .sof .dominant .notStuff).tqs) ∧
    (small 0 1021).cfg.capTq < (bit .sof .dominant .notStuff).tqs.length + (small 0 1021).arg1.toNat :=
  ⟨rfl, ⟨rfl, by decide⟩, rfl, by decide, by decide⟩

/-- More asked for than the phase holds, by an absolute selector and by a typed one. -/
theorem witness_ShortenThenLengthenRestoresTheCounts :
    ((small 0 3).fatal = none ∧ ((small 0 3).slot 0).valid = true ∧ ((small 1 3).slot 0).valid = true) ∧
    (Selects ((small 0 3).slot 0).bits .index (small 0 3).arg0.toNat 0 ∧
      ((small 0 3).slot 0).bits[0]? = some (bit .sof .dominant .notStuff) ∧
      (bit .sof .dominant .notStuff).tqs.length ≤ (small 0 3).cfg.capTq) ∧
    (Selects ((small 1 3).slot 0).bits (.typed .data) (small 1 3).arg0.toNat 2 ∧
      ((small 1 3).slot 0).bits[2]? = some (bit .data .dominant .notStuff)) ∧
    (∀ sel : BitSel, ∃ t u, exec (.shortenPhase 0 sel .phase2) (small 0 3) = .next t ∧
      exec (.lengthenPhase 0 sel .phase2) { t with arg1 := (small 0 3).arg1 - t.result } = .next u) :=
  ⟨⟨rfl, rfl, rfl⟩, ⟨⟨rfl, by decide⟩, rfl, by decide⟩, ⟨⟨⟨_, rfl, by decide⟩, by decide⟩, rfl⟩,
    fun _ => ⟨_, _, exec_after _ _, exec_after _ _⟩⟩

/-- The last quantum of the bit and the only one of a phase; and one beyond each. -/
theorem witness_ForceTqOverridesOneQuantum :
    ((small 0 3).slot 0).valid = true ∧ Selects ((small 0 3).slot 0).bits .index (small 0 3).arg0.toNat 0 ∧
    ((small 0 3).slot 0).bits[0]? = some (bit .sof .dominant .notStuff) ∧
    ((bit .sof .dominant .notStuff).tqs[3]? = some { phase := .phase2, cycles := [none] } ∧
      3 = (small 0 3).arg1.toNat) ∧
    ((bit .sof .dominant .notStuff).tqs[3]? = some { phase := .phase2, cycles := [none] } ∧
      IsNth (fun q : TimeQuantum => q.phase = .phase2) (bit .sof .dominant .notStuff).tqs (small 0 0).arg1.toNat 3) ∧
    (bit .sof .dominant .notStuff).tqs.length ≤ (small 0 4).arg1.toNat ∧
    ((bit .sof .dominant .notStuff).tqs.filter fun q => decide (q.phase = .phase2)).length ≤ (small 0 1).arg1.toNat :=
  ⟨rfl, ⟨rfl, by decide⟩, rfl, ⟨rfl, by decide⟩, ⟨rfl, ⟨_, rfl, by decide⟩, by decide⟩, by decide, by decide⟩

/-- An insertion at the end, one beyond it, an append with ARG0 beyond it, and room for eight more bits. -/
theorem witness_InsertAndAppendBits :
    ((small 4 0).slot 0).valid = true ∧ ((small 4 0).slot 0).bits = smallSlot.bits ++ [] ∧
    (small 4 0).arg0.toNat = smallSlot.bits.length ∧
    smallSlot.bits.length + ([] : List FrameBit).length + 1 ≤ (small 4 0).cfg.capBits ∧
    (((small 5 0).slot 0).bits.length < (small 5 0).arg0.toNat ∧
      ((small 5 0).slot 0).bits.length + 1 ≤ (small 5 0).cfg.capBits) ∧
    ((small 4 0).slot 0).bits.length + 8 ≤ (small 4 0).cfg.capBits := by
  decide

/-- The last bit selected, and the end position. -/
theorem witness_RemoveBits :
    ((small 3 0).slot 0).valid = true ∧
    (((small 3 0).slot 0).bits = smallSlot.bits.take 3 ++ bit .ack .recessive .fixedStuff :: [] ∧
      Selects ((small 3 0).slot 0).bits .index (small 3 0).arg0.toNat (smallSlot.bits.take 3).length) ∧
    (((small 4 0).slot 0).bits = smallSlot.bits ++ [] ∧
      SelectsOrEnd ((small 4 0).slot 0).bits .index (small 4 0).arg0.toNat smallSlot.bits.length) :=
  ⟨rfl, ⟨rfl, ⟨rfl, by decide⟩⟩, ⟨rfl, .inr ⟨rfl, rfl, rfl⟩⟩⟩

/-- The end position, and a typed one. -/
theorem witness_ErrorAndOverloadFrameShape :
    ((small 4 0).slot 0).valid = true ∧
    (((small 4 0).slot 0).bits = smallSlot.bits ++ [] ∧
      SelectsOrEnd ((small 4 0).slot 0).bits .index (small 4 0).arg0.toNat smallSlot.bits.length ∧
      smallSlot.bits.length + 14 ≤ (small 4 0).cfg.capBits) ∧
    SelectsOrEnd ((small 1 0).slot 0).bits (.typed .data) (small 1 0).arg0.toNat (smallSlot.bits.take 2).length :=
  ⟨rfl, ⟨rfl, .inr ⟨rfl, rfl, rfl⟩, by decide⟩, .inl ⟨⟨_, rfl, by decide⟩, by decide⟩⟩

theorem witness_TurnReceivedGivesTheReceiversView :
    ((small 0 0).slot 0).valid = true ∧ ((small 0 0).slot 0).bits[3]? = some (bit .ack .recessive .fixedStuff) :=
  ⟨rfl, rfl⟩

/-- A slot cloned, and appended to itself. -/
theorem witness_CloneAndAppendFrame :
    ((small 0 0).slot 0).valid = true ∧
    ((small 0 0).slot 0).bits.length + ((small 0 0).slot 0).bits.length ≤ (small 0 0).cfg.capBits := by
  decide

/-- Two built slots, the last bit selected. -/
theorem witness_ArbitrationLossThenTheWinner :
    (0 : SlotIx) ≠ 1 ∧ (((small 3 0).setSlot 1 smallSlot).slot 1).valid = true ∧
    (((small 3 0).setSlot 1 smallSlot).slot 0).valid = true ∧
    ((small 3 0).setSlot 1 smallSlot).arg0.toNat < (((small 3 0).setSlot 1 smallSlot).slot 0).bits.length ∧
    ((small 3 0).setSlot 1 smallSlot).arg0.toNat + 1 + (((small 3 0).setSlot 1 smallSlot).slot 1).bits.length
      ≤ ((small 3 0).setSlot 1 smallSlot).cfg.capBits ∧
    ∃ t u, exec (.loseArbitration 0 .index) ((small 3 0).setSlot 1 smallSlot) = .next t ∧
      exec (.appendFrame 0 1) t = .next u :=
  ⟨by decide, rfl, rfl, by decide, by decide, _, _, exec_after _ _, exec_after _ _⟩

/-- A slot with bit-rate shift and one without; a phase of each domain. -/
theorem witness_NewBitTimingSum :
    ¬(smallSlot.fdf = true ∧ smallSlot.brs = true) ∧
    ({ smallSlot with fdf := true, brs := true } : Slot).fdf = true ∧
    ({ smallSlot with fdf := true, brs := true } : Slot).brs = true ∧
    phaseTiming { smallSlot with fdf := true, brs := true, dbt := { smallSlot.dbt with brp := 2 } } .brs .notStuff
      .phase2 = { smallSlot.dbt with brp := 2 } ∧
    phaseTiming { smallSlot with fdf := true, brs := true, dbt := { smallSlot.dbt with brp := 2 } } .brs .notStuff
      .phase1 = smallSlot.nbt := by
  decide

/-- Each check of BUILD at its boundary: flags, identifier, DLC, nominal and data timing; and registers that pass. -/
theorem witness_BuildChecksInOrder :
    (flagFdf 0x5 = true ∧ flagRtr 0x5 = true) ∧
    (¬(flagFdf 0x0 = true ∧ flagRtr 0x0 = true) ∧ flagIde 0x0 = false ∧ 0x7FF < (0x800 : BitVec 29).toNat) ∧
    (¬(flagFdf 0x0 = true ∧ flagRtr 0x0 = true) ∧ flagFdf 0x0 = false ∧ 8 < (9 : BitVec 4).toNat) ∧
    (¬(flagFdf 0x0 = true ∧ flagRtr 0x0 = true) ∧ (flagIde 0x0 = false → (0x7FF : BitVec 29).toNat ≤ 0x7FF) ∧
      (flagFdf 0x0 = false → (8 : BitVec 4).toNat ≤ 8) ∧ (fieldBrp 0x01010100).toNat = 0) ∧
    (fieldPh2 0x01010101).toNat < (2 : BitVec 8).toNat ∧
    (flagFdf 0x9 = true ∧ flagBrs 0x9 = true ∧ (fieldBrp 0x01010100).toNat = 0) ∧
    ((v1Registers 0 0).fatal = none ∧ BuildLegal (v1Registers 0 0) ∧ (after (.build 0) (v1Registers 0 0)).fatal = none) := by
  decide +kernel

theorem witness_BuildCompletesOnLegalRegisters :
    BuildLegal (v1Registers 0 0) ∧ 800 ≤ (v1Registers 0 0).cfg.capBits := by
  decide +kernel

theorem witness_BuiltFrameCarriesItsFields :
    BuildLegal (v1Registers 0 0) ∧ (∃ t, exec (.build 0) (v1Registers 0 0) = .next t) ∧
    (after (.build 0) (v1Registers 0 0)).fatal = none :=
  ⟨by decide +kernel, ⟨_, exec_after _ _⟩, by decide +kernel⟩

theorem witness_FdFieldLengthsAfterBuild :
    flagFdf ({ v1Registers 0 0 with flags := 0x9 } : State).flags = true ∧
    ({ v1Registers 0 0 with flags := 0x9 } : State).fatal = none ∧
    (after (.build 0) { v1Registers 0 0 with flags := 0x9 }).code = .ok ∧
    (after (.build 0) { v1Registers 0 0 with flags := 0x9 }).fatal = none := by
  decide +kernel

theorem witness_UpdateKeepsTheLogicalBits :
    ((v1 0 0).slot 0).valid = true ∧
    (restuff (v1 0 0).cfg ((v1 0 0).slot 0)).length ≤ (v1 0 0).cfg.capBits := by
  decide +kernel

/-- A BUILD and an UPDATE after an edit, both without a fatal error: for the statements about either. -/
theorem witness_StuffingInvariantAfterBuildAndUpdate :
    ((v1Registers 0 0).fatal = none ∧ (after (.build 0) (v1Registers 0 0)).fatal = none ∧
      (after (.build 0) (v1Registers 0 0)).code = .ok) ∧
    ((after (.removeBit 0 .index) (v1 6 0)).fatal = none ∧
      (after (.update 0) (after (.removeBit 0 .index) (v1 6 0))).fatal = none) := by
  decide +kernel

/-- A BUILD of V1; an UPDATE after an edit; and each place of the rule: five equal bits with another bit after them, five
that end a Classical dynamic part, and five at the boundary of an FD one, with either FD_BOUNDARY_STUFF. -/
theorem witness_StuffBitsFollowTheRule :
    ((v1Registers 0 0).fatal = none ∧ (after (.build 0) (v1Registers 0 0)).fatal = none ∧
      (after (.build 0) (v1Registers 0 0)).code = .ok) ∧
    ((fiveThen false .srr .fixedOnly).fatal = none ∧
      (after (.update 0) (fiveThen false .srr .fixedOnly)).fatal = none) ∧
    ((fiveThen true .stuffCount .fixedOnly).fatal = none ∧
      (after (.update 0) (fiveThen true .stuffCount .fixedOnly)).fatal = none) ∧
    ((fiveThen true .stuffCount .dynamicThenFixed).fatal = none ∧
      (after (.update 0) (fiveThen true .stuffCount .dynamicThenFixed)).fatal = none) ∧
    EndsInFive ((fiveThen false .srr .fixedOnly).slot 0).bits.dropLast (bit .data .dominant .notStuff) := by
  refine ⟨?_, ?_, ?_, ?_, rfl, [], rfl⟩ <;> decide +kernel

theorem witness_UpdateIsIdempotent :
    ((v1Registers 0 0).fatal = none ∧ (after (.build 0) (v1Registers 0 0)).fatal = none ∧
      (after (.build 0) (v1Registers 0 0)).code = .ok) ∧
    ((after (.flipBit 0 .index) (v1 29 0)).fatal = none ∧
      (after (.update 0) (after (.flipBit 0 .index) (v1 29 0))).fatal = none) := by
  decide +kernel

/-- An FD frame built; an edited V1 updated, whose span has the CRC's 15 bits; and an edited V5 updated, whose span has
the 3 bits of the stuff count and the parity bit. -/
theorem witness_CrcRoundTripAfterBuildAndUpdate :
    (flagFdf (v5 0).flags = true ∧ (v5 0).fatal = none ∧ (v5 0).code = .ok) ∧
    ((after (.flipBit 0 .index) (v1 29 0)).fatal = none ∧
      (after (.update 0) (after (.flipBit 0 .index) (v1 29 0))).fatal = none ∧
      ((spanOf ((after (.update 0) (after (.flipBit 0 .index) (v1 29 0))).slot 0).bits).filter fun b =>
        decide (b.kind = .crc ∧ b.stuff = .notStuff)).length
        = ((after (.update 0) (after (.flipBit 0 .index) (v1 29 0))).slot 0).crcKind.width) ∧
    ((after (.flipBit 0 .index) (v5 30)).fatal = none ∧
      (after (.update 0) (after (.flipBit 0 .index) (v5 30))).fatal = none ∧
      ((after (.update 0) (after (.flipBit 0 .index) (v5 30))).slot 0).fdf = true ∧
      ((spanOf ((after (.update 0) (after (.flipBit 0 .index) (v5 30))).slot 0).bits).filter fun b =>
        decide (b.kind = .stuffCount ∧ b.stuff = .notStuff)).length = 3 ∧
      ((spanOf ((after (.update 0) (after (.flipBit 0 .index) (v5 30))).slot 0).bits).filter fun b =>
        decide (b.kind = .stuffParity ∧ b.stuff = .notStuff)).length = 1) := by
  decide +kernel

/-- V1 with one CRC bit fewer and with one more than the field has, updated: the k-th bit below and at the width. -/
theorem witness_CrcRoundTripAfterBuildAndUpdate_length :
    ((after (.removeBit 0 (.typed .crc)) (v1 0 0)).fatal = none ∧
      (after (.update 0) (after (.removeBit 0 (.typed .crc)) (v1 0 0))).fatal = none ∧
      (fieldBits (spanOf ((after (.removeBit 0 (.typed .crc)) (v1 0 0)).slot 0).bits) .crc).length = 14) ∧
    ((after (.insertBit 0 .crc .recessive) (v1 45 0)).fatal = none ∧
      (after (.update 0) (after (.insertBit 0 .crc .recessive) (v1 45 0))).fatal = none ∧
      (fieldBits (spanOf ((after (.insertBit 0 .crc .recessive) (v1 45 0)).slot 0).bits) .crc).length = 16 ∧
      ((fieldBits (spanOf ((after (.insertBit 0 .crc .recessive) (v1 45 0)).slot 0).bits) .crc)[15]?).isSome = true) ∧
    ((v1 0 0).slot 0).crcKind.width = 15 := by
  decide +kernel

/-- Everything pinned, at the highest identifier and DLC its pinned flags allow. -/
theorem witness_RandomizeGivesALegalDescriptor :
    ∃ s : State, s.pin = 0xFF ∧
      ¬(s.pin.getLsbD 0 = true ∧ s.pin.getLsbD 2 = true ∧ flagFdf s.flags = true ∧ flagRtr s.flags = true) ∧
      (s.id.toNat ≤ 0x7FF ∨ (s.pin.getLsbD 1 = true ∧ flagIde s.flags = true)) ∧
      (s.dlc.toNat ≤ 8 ∨ (s.pin.getLsbD 0 = true ∧ flagFdf s.flags = true)) :=
  ⟨{ State.reset with pin := 0xFF, flags := 0x03, id := 0x1FFFFFFF, dlc := 15 }, rfl, by decide, by decide, by decide⟩

/-- Both flags pinned; and the rows of family table 40: PIN 0x22 with identifier 0x800, PIN 0x61 with DLC 9, and RTR
pinned 1 with DLC 9. -/
theorem witness_RandomizeFailures :
    ((0x05 : BitVec 8).getLsbD 0 = true ∧ (0x05 : BitVec 8).getLsbD 2 = true ∧ flagFdf 0x5 = true ∧ flagRtr 0x5 = true) ∧
    (¬(flagFdf 0x0 = true ∧ flagRtr 0x0 = true) ∧ (0x22 : BitVec 8).getLsbD 5 = true ∧
      0x7FF < (0x800 : BitVec 29).toNat ∧ (0x22 : BitVec 8).getLsbD 1 = true ∧ flagIde 0x0 = false) ∧
    ((0x61 : BitVec 8).getLsbD 6 = true ∧ 8 < (9 : BitVec 4).toNat ∧ (0x61 : BitVec 8).getLsbD 0 = true ∧
      flagFdf 0x0 = false) ∧
    (¬(flagFdf 0x4 = true ∧ flagRtr 0x4 = true) ∧ (0x44 : BitVec 8).getLsbD 6 = true ∧
      (0x44 : BitVec 8).getLsbD 2 = true ∧ flagRtr 0x4 = true) := by
  decide

/-- Nothing pinned, and the descriptor with the highest identifier and DLC. -/
theorem witness_EveryLegalDescriptorMayBeDrawn :
    ¬(flagFdf 0x3 = true ∧ flagRtr 0x3 = true) ∧ (flagIde 0x3 = false → (0x1FFFFFFF : BitVec 29).toNat ≤ 0x7FF) ∧
    (flagFdf 0x3 = false → (15 : BitVec 4).toNat ≤ 8) ∧ (∀ k : Fin 8, State.reset.pin.getLsbD k.val = false) ∧
    flagRtr 0x3 = false ∧ 63 < fdLengths[15]?.getD 0 := by
  decide

/-- A built slot, with a command to come. -/
theorem witness_StepKeepsTheSlotInvariant :
    StateOk (v1 0 0) ∧ ∃ t, step ((v1 0 0).withFetchWord 32 0x0000001F) = .next t := by
  constructor
  · refine ⟨by decide +kernel, fun ix => ?_⟩
    fin_cases ix <;> decide +kernel
  · exact (step_withFetchWord (v1 0 0) 0x0000001F).symm ▸ commandWrite_next _ _

/-- Every kind of input that has a step. -/
theorem witness_SafeInputsNeverStop :
    SafeInputs { State.reset with
      pending := [.write 0x000 4 0xFFFFFFFF, .write 0x13C 4 1, .read 0x00C 4, .reset] } := by
  decide

end Sys2Proof.Machine
end

section
/-! SUPPORT. What every command leaves unchanged of the registers (spec/10_state.md R39, R45,
spec/40_frame_descriptor.md R150), and what the searches and the random selections answer (spec/44_lookup.md R290 to
R293, R300, R301). -/

namespace Sys2Proof.Machine

/-! ## The filters as propositions (R116) -/

theorem matchesTag_eq (kf : Option FieldTag) (b : FrameBit) :
    matchesTag kf b = decide (kf = none ∨ kf = some b.kind) := by
  cases kf with
  | none => simp [matchesTag]
  | some t => simp [matchesTag, beq_eq_decide, eq_comm]

/-! ## Searches (R289 to R293) -/

/-- A search whose filter decides `p` answers the position of the n-th element satisfying `p`. -/
theorem findBit_of_isNth {ix : SlotIx} {s : State} {i : Nat} {p : FrameBit → Prop} [DecidablePred p]
    {q : FrameBit → Bool} (hv : (s.slot ix).valid = true) (hq : ∀ b, q b = decide (p b))
    (h : IsNth p (s.slot ix).bits s.arg0.toNat i) : findBit ix q s = answered s (BitVec.ofNat 32 i) := by
  obtain rfl : q = fun b => decide (p b) := funext hq
  exact findBit_some hv (nth_of_isNth h)

/-- Settles O22: each search is `findBit` with a filter that decides the statement's predicate. -/
theorem searchesAnswerTheNthMatch : Obligations.SearchesAnswerTheNthMatch := by
  intro s ix i hv
  refine ⟨fun k h => ?_, fun k h => ?_, fun kf vf h => ?_, fun v h => ?_⟩
  · exact congrArg Host.Outcome.next (findBit_of_isNth hv (fun b => beq_eq_decide _ _) h)
  · exact congrArg Host.Outcome.next (findBit_of_isNth hv (fun b => by simp [beq_eq_decide]) h)
  · exact congrArg Host.Outcome.next (findBit_of_isNth hv
      (fun b => by simp [beq_eq_decide, matchesTag_eq, matchesLevel_eq, Bool.and_assoc]) h)
  · exact congrArg Host.Outcome.next (findBit_of_isNth hv (fun b => by simp [beq_eq_decide]) h)

/-! ## Random selections (R300, R301) -/

/-- With no bit to draw from, a random selection fails. -/
theorem randomBit_miss {o : Nat → Nat} {ix : SlotIx} {p : FrameBit → Bool} {s : State}
    (hv : (s.slot ix).valid = true) (h : positions p (s.slot ix).bits = []) :
    randomBit o ix p s = fail .bitNotFound s := by
  rw [randomBit, withSlot_valid ix s _ hv]
  simp only [h]

/-- With bits to draw from, a random selection answers the position at the drawn index of the draw set. -/
theorem randomBit_hit (o : Nat → Nat) {ix : SlotIx} {p : FrameBit → Bool} {s : State}
    (hv : (s.slot ix).valid = true) (h : positions p (s.slot ix).bits ≠ []) :
    ∃ i, (positions p (s.slot ix).bits)[(drawFrom o s.draws (positions p (s.slot ix).bits).length).1]? = some i ∧
      randomBit o ix p s = answer (BitVec.ofNat 32 i)
        { s with draws := (drawFrom o s.draws (positions p (s.slot ix).bits).length).2 } := by
  rw [randomBit, withSlot_valid ix s _ hv]
  cases hm : positions p (s.slot ix).bits with
  | nil => exact absurd hm h
  | cons m ms =>
    have hlt : (drawFrom o s.draws (ms.length + 1)).1 < (m :: ms).length := drawFrom_lt _ _ _ (Nat.succ_pos _)
    exact ⟨_, by rw [List.getD_eq_getElem _ m hlt]; exact List.getElem?_eq_getElem hlt, rfl⟩

/-- Everything a random selection can do. -/
theorem randomBit_cases (o : Nat → Nat) (ix : SlotIx) (p : FrameBit → Bool) (s : State) :
    ((s.slot ix).valid = false ∧ randomBit o ix p s = raiseFatal .invalidSlot s) ∨
    ((s.slot ix).valid = true ∧ positions p (s.slot ix).bits = [] ∧ randomBit o ix p s = fail .bitNotFound s) ∨
    ∃ i d, (s.slot ix).valid = true ∧ i ∈ positions p (s.slot ix).bits ∧
      randomBit o ix p s = answer (BitVec.ofNat 32 i) { s with draws := d } := by
  cases hv : (s.slot ix).valid with
  | false => exact .inl ⟨rfl, withSlot_invalid ix s _ hv⟩
  | true =>
    by_cases h : positions p (s.slot ix).bits = []
    · exact .inr (.inl ⟨rfl, h, randomBit_miss hv h⟩)
    · obtain ⟨i, hi, he⟩ := randomBit_hit o hv h
      exact .inr (.inr ⟨i, _, rfl, List.mem_of_getElem? hi, he⟩)

/-- Every position of the draw set is answered with some ORACLE: one that answers the position's index in the set. -/
theorem exists_oracle_randomBit {ix : SlotIx} {p : FrameBit → Bool} {s : State} {i : Nat}
    (hv : (s.slot ix).valid = true) (hi : i ∈ positions p (s.slot ix).bits) :
    ∃ (o : Nat → Nat) (d : Nat), randomBit o ix p s = answer (BitVec.ofNat 32 i) { s with draws := d } := by
  obtain ⟨j, hj, hji⟩ := List.mem_iff_getElem.1 hi
  obtain ⟨i', hi', he⟩ := randomBit_hit (fun _ => j) hv (List.ne_nil_of_mem hi)
  rw [drawFrom_any _ _ j hj _ rfl, List.getElem?_eq_getElem hj, hji] at hi'
  obtain rfl := Option.some.inj hi'
  exact ⟨_, _, he⟩

/-- Settles O27: the filters decide the statement's predicates, and the draw set holds every matching position. -/
theorem everyMatchingBitMayBeDrawn : Obligations.EveryMatchingBitMayBeDrawn := by
  refine ⟨fun s ix vf => ?_, fun s ix k vf => ?_, fun s ix p i b hv hb hp => ?_⟩
  · rw [← matchesLevel_eq]
    rfl
  · have hq : (fun b : FrameBit => decide (b.kind = k ∧ (vf = none ∨ vf = some b.val))) =
        fun b => b.kind == k && matchesLevel vf b := by
      funext b
      simp [beq_eq_decide, matchesLevel_eq]
    rw [hq]
    rfl
  · obtain ⟨o, d, h⟩ := exists_oracle_randomBit hv ((mem_positions p _ i).2 ⟨b, hb, hp⟩)
    exact ⟨o, by rw [h, answer_code], by rw [h, answer_result]⟩

/-! ## The register frame (R39, R45)

Every command but RANDOMIZE is built from a few shared operations; each of them keeps the registers, and the frame of a
command is that of its operation. -/

/-- From `s` to `t` nothing changed but STATUS, the slots, RESULT where `answers` allows it, and the ORACLE's state
where `drawing` allows it. -/
structure KeepsRegisters (answers drawing : Bool) (s t : State) : Prop where
  others : ∃ code fatal result slots draws,
    t = { s with code := code, fatal := fatal, result := result, slots := slots, draws := draws }
  result : answers = false → t.result = s.result
  draws : drawing = false → t.draws = s.draws

section
variable {a d : Bool}

theorem answer_keepsRegisters (v : Word) (s : State) : KeepsRegisters true d s (answer v s) :=
  ⟨⟨_, _, _, _, _, rfl⟩, nofun, fun _ => rfl⟩

theorem fail_keepsRegisters (c : ResultCode) (s : State) : KeepsRegisters a d s (fail c s) :=
  ⟨⟨_, _, _, _, _, rfl⟩, fun _ => rfl, fun _ => rfl⟩

theorem raiseFatal_keepsRegisters (f : FatalCause) (s : State) : KeepsRegisters a d s (raiseFatal f s) :=
  ⟨⟨_, _, _, _, _, rfl⟩, fun _ => rfl, fun _ => rfl⟩

theorem halt_keepsRegisters (e : Halt) (s : State) : KeepsRegisters a d s (halt e s) := by
  cases e with
  | fail c => exact fail_keepsRegisters c s
  | fatal f => exact raiseFatal_keepsRegisters f s

/-- Storing a slot and completing keeps the registers. -/
theorem succeed_setSlot_keepsRegisters (ix : SlotIx) (sl : Slot) (s : State) :
    KeepsRegisters a d s (succeed (s.setSlot ix sl)) := ⟨⟨_, _, _, _, _, rfl⟩, fun _ => rfl, fun _ => rfl⟩

theorem withSlot_keepsRegisters {ix : SlotIx} {s : State} {k : Slot → State}
    (hk : KeepsRegisters a d s (k (s.slot ix))) : KeepsRegisters a d s (withSlot ix s k) := by
  cases hv : (s.slot ix).valid with
  | false => exact withSlot_invalid ix s k hv ▸ raiseFatal_keepsRegisters _ s
  | true => exact withSlot_valid ix s k hv ▸ hk

theorem query_keepsRegisters (ix : SlotIx) (f : Slot → Except Halt Word) (s : State) :
    KeepsRegisters true d s (query ix f s) := by
  obtain ⟨-, h⟩ | ⟨v, -, -, h⟩ | ⟨e, -, -, h⟩ := query_cases ix f s <;> rw [h]
  · exact raiseFatal_keepsRegisters _ s
  · exact answer_keepsRegisters v s
  · exact halt_keepsRegisters e s

/-- A committed edit writes RESULT only where it has a reply. -/
theorem commit_keepsRegisters {ix : SlotIx} {sl : Slot} {e : Edit} {s : State} (he : a = false → e.reply = none) :
    KeepsRegisters a d s (commit ix sl e s) := by
  obtain ⟨bits, reply⟩ := e
  cases reply with
  | none => exact succeed_setSlot_keepsRegisters ix _ s
  | some v => exact ⟨⟨_, _, _, _, _, rfl⟩, fun ha => (nomatch he ha), fun _ => rfl⟩

theorem edit_keepsRegisters {ix : SlotIx} {f : Slot → Except Halt Edit} {s : State}
    (hf : a = false → ∀ e, f (s.slot ix) = .ok e → e.reply = none) : KeepsRegisters a d s (edit ix f s) := by
  obtain ⟨-, h⟩ | ⟨e, -, he, h⟩ | ⟨e, -, -, h⟩ := edit_cases ix f s <;> rw [h]
  · exact raiseFatal_keepsRegisters _ s
  · exact commit_keepsRegisters fun ha => hf ha e he
  · exact halt_keepsRegisters e s

theorem randomBit_keepsRegisters (o : Nat → Nat) (ix : SlotIx) (p : FrameBit → Bool) (s : State) :
    KeepsRegisters true true s (randomBit o ix p s) := by
  obtain ⟨-, h⟩ | ⟨-, -, h⟩ | ⟨i, n, -, -, h⟩ := randomBit_cases o ix p s <;> rw [h]
  · exact raiseFatal_keepsRegisters _ s
  · exact fail_keepsRegisters _ s
  · exact ⟨⟨_, _, _, _, _, rfl⟩, nofun, nofun⟩

theorem buildInto_keepsRegisters (dst : SlotIx) (s : State) : KeepsRegisters a d s (buildInto dst s) := by
  unfold buildInto
  split
  · exact fail_keepsRegisters _ s
  · split
    · exact raiseFatal_keepsRegisters _ s
    · exact succeed_setSlot_keepsRegisters dst _ s

end

/-! ### Edits without a reply -/

theorem fitBits_reply {cfg : Config} {bits : List FrameBit} {e : Edit} (h : fitBits cfg bits = .ok e) :
    e.reply = none := by
  unfold fitBits at h
  split at h <;> cases h
  rfl

/-- Where the prologue on one bit succeeds, `f` did on some bit. -/
theorem atBit_eq_ok {α : Type} {sl : Slot} {sel : BitSel} {arg : Nat} {f : Nat → FrameBit → Except Halt α} {x : α}
    (h : atBit sl sel arg f = .ok x) : ∃ i b, f i b = .ok x := by
  obtain ⟨e, -, he⟩ | ⟨i, b, -, -, hf⟩ := atBit_cases sl sel arg f
  · cases he.symm.trans h
  · exact ⟨i, b, hf.symm.trans h⟩

/-- A command on one bit writes RESULT only where its bit edit has a reply. -/
theorem editBit_keepsRegisters {a d : Bool} {ix : SlotIx} {sel : BitSel} {f : FrameBit → Except Halt BitEdit}
    {s : State} (hf : a = false → ∀ b e, f b = .ok e → e.reply = none) : KeepsRegisters a d s (editBit ix sel f s) := by
  refine edit_keepsRegisters fun ha e he => ?_
  obtain ⟨i, b, h⟩ := atBit_eq_ok he
  split at h <;> cases h
  exact hf ha b _ ‹_›

/-- A splice has no reply, so it keeps RESULT too. -/
theorem splice_keepsRegisters {a d : Bool} {ix : SlotIx} {sel : BitSel} {flagTag delimTag : FieldTag} {flagVal : Level}
    {s : State} : KeepsRegisters a d s (splice ix sel flagTag flagVal delimTag s) := by
  refine edit_keepsRegisters fun _ e he => ?_
  split at he
  · exact fitBits_reply he
  · cases he

/-! ### The commands -/

/-- The register frame of every command but RANDOMIZE. -/
theorem exec_keepsRegisters {i : Instr} {s t : State} (hi : i ≠ .randomize) (h : exec i s = .next t) :
    KeepsRegisters (returnsValue i) (mayDraw i) s t := by
  cases i <;> injection h with h <;> subst h
  case randomize => exact absurd rfl hi
  case build dst => exact buildInto_keepsRegisters dst s
  case clone dst src => exact withSlot_keepsRegisters (succeed_setSlot_keepsRegisters dst _ s)
  case getNumStuffBits ix sk vf =>
    split
    · exact raiseFatal_keepsRegisters _ s
    · exact query_keepsRegisters ix _ s
  case getRandomBit ix vf => exact randomBit_keepsRegisters _ ix _ s
  case getRandomBitOf ix k vf => exact randomBit_keepsRegisters _ ix _ s
  case getCrc | getBitOf | getBitOfNoStuff | getStuffBit | getFixedStuffBit | getBitIndex | getFieldLength | getLength
      | readBit | readPhaseLen | qzLength | qzRead => exact query_keepsRegisters _ _ s
  case update | appendBit | appendSuspend => exact edit_keepsRegisters fun _ _ => fitBits_reply
  case insertBit =>
    refine edit_keepsRegisters fun _ e he => ?_
    split at he
    · cases he
    · exact fitBits_reply he
  case insertActiveErrorFrame | insertPassiveErrorFrame | insertOverloadFrame => exact splice_keepsRegisters
  case appendFrame =>
    exact withSlot_keepsRegisters (withSlot_keepsRegisters (edit_keepsRegisters fun _ _ => fitBits_reply))
  case turnReceived => exact edit_keepsRegisters fun _ e he => by cases he; rfl
  case removeBitsFrom ix sel =>
    refine edit_keepsRegisters fun _ e he => ?_
    cases hs : selectBit (s.slot ix).bits sel s.arg0.toNat true <;> rw [hs] at he <;> cases he
    rfl
  case removeBit | loseArbitration =>
    refine edit_keepsRegisters fun _ e he => ?_
    obtain ⟨_, _, h⟩ := atBit_eq_ok he
    cases h
    rfl
  case shortenPhase => exact editBit_keepsRegisters nofun
  case flipBit | setBitValue | setStuffKind => exact editBit_keepsRegisters fun _ b e he => by cases he; rfl
  case lengthenPhase | forceTq =>
    refine editBit_keepsRegisters fun _ b e he => ?_
    split at he <;> cases he
    rfl

/-- Everything RANDOMIZE can do (R150): it fails with its draws used, or writes the descriptor and the payload. -/
theorem randomizeWith_cases (o : Nat → Nat) (s : State) :
    (∃ c n, randomizeWith o s = fail c { s with draws := n }) ∨
    ∃ flags id dlc data n, randomizeWith o s =
      succeed { s with flags := flags, id := id, dlc := dlc, data := data, draws := n } := by
  unfold randomizeWith
  split
  · exact .inl ⟨_, _, rfl⟩
  · dsimp only
    split
    · exact .inl ⟨_, _, rfl⟩
    · split
      · exact .inl ⟨_, _, rfl⟩
      · exact .inr ⟨_, _, _, _, _, rfl⟩

/-- The frame of RANDOMIZE: STATUS.CODE, the descriptor, the payload and the ORACLE's state are all it may write. -/
theorem randomizeWith_frame (o : Nat → Nat) (s : State) :
    ∃ code flags id dlc data n, randomizeWith o s =
      { s with code := code, flags := flags, id := id, dlc := dlc, data := data, draws := n } := by
  obtain ⟨c, n, h⟩ | ⟨flags, id, dlc, data, n, h⟩ := randomizeWith_cases o s
  · exact ⟨_, _, _, _, _, _, h⟩
  · exact ⟨_, _, _, _, _, _, h⟩

/-- Settles O20: RANDOMIZE by its own frame, every other command by that of the operation it is built from. -/
theorem commandsLeaveTheOtherRegisters : Obligations.CommandsLeaveTheOtherRegisters := by
  intro i s t h
  by_cases hi : i = .randomize
  · subst hi
    injection h with h
    subst h
    obtain ⟨_, _, _, _, _, _, hf⟩ := randomizeWith_frame Config.oracle s
    rw [hf]
    exact ⟨rfl, rfl, rfl, rfl, rfl, rfl, rfl, rfl, rfl, rfl, rfl, fun hn => absurd rfl hn, fun _ => rfl, nofun⟩
  · obtain ⟨⟨_, _, _, _, _, rfl⟩, hr, hd⟩ := exec_keepsRegisters hi h
    exact ⟨rfl, rfl, rfl, rfl, rfl, rfl, rfl, rfl, rfl, rfl, rfl, fun _ => ⟨rfl, rfl, rfl, rfl⟩, hr, hd⟩

end Sys2Proof.Machine
end

section
/-! SUPPORT. The invariant of the slots under every command and every input (spec/10_state.md R47 with R40 to R42): the
bits that a command creates or edits are good, each shared operation keeps the invariant, and so does every step. -/

namespace Sys2Proof.Machine

/-! ## Quantum edits keep a bit good (R41, R42) -/

/-- Removing quanta keeps a bit good (R223). -/
theorem shortenQuanta_ok {cfg : Config} {b : FrameBit} (h : BitOk cfg b) (ph : Phase) (n : Nat) :
    BitOk cfg { b with tqs := shortenQuanta b.tqs ph n } := by
  obtain ⟨hord, hlen, hcyc, hp⟩ := h
  have hs : (shortenQuanta b.tqs ph n).Sublist b.tqs := keepFirst_sublist _ _ _
  exact ⟨hord.sublist hs, hs.length_le.trans hlen, fun q hq => hcyc q (hs.subset hq), hp⟩

/-- The added quanta come after those of their phase and before those of a later one (R224). -/
theorem lengthenQuanta_ordered {tqs : List TimeQuantum} (h : PhaseOrdered tqs) (pbrp : Prescalers) (ph : Phase)
    (n : Nat) : PhaseOrdered (lengthenQuanta tqs pbrp ph n) := by
  obtain ⟨hpre, hpost⟩ := phaseEnd_split h ph
  have hall := (List.take_append_drop (phaseEnd tqs ph) tqs).symm ▸ h
  obtain ⟨htake, hdrop, hcross⟩ := List.pairwise_append.1 hall
  refine List.pairwise_append.2 ⟨List.pairwise_append.2 ⟨htake, List.pairwise_replicate.2 (.inr le_rfl), ?_⟩, hdrop, ?_⟩
  · intro a ha q hq
    rw [List.eq_of_mem_replicate hq]
    exact hpre a ha
  · intro a ha q hq
    rcases List.mem_append.1 ha with ha | ha
    · exact hcross a ha q hq
    · rw [List.eq_of_mem_replicate ha]
      exact (hpost q hq).le

/-- Adding fresh quanta keeps a bit good where CAP_TQ allows them (R224). -/
theorem lengthenQuanta_ok {cfg : Config} {b : FrameBit} (h : BitOk cfg b) (ph : Phase) {n : Nat}
    (hn : b.tqs.length + n ≤ cfg.capTq) : BitOk cfg { b with tqs := lengthenQuanta b.tqs b.pbrp ph n } := by
  obtain ⟨hord, -, hcyc, hp⟩ := h
  refine ⟨lengthenQuanta_ordered hord b.pbrp ph n, ?_, fun q hq => ?_, hp⟩
  · simp only [lengthenQuanta, List.length_append, List.length_take, List.length_drop, List.length_replicate]
    omega
  · simp only [lengthenQuanta, List.mem_append] at hq
    rcases hq with (hq | hq) | hq
    · exact hcyc q (List.mem_of_mem_take hq)
    · rw [List.eq_of_mem_replicate hq, List.length_replicate]
    · exact hcyc q (List.mem_of_mem_drop hq)

/-- Overriding a quantum changes neither the phases nor the cycle counts (R225). -/
theorem forceQuantum_ok {cfg : Config} {b : FrameBit} (h : BitOk cfg b) (j : Nat) (v : Level) :
    BitOk cfg { b with tqs := b.tqs.modify j (TimeQuantum.force v) } := by
  obtain ⟨hord, hlen, hcyc, hp⟩ := h
  have hphase : (b.tqs.modify j (TimeQuantum.force v)).map (·.phase.code) = b.tqs.map (·.phase.code) := by
    apply List.ext_getElem?
    intro i
    rw [List.getElem?_map, List.getElem?_map, List.getElem?_modify]
    cases b.tqs[i]? <;> by_cases hi : j = i <;> simp [hi, TimeQuantum.force]
  refine ⟨?_, (List.length_modify ..).trans_le hlen, fun q hq => ?_, hp⟩
  · rw [PhaseOrdered, ← List.pairwise_map (f := fun q : TimeQuantum => q.phase.code) (R := (· ≤ ·)), hphase,
      List.pairwise_map]
    exact hord
  · obtain ⟨i, hi⟩ := List.mem_iff_getElem?.1 hq
    rw [List.getElem?_modify] at hi
    obtain ⟨q', hq', rfl⟩ := Option.map_eq_some_iff.1 hi
    have hc := hcyc q' (List.mem_of_getElem? hq')
    split
    · exact (List.length_map ..).trans hc
    · exact hc

/-! ## Re-derivation keeps bits good (R261) -/

/-- What holds of every bit of the logical sequence whatever its value, and of every bit that NewBit makes in the slot,
holds of every bit of the new span. -/
theorem restuffSpan_all {q : FrameBit → Prop} (hval : ∀ (b : FrameBit) (v : Level), q b → q { b with val := v })
    {sl : Slot} (hnew : ∀ k v st, q (newBit sl k v st)) (cfg : Config) {p : List FrameBit} (h : ∀ b ∈ p, q b) :
    ∀ b ∈ restuffSpan cfg sl p, q b := by
  have dyn : ∀ (om : Bool) {bits : List FrameBit}, (∀ b ∈ bits, q b) → ∀ b ∈ (dynStuff sl om bits).1, q b := by
    intro om bits h b hb
    rcases mem_dynStuff hb with hb | ⟨tag, l, rfl, -⟩
    · exact h b hb
    · exact hnew _ _ _
  intro b hb
  cases hf : sl.fdf with
  | false =>
    simp only [restuffSpan, hf, Bool.false_eq_true, if_false] at hb
    exact dyn _ (writeField_all hval h) b hb
  | true =>
    simp only [restuffSpan, hf, if_true, restuffFd, fixStuff, List.mem_append] at hb
    rcases hb with hb | hb
    · exact dyn _ (fun b hb => h b (mem_dynPart hb).1) b hb
    · rcases mem_fixStuffFrom hb with hb | ⟨l, c, -, rfl⟩
      · exact codedPart_all hval h b hb
      · exact hnew _ _ _

/-- In a slot with legal copies, re-derivation makes good bits of good bits. -/
theorem restuff_ok {cfg : Config} (hc : cfg.Legal) {sl : Slot} (hcop : CopiesOk sl) (h : ∀ b ∈ sl.bits, BitOk cfg b) :
    ∀ b ∈ restuff cfg sl, BitOk cfg b := by
  intro b hb
  rcases List.mem_append.1 hb with hb | hb
  · refine restuffSpan_all (fun _ _ h => h) (newBit_ok hc hcop) cfg (fun b hb => h b ?_) b hb
    exact (List.takeWhile_sublist _).subset (List.mem_of_mem_filter hb)
  · exact h b ((List.dropWhile_sublist _).subset hb)

/-! ## Bit sequences a slot may hold (R40, R47) -/

/-- At most CAP_BITS bits, all of them good. -/
def BitsOk (cfg : Config) (bits : List FrameBit) : Prop := bits.length ≤ cfg.capBits ∧ ∀ b ∈ bits, BitOk cfg b

theorem bitsOk_of_slotOk {cfg : Config} {sl : Slot} (h : SlotOk cfg sl) : BitsOk cfg sl.bits := ⟨h.1, h.2.1⟩

theorem BitsOk.sublist {cfg : Config} {bits bits' : List FrameBit} (h : BitsOk cfg bits) (hs : bits'.Sublist bits) :
    BitsOk cfg bits' := ⟨hs.length_le.trans h.1, fun b hb => h.2 b (hs.subset hb)⟩

theorem BitsOk.set {cfg : Config} {bits : List FrameBit} (h : BitsOk cfg bits) (i : Nat) {b : FrameBit}
    (hb : BitOk cfg b) : BitsOk cfg (bits.set i b) := by
  refine ⟨List.length_set.trans_le h.1, fun c hc => ?_⟩
  rcases List.mem_or_eq_of_mem_set hc with hc | rfl
  · exact h.2 c hc
  · exact hb

/-- The capacity check lets good bits pass only where they fit (R383). -/
theorem fitBits_bitsOk {cfg : Config} {bits : List FrameBit} {e : Edit} (h : ∀ b ∈ bits, BitOk cfg b)
    (he : fitBits cfg bits = .ok e) : BitsOk cfg e.bits := by
  unfold fitBits at he
  split at he
  · cases he
  · cases he
    exact ⟨Nat.le_of_not_lt ‹_›, h⟩

/-- The bits left and put in by a splice are good (R334). -/
theorem spliced_ok {cfg : Config} (hc : cfg.Legal) {sl : Slot} (hcop : CopiesOk sl) (h : ∀ b ∈ sl.bits, BitOk cfg b)
    (p : Nat) (flagTag : FieldTag) (flagVal : Level) (delimTag : FieldTag) :
    ∀ b ∈ spliced sl p flagTag flagVal delimTag, BitOk cfg b := by
  intro b hb
  simp only [spliced, List.mem_append] at hb
  rcases hb with (hb | hb) | hb
  · exact h b (List.mem_of_mem_take hb)
  · exact List.eq_of_mem_replicate hb ▸ newBit_ok hc hcop _ _ _
  · exact List.eq_of_mem_replicate hb ▸ newBit_ok hc hcop _ _ _

/-! ## What passes BUILD's checks (R141, R262) -/

theorem timingLegal_iff (t : BitTiming) : timingLegal t = true ↔ 1 ≤ t.brp.toNat ∧ t.sjw.toNat ≤ t.ph2.toNat := by
  simp [timingLegal]

/-- A check that fails with a code, with other checks after it. -/
theorem check_eq_none {p : Prop} [Decidable p] {c : ResultCode} {rest : Option ResultCode} :
    (if p then some c else rest) = none ↔ ¬p ∧ rest = none := by
  split <;> simp [*]

theorem descCheck_eq_none (fdf ide rtr : Bool) (id : BitVec 29) (dlc : BitVec 4) :
    descCheck fdf ide rtr id dlc = none ↔
      ¬(fdf = true ∧ rtr = true) ∧ (ide = false → id.toNat ≤ 0x7FF) ∧ (fdf = false → dlc.toNat ≤ 8) := by
  simp [descCheck, check_eq_none]

theorem timingCheck_eq_none (s : State) :
    timingCheck s = none ↔
      1 ≤ (fieldBrp s.nbt).toNat ∧ s.nsjw.toNat ≤ (fieldPh2 s.nbt).toNat ∧
      (flagFdf s.flags = true → flagBrs s.flags = true →
        1 ≤ (fieldBrp s.dbt).toNat ∧ s.dsjw.toNat ≤ (fieldPh2 s.dbt).toNat) := by
  simp [timingCheck, check_eq_none, timingLegal_iff, timingOf, and_assoc]

/-- BUILD's checks pass exactly on a legal descriptor and timing. -/
theorem buildCheck_eq_none (s : State) : buildCheck s = none ↔ BuildLegal s := by
  calc buildCheck s = none
      ↔ descCheck (flagFdf s.flags) (flagIde s.flags) (flagRtr s.flags) s.id s.dlc = none ∧ timingCheck s = none := by
        unfold buildCheck
        split <;> simp [*]
    _ ↔ BuildLegal s := by rw [descCheck_eq_none, timingCheck_eq_none, and_assoc, and_assoc]

/-- The slot BUILD makes of legal registers has legal copies (R143, R263). -/
theorem freshSlot_copiesOk {s : State} (h : BuildLegal s) : CopiesOk (freshSlot s) := by
  obtain ⟨hflags, hid, hdlc, hbrp, hsjw, hdata⟩ := h
  refine ⟨hflags, hid, hdlc, fun hf => ?_, hbrp, hsjw, fun hf hb => ?_⟩
  · simp_all [freshSlot]
  · exact hdata hf (Bool.and_eq_true_iff.1 hb).2

/-- The slot BUILD makes of legal registers is good where its bits fit (R263, R383). -/
theorem builtSlot_ok {s : State} (hc : s.cfg.Legal) (h : BuildLegal s)
    (hl : (builtSlot s).bits.length ≤ s.cfg.capBits) : SlotOk s.cfg (builtSlot s) := by
  have hcop : CopiesOk (freshSlot s) := freshSlot_copiesOk h
  refine ⟨hl, restuff_ok hc (sl := { freshSlot s with bits := layoutBits (freshSlot s) s.byte }) hcop fun b hb => ?_,
    fun _ => hcop, nofun⟩
  obtain ⟨f, -, rfl⟩ := List.mem_map.1 hb
  exact newBit_ok hc hcop _ _ _

/-! ## The shared operations -/

/-- A state with the parameters and the slots of a good state is good. -/
theorem stateOk_congr {s t : State} (h : StateOk s) (hc : t.cfg = s.cfg) (hs : t.slots = s.slots) : StateOk t := by
  refine ⟨hc ▸ h.1, fun ix => ?_⟩
  rw [State.slot, hs, hc]
  exact h.2 ix

theorem halt_stateOk {s : State} (h : StateOk s) (e : Halt) : StateOk (halt e s) := by
  cases e <;> exact h

theorem withSlot_stateOk {ix : SlotIx} {s : State} {k : Slot → State} (h : StateOk s)
    (hk : (s.slot ix).valid = true → StateOk (k (s.slot ix))) : StateOk (withSlot ix s k) := by
  cases hv : (s.slot ix).valid with
  | false => exact withSlot_invalid ix s k hv ▸ h
  | true => exact withSlot_valid ix s k hv ▸ hk hv

theorem query_stateOk {ix : SlotIx} {f : Slot → Except Halt Word} {s : State} (h : StateOk s) :
    StateOk (query ix f s) := by
  obtain ⟨-, he⟩ | ⟨v, -, -, he⟩ | ⟨e, -, -, he⟩ := query_cases ix f s <;> rw [he]
  · exact h
  · exact h
  · exact halt_stateOk h e

theorem randomBit_stateOk {o : Nat → Nat} {ix : SlotIx} {p : FrameBit → Bool} {s : State} (h : StateOk s) :
    StateOk (randomBit o ix p s) := by
  obtain ⟨-, he⟩ | ⟨-, -, he⟩ | ⟨i, n, -, -, he⟩ := randomBit_cases o ix p s <;> rw [he] <;> exact h

theorem commit_stateOk {ix : SlotIx} {s : State} {e : Edit} (h : StateOk s) (hv : (s.slot ix).valid = true)
    (he : BitsOk s.cfg e.bits) : StateOk (commit ix (s.slot ix) e s) := by
  have hset := stateOk_setSlot (ix := ix) h (slotOk_bits (h.2 ix) hv he.1 he.2)
  obtain ⟨bits, reply⟩ := e
  cases reply <;> exact hset

/-- An edit keeps the invariant where the bits it gives a good built slot are good and fit. -/
theorem edit_stateOk {ix : SlotIx} {f : Slot → Except Halt Edit} {s : State} (h : StateOk s)
    (hf : BitsOk s.cfg (s.slot ix).bits → CopiesOk (s.slot ix) → ∀ e, f (s.slot ix) = .ok e → BitsOk s.cfg e.bits) :
    StateOk (edit ix f s) := by
  obtain ⟨-, h'⟩ | ⟨e, hv, he, h'⟩ | ⟨e, -, -, h'⟩ := edit_cases ix f s <;> rw [h']
  · exact h
  · exact commit_stateOk h hv (hf (bitsOk_of_slotOk (h.2 ix)) ((h.2 ix).2.2.1 hv) e he)
  · exact halt_stateOk h e

/-- Where the prologue on one bit succeeds, `f` did on a bit of the slot. -/
theorem atBit_eq_ok_mem {α : Type} {sl : Slot} {sel : BitSel} {arg : Nat} {f : Nat → FrameBit → Except Halt α} {x : α}
    (h : atBit sl sel arg f = .ok x) : ∃ i, ∃ b ∈ sl.bits, f i b = .ok x := by
  obtain ⟨e, -, he⟩ | ⟨i, b, -, hb, hf⟩ := atBit_cases sl sel arg f
  · cases he.symm.trans h
  · exact ⟨i, b, List.mem_of_getElem? hb, hf.symm.trans h⟩

/-- A command on one bit keeps the invariant where it makes a good bit of a good bit. -/
theorem editBit_stateOk {ix : SlotIx} {sel : BitSel} {f : FrameBit → Except Halt BitEdit} {s : State} (h : StateOk s)
    (hf : ∀ b e, BitOk s.cfg b → f b = .ok e → BitOk s.cfg e.bit) : StateOk (editBit ix sel f s) := by
  refine edit_stateOk h fun hbits _ e he => ?_
  obtain ⟨i, b, hb, hi⟩ := atBit_eq_ok_mem he
  split at hi <;> cases hi
  exact hbits.set i (hf b _ (hbits.2 b hb) ‹_›)

theorem splice_stateOk {ix : SlotIx} {sel : BitSel} {flagTag delimTag : FieldTag} {flagVal : Level} {s : State}
    (h : StateOk s) : StateOk (splice ix sel flagTag flagVal delimTag s) := by
  refine edit_stateOk h fun hbits hcop e he => ?_
  split at he
  · exact fitBits_bitsOk (spliced_ok h.1 hcop hbits.2 _ _ _ _) he
  · cases he

theorem buildInto_stateOk {dst : SlotIx} {s : State} (h : StateOk s) : StateOk (buildInto dst s) := by
  unfold buildInto
  split
  · exact h
  · split
    · exact h
    · exact stateOk_setSlot h (builtSlot_ok h.1 ((buildCheck_eq_none s).1 ‹_›) (Nat.le_of_not_lt ‹_›))

theorem randomizeWith_stateOk {o : Nat → Nat} {s : State} (h : StateOk s) : StateOk (randomizeWith o s) := by
  obtain ⟨_, _, _, _, _, _, he⟩ := randomizeWith_frame o s
  rw [he]
  exact h

/-! ## Every command -/

/-- Bits added to a slot's bits are good where each of them is. -/
theorem append_ok {cfg : Config} {bits more : List FrameBit} (h : ∀ b ∈ bits, BitOk cfg b)
    (hm : ∀ b ∈ more, BitOk cfg b) : ∀ b ∈ bits ++ more, BitOk cfg b :=
  List.forall_mem_append.2 ⟨h, hm⟩

/-- No command breaks the invariant. -/
theorem exec_stateOk {i : Instr} {s t : State} (h : StateOk s) (ht : exec i s = .next t) : StateOk t := by
  cases i <;> injection ht with ht <;> subst ht
  case build => exact buildInto_stateOk h
  case randomize => exact randomizeWith_stateOk h
  case clone dst src => exact withSlot_stateOk h fun _ => stateOk_setSlot h (h.2 src)
  case getNumStuffBits =>
    split
    · exact h
    · exact query_stateOk h
  case getRandomBit | getRandomBitOf => exact randomBit_stateOk h
  case getCrc | getBitOf | getBitOfNoStuff | getStuffBit | getFixedStuffBit | getBitIndex | getFieldLength | getLength
      | readBit | readPhaseLen | qzLength | qzRead => exact query_stateOk h
  case update => exact edit_stateOk h fun hbits hcop e => fitBits_bitsOk (restuff_ok h.1 hcop hbits.2)
  case insertBit =>
    refine edit_stateOk h fun hbits hcop e he => ?_
    split at he
    · cases he
    · refine fitBits_bitsOk (append_ok (fun b hb => hbits.2 b (List.mem_of_mem_take hb)) ?_) he
      exact List.forall_mem_cons.2 ⟨newBit_ok h.1 hcop _ _ _, fun b hb => hbits.2 b (List.mem_of_mem_drop hb)⟩
  case appendBit =>
    exact edit_stateOk h fun hbits hcop e =>
      fitBits_bitsOk (append_ok hbits.2 (List.forall_mem_singleton.2 (newBit_ok h.1 hcop _ _ _)))
  case appendSuspend =>
    exact edit_stateOk h fun hbits hcop e => fitBits_bitsOk (append_ok hbits.2 fun b hb =>
      List.eq_of_mem_replicate hb ▸ newBit_ok h.1 hcop _ _ _)
  case insertActiveErrorFrame | insertPassiveErrorFrame | insertOverloadFrame => exact splice_stateOk h
  case appendFrame dst src =>
    exact withSlot_stateOk h fun _ => withSlot_stateOk h fun _ => edit_stateOk h fun hbits _ e =>
      fitBits_bitsOk (append_ok hbits.2 (h.2 src).2.1)
  case turnReceived =>
    refine edit_stateOk h fun hbits _ e he => ?_
    cases he
    exact ⟨(List.length_map ..).trans_le hbits.1, List.forall_mem_map.2 hbits.2⟩
  case removeBit | loseArbitration =>
    refine edit_stateOk h fun hbits _ e he => ?_
    obtain ⟨i, b, -, he⟩ := atBit_eq_ok_mem he
    cases he
    exact hbits.sublist (by simp [List.eraseIdx_sublist, List.take_sublist])
  case removeBitsFrom ix sel =>
    refine edit_stateOk h fun hbits _ e he => ?_
    cases hs : selectBit (s.slot ix).bits sel s.arg0.toNat true <;> rw [hs] at he <;> cases he
    exact hbits.sublist (List.take_sublist _ _)
  case flipBit | setBitValue | setStuffKind => exact editBit_stateOk h fun b e hb he => by cases he; exact hb
  case shortenPhase => exact editBit_stateOk h fun b e hb he => by cases he; exact shortenQuanta_ok hb _ _
  case lengthenPhase =>
    refine editBit_stateOk h fun b e hb he => ?_
    split at he <;> cases he
    exact lengthenQuanta_ok hb _ (Nat.le_of_not_lt ‹_›)
  case forceTq =>
    refine editBit_stateOk h fun b e hb he => ?_
    split at he <;> cases he
    exact forceQuantum_ok hb _ _

/-! ## Every step -/

@[simp] theorem writeReg_cfg (r : Reg) (v : Word) (s : State) : (writeReg r v s).cfg = s.cfg := by cases r <;> rfl
@[simp] theorem writeReg_slots (r : Reg) (v : Word) (s : State) : (writeReg r v s).slots = s.slots := by cases r <;> rfl

/-- An access that has a step is one of a register (R83). -/
theorem accessReg_next {off size : Nat} {k : Reg → Host.Outcome State Fault Refusal} {t : State}
    (h : accessReg off size k = .next t) : ∃ r, k r = .next t := by
  unfold accessReg at h
  split at h
  · cases h
  · split at h
    · cases h
    · split at h
      · exact ⟨_, h⟩
      · cases h

theorem commandWrite_stateOk {w : Word} {s t : State} (h : StateOk s) (ht : commandWrite w s = .next t) :
    StateOk t := by
  cases hf : s.fatal with
  | some f =>
    rw [commandWrite_fatal w hf] at ht
    cases ht
    exact h
  | none =>
    cases hd : decode w with
    | error e =>
      rw [commandWrite_illegal hf hd] at ht
      cases ht
      exact h
    | ok i =>
      rw [commandWrite_legal hf hd] at ht
      exact exec_stateOk (s := { s with cmd := w }) h ht

/-- A write to a register other than CMD is the storage alone. -/
theorem registerWrite_ne_cmd {r : Reg} (h : r ≠ .cmd) (v : Word) (s : State) :
    registerWrite r v s = .next (writeReg r v s) := by
  cases r with
  | cmd => exact absurd rfl h
  | _ => rfl

theorem registerWrite_stateOk {r : Reg} {v : Word} {s t : State} (h : StateOk s)
    (ht : registerWrite r v s = .next t) : StateOk t := by
  by_cases hr : r = .cmd
  · subst hr
    exact commandWrite_stateOk h ht
  · rw [registerWrite_ne_cmd hr] at ht
    cases ht
    exact stateOk_congr h (writeReg_cfg r v s) (writeReg_slots r v s)

theorem slotOk_empty (cfg : Config) : SlotOk cfg Slot.empty := ⟨Nat.zero_le _, nofun, nofun, fun _ => rfl⟩

theorem hostInput_stateOk {a : HostInput} {s t : State} (h : StateOk s) (ht : hostInput a s = .next t) : StateOk t := by
  cases a with
  | write off size v =>
    obtain ⟨r, hr⟩ := accessReg_next ht
    exact registerWrite_stateOk h hr
  | read off size =>
    obtain ⟨r, hr⟩ := accessReg_next ht
    cases hr
    exact h
  | reset =>
    cases ht
    exact ⟨h.1, fun ix => (reset_slot ix).symm ▸ slotOk_empty s.cfg⟩

/-- Settles O58: an idle step changes nothing, and every input keeps the invariant. -/
theorem stepKeepsTheSlotInvariant : Obligations.StepKeepsTheSlotInvariant := by
  intro s t h ht
  cases hp : s.pending with
  | nil =>
    rw [step_idle hp] at ht
    cases ht
    exact h
  | cons a rest =>
    have hs : hostInput a { s with pending := rest } = .next t := by
      simpa only [step, nextInput, hp] using ht
    exact hostInput_stateOk (s := { s with pending := rest }) h hs

/-- Settles O59: the default parameters are legal, and every slot is empty. -/
theorem resetHasTheSlotInvariant : Obligations.ResetHasTheSlotInvariant :=
  ⟨by decide, fun ix => (reset_slot ix).symm ▸ slotOk_empty Config.default⟩

end Sys2Proof.Machine
end

section
/-! SUPPORT. The host registers (spec/10_state.md R31 to R39, R44, R46): what a write stores in each field of the state,
what each register reads of it, and the words of STATUS and of the derived registers. -/

namespace Sys2Proof.Machine

/-! ## What a register write stores (R46): one equation for each field -/

@[simp] theorem writeReg_cmd (r : Reg) (v : Word) (s : State) :
    (writeReg r v s).cmd = if r = .cmd then v else s.cmd := by cases r <;> rfl
@[simp] theorem writeReg_arg0 (r : Reg) (v : Word) (s : State) :
    (writeReg r v s).arg0 = if r = .arg0 then v else s.arg0 := by cases r <;> rfl
@[simp] theorem writeReg_arg1 (r : Reg) (v : Word) (s : State) :
    (writeReg r v s).arg1 = if r = .arg1 then v else s.arg1 := by cases r <;> rfl
@[simp] theorem writeReg_nbt (r : Reg) (v : Word) (s : State) :
    (writeReg r v s).nbt = if r = .nbt then v else s.nbt := by cases r <;> rfl
@[simp] theorem writeReg_nsjw (r : Reg) (v : Word) (s : State) :
    (writeReg r v s).nsjw = if r = .nsjw then v.setWidth 8 else s.nsjw := by cases r <;> rfl
@[simp] theorem writeReg_dbt (r : Reg) (v : Word) (s : State) :
    (writeReg r v s).dbt = if r = .dbt then v else s.dbt := by cases r <;> rfl
@[simp] theorem writeReg_dsjw (r : Reg) (v : Word) (s : State) :
    (writeReg r v s).dsjw = if r = .dsjw then v.setWidth 8 else s.dsjw := by cases r <;> rfl
@[simp] theorem writeReg_flags (r : Reg) (v : Word) (s : State) :
    (writeReg r v s).flags = if r = .flags then v.setWidth 5 else s.flags := by cases r <;> rfl
@[simp] theorem writeReg_id (r : Reg) (v : Word) (s : State) :
    (writeReg r v s).id = if r = .id then v.setWidth 29 else s.id := by cases r <;> rfl
@[simp] theorem writeReg_dlc (r : Reg) (v : Word) (s : State) :
    (writeReg r v s).dlc = if r = .dlc then v.setWidth 4 else s.dlc := by cases r <;> rfl
@[simp] theorem writeReg_pin (r : Reg) (v : Word) (s : State) :
    (writeReg r v s).pin = if r = .pin then v.setWidth 8 else s.pin := by cases r <;> rfl

/-! The fields no register write touches. -/

@[simp] theorem writeReg_code (r : Reg) (v : Word) (s : State) : (writeReg r v s).code = s.code := by cases r <;> rfl
@[simp] theorem writeReg_fatal (r : Reg) (v : Word) (s : State) : (writeReg r v s).fatal = s.fatal := by cases r <;> rfl
@[simp] theorem writeReg_result (r : Reg) (v : Word) (s : State) : (writeReg r v s).result = s.result := by
  cases r <;> rfl
@[simp] theorem writeReg_draws (r : Reg) (v : Word) (s : State) : (writeReg r v s).draws = s.draws := by cases r <;> rfl
@[simp] theorem writeReg_pending (r : Reg) (v : Word) (s : State) : (writeReg r v s).pending = s.pending := by
  cases r <;> rfl
@[simp] theorem writeReg_busData (r : Reg) (v : Word) (s : State) : (writeReg r v s).busData = s.busData := by
  cases r <;> rfl

/-- A read-only register ignores a write (R46). -/
theorem writeReg_readOnly {r : Reg} (h : r.readOnly = true) (v : Word) (s : State) : writeReg r v s = s := by
  cases r with
  | status | result | nderiv | dderiv | datalen => rfl
  | _ => cases h

/-! ## The payload bytes (R37, R82) -/

/-- A DATAk write puts lane `m % 4` of the word at each byte `m` of the word's four, and changes no other. -/
theorem setDataWord_getElem? (d : Vector Byte 64) (k : Fin 16) (v : Word) (m : Nat) :
    (setDataWord d k v)[m]? = if m / 4 = k.val then some (v.extractLsb' (8 * (m % 4)) 8) else d[m]? := by
  simp only [setDataWord, Vector.getElem?_set]
  by_cases hk : m / 4 = k.val
  · have hm : m = 4 * k.val + m % 4 := by omega
    have hlt : m % 4 < 4 := Nat.mod_lt _ (by omega)
    generalize m % 4 = j at hm hlt
    subst hm
    interval_cases j <;> simp [hk]
  · rw [if_neg (by omega), if_neg (by omega), if_neg (by omega), if_neg (by omega), if_neg hk]

/-- A DATAk write puts lane `j` of the word at byte `4 * k + j`. -/
theorem writeReg_byte_same (k : Fin 16) (v : Word) (s : State) {j : Nat} (hj : j < 4) :
    (writeReg (.data k) v s).byte (4 * k.val + j) = v.extractLsb' (8 * j) 8 := by
  have hdiv : (4 * k.val + j) / 4 = k.val := by omega
  have hmod : (4 * k.val + j) % 4 = j := by omega
  simp only [State.byte, writeReg, setDataWord_getElem?, hdiv, hmod, if_true, Option.getD_some]

/-- A register write leaves every byte that is not of its own register. -/
theorem writeReg_byte_ne {r : Reg} {m : Nat} (h : ∀ k, r = .data k → m / 4 ≠ k.val) (v : Word) (s : State) :
    (writeReg r v s).byte m = s.byte m := by
  cases r with
  | data k => simp only [State.byte, writeReg, setDataWord_getElem?, if_neg (h k rfl)]
  | _ => rfl

theorem wordOfLanes_toNat (b0 b1 b2 b3 : Byte) : (wordOfLanes b0 b1 b2 b3).toNat =
    b0.toNat + 2 ^ 8 * b1.toNat + 2 ^ 16 * b2.toNat + 2 ^ 24 * b3.toNat := by
  change BitVec.toNat (w := 8 + 8 + 8 + 8) (b3 ++ b2 ++ b1 ++ b0) = _
  simp only [toNat_append_add]
  omega

/-- Lane `j` of the word of four bytes is byte `j` (R82). -/
theorem extract_wordOfLanes (f : Nat → Byte) {j : Nat} (hj : j < 4) :
    (wordOfLanes (f 0) (f 1) (f 2) (f 3)).extractLsb' (8 * j) 8 = f j := by
  apply BitVec.eq_of_toNat_eq
  rw [BitVec.extractLsb'_toNat, wordOfLanes_toNat, Nat.shiftRight_eq_div_pow]
  have := (f 0).isLt
  have := (f 1).isLt
  have := (f 2).isLt
  have := (f 3).isLt
  interval_cases j <;> norm_num <;> omega

/-- Lane `j` of DATAk is payload byte `4 * k + j`. -/
theorem extract_readReg_data (s : State) (k : Fin 16) {j : Nat} (hj : j < 4) :
    (readReg (.data k) s).extractLsb' (8 * j) 8 = s.byte (4 * k.val + j) :=
  extract_wordOfLanes (fun i => s.byte (4 * k.val + i)) hj

/-- DATAk reads the word whose lanes are its four bytes. -/
theorem readReg_data {s : State} {k : Fin 16} {v : Word}
    (h : ∀ j, j < 4 → s.byte (4 * k.val + j) = v.extractLsb' (8 * j) 8) : readReg (.data k) s = v := by
  calc readReg (.data k) s
      = wordOfLanes (v.extractLsb' 0 8) (v.extractLsb' 8 8) (v.extractLsb' 16 8) (v.extractLsb' 24 8) :=
        congr (congr (congr (congrArg wordOfLanes (h 0 (by decide))) (h 1 (by decide))) (h 2 (by decide)))
          (h 3 (by decide))
    _ = v := wordOfLanes_extract v

/-- Settles O11: a read lays the four bytes into lanes, and a write changes the bytes of its own register. -/
theorem payloadBytesAreLittleEndian : Obligations.PayloadBytesAreLittleEndian := by
  refine ⟨fun s k _ => extract_readReg_data s k, fun s rest k v h => ?_⟩
  refine ⟨_, step_write (r := .data k) h, fun j hj => writeReg_byte_same k v _ hj, fun m hm => ?_⟩
  refine writeReg_byte_ne (fun k' hk => ?_) v _
  cases hk
  exact hm

/-! ## STATUS (R39) -/

theorem resultCode_number_le (c : ResultCode) : c.number ≤ 4 := by cases c <;> decide

theorem causeNumber_le (f : Option FatalCause) : causeNumber f ≤ 4 := by
  rcases f with _ | f
  · decide
  · cases f <;> decide

theorem causeNumber_eq_zero (f : Option FatalCause) : causeNumber f = 0 ↔ f = none := by
  rcases f with _ | f
  · decide
  · cases f <;> decide

/-- STATUS as a number: every bit outside the three fields is 0. -/
theorem statusWord_toNat (code : ResultCode) (fatal : Option FatalCause) : (statusWord code fatal).toNat =
    code.number + 2 ^ 8 * (if fatal.isSome then 1 else 0) + 2 ^ 12 * causeNumber fatal := by
  have h1 := resultCode_number_le code
  have h2 := causeNumber_le fatal
  change BitVec.toNat (w := 17 + 3 + 3 + 1 + 5 + 3) ((0 : BitVec 17) ++ BitVec.ofNat 3 (causeNumber fatal)
    ++ (0 : BitVec 3) ++ BitVec.ofBool fatal.isSome ++ (0 : BitVec 5) ++ BitVec.ofNat 3 code.number) = _
  simp only [toNat_append_add, BitVec.toNat_ofNat, BitVec.toNat_ofBool, BitVec.ofNat_eq_ofNat]
  cases fatal.isSome <;> simp <;> omega

/-- Settles O13: the word as a sum of its fields, and the tables of numbers. -/
theorem statusRegisterLayout : Obligations.StatusRegisterLayout :=
  ⟨fun s => ⟨statusWord_toNat s.code s.fatal, resultCode_number_le s.code, causeNumber_le s.fatal,
    causeNumber_eq_zero s.fatal⟩, ⟨rfl, rfl, rfl, rfl, rfl⟩, rfl, rfl, rfl, rfl⟩

/-! ## The derived registers (R36, R44, R145) -/

/-- NDERIV and DDERIV as a number: BL and SP stay below 2^16. -/
theorem derivWord_toNat (t : BitTiming) : (derivWord t).toNat = bitLength t + 2 ^ 16 * samplePoint t := by
  have h1 := t.prop.isLt
  have h2 := t.ph1.isLt
  have h3 := t.ph2.isLt
  change BitVec.toNat (w := 16 + 16) (BitVec.ofNat 16 (samplePoint t) ++ BitVec.ofNat 16 (bitLength t)) = _
  simp only [toNat_append_add, BitVec.toNat_ofNat, samplePoint, bitLength]
  omega

/-- The table of R145, at each DLC. -/
theorem fdLengths_getElem? (dlc : BitVec 4) : fdLengths[dlc.toNat]? = some (fdLength dlc) := by
  revert dlc
  decide

theorem fdLength_le (dlc : BitVec 4) : fdLength dlc ≤ 64 := by
  revert dlc
  decide

/-- DATALEN fits its seven bits. -/
theorem dataLenReg_le (flags : BitVec 5) (dlc : BitVec 4) : dataLenReg flags dlc ≤ 64 := by
  have h1 := fdLength_le dlc
  have h2 := dlc.isLt
  unfold dataLenReg dataLen
  split
  · omega
  · split
    · omega
    · split <;> omega

theorem readReg_datalen_toNat (s : State) : (readReg .datalen s).toNat = dataLenReg s.flags s.dlc := by
  have := dataLenReg_le s.flags s.dlc
  rw [readReg, BitVec.toNat_ofNat]
  omega

/-- Settles O12: each derived register is a sum that fits its field, and DATALEN follows the cases of R145. -/
theorem derivedRegistersRead : Obligations.DerivedRegistersRead := by
  intro s
  refine ⟨derivWord_toNat _, derivWord_toNat _, fun hf hr => ?_, fun hf hr => ?_, fun hf hd => ?_, fun hf hd => ?_⟩
  · simp [readReg, dataLenReg, hf, hr]
  · rw [fdLengths_getElem?, readReg_datalen_toNat]
    simp [dataLenReg, dataLen, hf, hr]
  · simp [readReg, dataLenReg, hf, hd]
  · rw [readReg_datalen_toNat]
    simp [dataLenReg, dataLen, hf, hd]

/-! ## Reserved bits (R46) -/

/-- A field of `w` bits has no bit outside them. -/
theorem setWidth_and_not_allOnes {w : Nat} (x : BitVec w) :
    x.setWidth 32 &&& ~~~(BitVec.allOnes w).setWidth 32 = 0 := by
  ext i hi
  simp only [BitVec.getElem_and, BitVec.getElem_not, BitVec.getElem_setWidth]
  by_cases h : i < w
  · simp [h]
  · simp [BitVec.getLsbD_of_ge x i (by omega)]

/-- Storing a word in a field of `w` bits keeps those bits of it. -/
theorem setWidth_setWidth_eq_and (v : Word) (w : Nat) :
    (v.setWidth w).setWidth 32 = v &&& (BitVec.allOnes w).setWidth 32 := by
  ext i hi
  simp [BitVec.getElem_setWidth, Bool.and_comm, BitVec.getLsbD_eq_getElem hi]

theorem statusWord_reserved (code : ResultCode) (fatal : Option FatalCause) :
    statusWord code fatal &&& ~~~(Reg.implemented .status) = 0 := by
  rcases fatal with _ | f
  · cases code <;> rfl
  · cases f <;> cases code <;> rfl

/-- DATALEN has no bit above its seven. -/
theorem readReg_datalen_eq (s : State) :
    readReg .datalen s = (BitVec.ofNat 7 (dataLenReg s.flags s.dlc)).setWidth 32 := by
  have := dataLenReg_le s.flags s.dlc
  apply BitVec.eq_of_toNat_eq
  rw [readReg_datalen_toNat, BitVec.toNat_setWidth, BitVec.toNat_ofNat]
  omega

/-- The reserved bits of every register read 0. -/
theorem readReg_reserved (r : Reg) (s : State) : readReg r s &&& ~~~r.implemented = 0 := by
  cases r with
  | status => exact statusWord_reserved s.code s.fatal
  | nsjw => exact setWidth_and_not_allOnes s.nsjw
  | dsjw => exact setWidth_and_not_allOnes s.dsjw
  | flags => exact setWidth_and_not_allOnes s.flags
  | id => exact setWidth_and_not_allOnes s.id
  | dlc => exact setWidth_and_not_allOnes s.dlc
  | pin => exact setWidth_and_not_allOnes s.pin
  | datalen => exact readReg_datalen_eq s ▸ setWidth_and_not_allOnes _
  | cmd | arg0 | arg1 | result | nbt | dbt | nderiv | dderiv | data => simp [Reg.implemented]

/-! ## A register read after a register write -/

/-- A writable register reads back the bits that are not reserved. -/
theorem readReg_writeReg_same {r : Reg} (h : r.readOnly = false) (v : Word) (s : State) :
    readReg r (writeReg r v s) = v &&& r.implemented := by
  cases r with
  | nsjw | dsjw | flags | id | dlc | pin => exact setWidth_setWidth_eq_and v _
  | cmd | arg0 | arg1 | nbt | dbt => exact BitVec.and_allOnes.symm
  | data k =>
    have hr : readReg (.data k) (writeReg (.data k) v s) = v := readReg_data fun j hj => writeReg_byte_same k v s hj
    exact hr.trans BitVec.and_allOnes.symm
  | status | result | nderiv | dderiv | datalen => cases h

/-- A register that neither is the written one nor derives from it reads as before. -/
theorem readReg_writeReg_ne {r r' : Reg} (hne : r' ≠ r) (hd : r'.derivesFrom r = false) (v : Word) (s : State) :
    readReg r' (writeReg r v s) = readReg r' s := by
  cases r' with
  | nderiv =>
    have hr : r ≠ .nbt := by rintro rfl; cases hd
    simp [readReg, derivWord, bitLength, samplePoint, timingOf, hr]
  | dderiv =>
    have hr : r ≠ .dbt := by rintro rfl; cases hd
    simp [readReg, derivWord, bitLength, samplePoint, timingOf, hr]
  | datalen =>
    have hf : r ≠ .flags := by rintro rfl; cases hd
    have hc : r ≠ .dlc := by rintro rfl; cases hd
    simp [readReg, hf, hc]
  | data k =>
    refine readReg_data fun j hj => ?_
    rw [writeReg_byte_ne, extract_readReg_data s k hj]
    intro k' hk hm
    exact hne (hk ▸ congrArg Reg.data (Fin.ext (by omega)))
  | _ => simp [readReg, hne.symm]

/-! ## Writes to CMD (R39, R101, R104) -/

/-- Every CMD write stores the whole word. -/
theorem commandWrite_cmd {w : Word} {s t : State} (h : commandWrite w s = .next t) : t.cmd = w := by
  cases hf : s.fatal with
  | some f =>
    rw [commandWrite_fatal w hf] at h
    cases h
    rfl
  | none =>
    cases hd : decode w with
    | error e =>
      rw [commandWrite_illegal hf hd] at h
      cases h
      rfl
    | ok i =>
      rw [commandWrite_legal hf hd] at h
      obtain ⟨-, hcmd, -⟩ := commandsLeaveTheOtherRegisters i _ t h
      exact hcmd

/-- A word with a reserved bit set is illegal (R104). -/
theorem decode_reserved {w : Word} (h : w.toNat / 2 ^ 23 ≠ 0) : decode w = .error .reservedBits := by
  obtain ⟨-, -, -, -, -, -, -, -, -, -, hres⟩ := unpackFields_toNat w
  have hne : (unpackFields w).reserved ≠ 0 := fun h0 => h (by rw [← hres, h0]; rfl)
  simp only [decode, decodeFields, ne_eq, hne, not_false_eq_true, if_true]

/-- Settles O9: the reserved bits by register, a CMD write by R101's branches, every other write by the storage alone. -/
theorem registerWriteThenRead : Obligations.RegisterWriteThenRead := by
  refine ⟨readReg_reserved, fun s rest v h => ?_, fun s rest r v hr h => ?_⟩
  · have hs : step s = commandWrite v { s with pending := rest } := step_write h
    obtain ⟨t, ht⟩ := commandWrite_next v { s with pending := rest }
    refine ⟨t, hs.trans ht, commandWrite_cmd ht, fun hf hv => ?_⟩
    rw [commandWrite_illegal (s := { s with pending := rest }) hf (decode_reserved hv)] at ht
    cases ht
    rfl
  · exact ⟨_, (step_write h).trans (registerWrite_ne_cmd hr v _), fun hro => writeReg_readOnly hro v _,
      fun hro => readReg_writeReg_same hro v _, fun r' hne hd => readReg_writeReg_ne hne hd v _,
      writeReg_slots .., writeReg_code .., writeReg_fatal .., writeReg_result .., writeReg_draws .., writeReg_cfg ..,
      writeReg_pending .., writeReg_busData ..⟩

end Sys2Proof.Machine
end

section
/-! SUPPORT. The host's accesses (spec/20_memory.md R80, R83, R84, R86): which inputs have a step, what a read changes,
and that a step takes its one input and leaves the others pending (R91, R388). -/

namespace Sys2Proof.Machine

/-! ## The register map (R31) -/

/-- The register at an offset has that offset. -/
theorem offset_of_regAt {off : Nat} {r : Reg} (h : regAt off = some r) : off = r.offset := by
  unfold regAt at h
  split at h
  case h_17 =>
    split at h <;> cases h
    simp only [Reg.offset]
    omega
  all_goals cases h; rfl

/-- The table of R31 lists the registers' offsets and no other. -/
theorem mem_mappedOffsets_iff (off : Nat) : off ∈ mappedOffsets ↔ ∃ r : Reg, off = r.offset := by
  constructor
  · intro h
    have hmapped : ∀ o ∈ mappedOffsets, (regAt o).isSome = true := by decide
    obtain ⟨r, hr⟩ := Option.isSome_iff_exists.1 (hmapped off h)
    exact ⟨r, offset_of_regAt hr⟩
  · rintro ⟨r, rfl⟩
    cases r with
    | data k => revert k; decide
    | _ => decide

/-! ## Which inputs have a step (R83) -/

/-- An access that has a step is aligned, 32 bits wide and of a mapped offset. -/
theorem mapped_of_accessReg_next {off size : Nat} {k : Reg → Host.Outcome State Fault Refusal} {t : State}
    (h : accessReg off size k = .next t) : size = 4 ∧ off % 4 = 0 ∧ off ∈ mappedOffsets := by
  unfold accessReg at h
  split at h
  · cases h
  · split at h
    · cases h
    · split at h
      · exact ⟨not_not.1 ‹_›, not_not.1 ‹_›, (mem_mappedOffsets_iff off).2 ⟨_, offset_of_regAt ‹_›⟩⟩
      · cases h

/-- Where every register answers a next state, exactly the accesses of R83 have a step. -/
theorem accessReg_next_iff {off size : Nat} {k : Reg → Host.Outcome State Fault Refusal}
    (hk : ∀ r, ∃ t, k r = .next t) :
    (∃ t, accessReg off size k = .next t) ↔ size = 4 ∧ off % 4 = 0 ∧ off ∈ mappedOffsets := by
  constructor
  · rintro ⟨t, h⟩
    exact mapped_of_accessReg_next h
  · rintro ⟨rfl, -, hoff⟩
    obtain ⟨r, rfl⟩ := (mem_mappedOffsets_iff off).1 hoff
    rw [accessReg_offset]
    exact hk r

/-- A write to a register always gives a next state: a command that fails or raises a fatal error has one too (R388). -/
theorem registerWrite_next (r : Reg) (v : Word) (s : State) : ∃ t, registerWrite r v s = .next t := by
  by_cases hr : r = .cmd
  · subst hr
    exact commandWrite_next v s
  · exact ⟨_, registerWrite_ne_cmd hr v s⟩

theorem hostInput_write_next_iff (off size : Nat) (v : Word) (s : State) :
    (∃ t, hostInput (.write off size v) s = .next t) ↔ size = 4 ∧ off % 4 = 0 ∧ off ∈ mappedOffsets :=
  accessReg_next_iff fun r => registerWrite_next r v s

theorem hostInput_read_next_iff (off size : Nat) (s : State) :
    (∃ t, hostInput (.read off size) s = .next t) ↔ size = 4 ∧ off % 4 = 0 ∧ off ∈ mappedOffsets :=
  accessReg_next_iff fun _ => ⟨_, rfl⟩

/-- A defined input has a step in every state. -/
theorem hostInput_next_of_defined {a : HostInput} (h : a.defined = true) (s : State) :
    ∃ t, hostInput a s = .next t := by
  cases a with
  | write off size v =>
    refine (hostInput_write_next_iff off size v s).2 ?_
    simpa [HostInput.defined, and_assoc] using h
  | read off size =>
    refine (hostInput_read_next_iff off size s).2 ?_
    simpa [HostInput.defined, and_assoc] using h
  | reset => exact ⟨_, rfl⟩

/-- A step makes the oldest pending input (R86). -/
theorem step_input {s : State} {a : HostInput} {rest : List HostInput} (h : s.pending = a :: rest) :
    step s = hostInput a { s with pending := rest } := by
  simp only [step, nextInput, h]

/-- Settles O8: a register answers every read and every write, so the access alone decides. -/
theorem onlyAlignedMappedWordAccessesHaveAStep : Obligations.OnlyAlignedMappedWordAccessesHaveAStep := by
  intro s rest off size
  refine ⟨fun v h => ?_, fun h => ?_⟩
  · rw [step_input h]
    exact hostInput_write_next_iff off size v _
  · rw [step_input h]
    exact hostInput_read_next_iff off size _

/-! ## Inputs still pending -/

theorem commandWrite_pending {w : Word} {s t : State} (h : commandWrite w s = .next t) : t.pending = s.pending := by
  cases hf : s.fatal with
  | some f =>
    rw [commandWrite_fatal w hf] at h
    cases h
    rfl
  | none =>
    cases hd : decode w with
    | error e =>
      rw [commandWrite_illegal hf hd] at h
      cases h
      rfl
    | ok i =>
      rw [commandWrite_legal hf hd] at h
      obtain ⟨-, -, -, -, -, -, -, -, -, hpending, -⟩ := commandsLeaveTheOtherRegisters i _ t h
      exact hpending

theorem registerWrite_pending {r : Reg} {v : Word} {s t : State} (h : registerWrite r v s = .next t) :
    t.pending = s.pending := by
  by_cases hr : r = .cmd
  · subst hr
    exact commandWrite_pending h
  · rw [registerWrite_ne_cmd hr] at h
    cases h
    exact writeReg_pending r v s

/-- No input, reset among them, changes the inputs still to come. -/
theorem hostInput_pending {a : HostInput} {s t : State} (h : hostInput a s = .next t) : t.pending = s.pending := by
  cases a with
  | write off size v =>
    obtain ⟨r, hr⟩ := accessReg_next h
    exact registerWrite_pending hr
  | read off size =>
    obtain ⟨r, hr⟩ := accessReg_next h
    cases hr
    rfl
  | reset =>
    cases h
    rfl

/-- Settles O60: a defined input has a step, and the inputs after it are those that were pending. -/
theorem safeInputsNeverStop : Obligations.SafeInputsNeverStop := by
  intro s hs
  cases hp : s.pending with
  | nil => exact ⟨s, step_idle hp, hs⟩
  | cons a rest =>
    rw [SafeInputs, hp] at hs
    obtain ⟨ha, hrest⟩ := List.forall_mem_cons.1 hs
    obtain ⟨t, ht⟩ := hostInput_next_of_defined ha { s with pending := rest }
    have hpending : t.pending = rest := hostInput_pending ht
    exact ⟨t, (step_input hp).trans ht, by rwa [SafeInputs, hpending]⟩

/-! ## Reads (R84) -/

/-- A register's value does not depend on the inputs still to come. -/
theorem readReg_with_pending (r : Reg) (s : State) (rest : List HostInput) :
    readReg r { s with pending := rest } = readReg r s := by cases r <;> rfl

/-- Settles O10: a read stores the register's value in `busData`, and the register reads as before the access. -/
theorem registerReadChangesNothing : Obligations.RegisterReadChangesNothing := by
  intro s rest r h
  rw [step_read h, registerRead, readReg_with_pending]

end Sys2Proof.Machine
end

section
/-! SUPPORT. The decoder against the encoder and against the rules of the command word (spec/30_encoding.md): the round
trip (R120, R123), the legal words (R104 to R106), and the fields an opcode does not read (R102). -/

namespace Sys2Proof

open Machine

/-! ## Reading back what the encoder sets (R110 to R116, R123) -/

@[simp] theorem CmdFields.bitSel_withBitSel {f : CmdFields} (h : f.kindf = 0) (b : BitSel) :
    (f.withBitSel b).bitSel = .ok b := by
  cases b with
  | index => simp [withBitSel, bitSel, h]
  | typed t => simp [withBitSel, bitSel, tag, Except.map]

@[simp] theorem CmdFields.tagFilter_withTagFilter {f : CmdFields} (h : f.kindf = 0) (k : Option FieldTag) :
    (f.withTagFilter k).tagFilter = .ok k := by
  cases k with
  | none => simp [withTagFilter, tagFilter, h]
  | some t => simp [withTagFilter, tagFilter, tag, Except.map]

@[simp] theorem CmdFields.levelFilter_withLevelFilter {f : CmdFields} (h : f.valf = 0) (v : Option Level) :
    (f.withLevelFilter v).levelFilter = v := by
  cases v with
  | none => simp [withLevelFilter, levelFilter, h]
  | some v => simp [withLevelFilter, levelFilter, level]

@[simp] theorem CmdFields.phaseFilter_withPhaseFilter {f : CmdFields} (h : f.phf = 0) (p : Option Phase) :
    (f.withPhaseFilter p).phaseFilter = p := by
  cases p with
  | none => simp [withPhaseFilter, phaseFilter, h]
  | some p => simp [withPhaseFilter, phaseFilter, phase]

/-! ## What setting one operand leaves of the other fields -/

@[simp] theorem CmdFields.withBitSel_frame (f : CmdFields) (b : BitSel) :
    (f.withBitSel b).opc = f.opc ∧ (f.withBitSel b).slot = f.slot ∧ (f.withBitSel b).val = f.val ∧
      (f.withBitSel b).ph = f.ph ∧ (f.withBitSel b).phf = f.phf ∧ (f.withBitSel b).sk = f.sk ∧
      (f.withBitSel b).reserved = f.reserved := by cases b <;> exact ⟨rfl, rfl, rfl, rfl, rfl, rfl, rfl⟩

@[simp] theorem CmdFields.withTagFilter_frame (f : CmdFields) (k : Option FieldTag) :
    (f.withTagFilter k).opc = f.opc ∧ (f.withTagFilter k).slot = f.slot ∧ (f.withTagFilter k).valf = f.valf ∧
      (f.withTagFilter k).reserved = f.reserved := by cases k <;> exact ⟨rfl, rfl, rfl, rfl⟩

@[simp] theorem CmdFields.withLevelFilter_frame (f : CmdFields) (v : Option Level) :
    (f.withLevelFilter v).opc = f.opc ∧ (f.withLevelFilter v).slot = f.slot ∧ (f.withLevelFilter v).kind = f.kind ∧
      (f.withLevelFilter v).sk = f.sk ∧ (f.withLevelFilter v).tagFilter = f.tagFilter ∧
      (f.withLevelFilter v).reserved = f.reserved := by cases v <;> exact ⟨rfl, rfl, rfl, rfl, rfl, rfl⟩

@[simp] theorem CmdFields.withPhaseFilter_frame (f : CmdFields) (p : Option Phase) :
    (f.withPhaseFilter p).opc = f.opc ∧ (f.withPhaseFilter p).slot = f.slot ∧ (f.withPhaseFilter p).val = f.val ∧
      (f.withPhaseFilter p).bitSel = f.bitSel ∧ (f.withPhaseFilter p).reserved = f.reserved := by
  cases p <;> exact ⟨rfl, rfl, rfl, rfl, rfl⟩

/-! ## The round trip -/

/-- The decoder reads the fields of a well-formed command as the command. -/
theorem decodeFields_encodeFields {i : Instr} (h : i.WellFormed) : decodeFields (encodeFields i) = .ok i := by
  cases i with
  | getNumStuffBits s sk v =>
    cases sk with
    | notStuff => cases h
    | normalStuff | fixedStuff =>
      simp [decodeFields, encodeFields, CmdFields.countedStuffKind, CmdFields.stuffKind, Except.map]
  | _ =>
    simp [decodeFields, encodeFields, CmdFields.tag, CmdFields.level, CmdFields.phase, CmdFields.stuffKind, Except.map]

/-- Settles O1: cutting the packed word gives its fields back, and those decode to the command they were set for. -/
theorem decodeOfEncodeIsTheCommand : Obligations.DecodeOfEncodeIsTheCommand := fun i h =>
  (decode_encode_fields i).trans (decodeFields_encodeFields h)

/-- Settles O3: each word is cut into its fields and decoded. -/
theorem specWordsDecode : Obligations.SpecWordsDecode := by
  refine ⟨?_, ?_, ?_, ?_, ?_, ?_, ?_, ?_, ?_, ?_⟩ <;> rfl

/-! ## When a field is legal (R106) -/

theorem exists_map_eq_ok {ε α β : Type} (e : Except ε α) (g : α → β) : (∃ y, e.map g = .ok y) ↔ ∃ x, e = .ok x := by
  cases e <;> simp [Except.map]

theorem CmdFields.tag_ok_iff (f : CmdFields) : (∃ t, f.tag = .ok t) ↔ f.kind.toNat < 28 := by
  rw [← FieldTag.ofCode_isSome, tag]
  cases FieldTag.ofCode f.kind.toNat <;> simp

theorem CmdFields.tagFilter_ok_iff (f : CmdFields) : (∃ k, f.tagFilter = .ok k) ↔ (f.kindf = 1 → f.kind.toNat < 28) := by
  rw [tagFilter]
  split
  next h => simp only [exists_map_eq_ok, tag_ok_iff, h, forall_const]
  next h => exact iff_of_true ⟨none, rfl⟩ fun h1 => absurd h1 h

theorem CmdFields.bitSel_ok_iff (f : CmdFields) : (∃ b, f.bitSel = .ok b) ↔ (f.kindf = 1 → f.kind.toNat < 28) := by
  rw [bitSel]
  split
  next h => simp only [exists_map_eq_ok, tag_ok_iff, h, forall_const]
  next h => exact iff_of_true ⟨.index, rfl⟩ fun h1 => absurd h1 h

theorem CmdFields.stuffKind_ok_iff (f : CmdFields) : (∃ k, f.stuffKind = .ok k) ↔ f.sk.toNat ≠ 3 := by
  have := f.sk.isLt
  rw [stuffKind]
  generalize f.sk.toNat = n at *
  interval_cases n <;> simp [StuffKind.ofCode]

theorem CmdFields.countedStuffKind_ok_iff (f : CmdFields) :
    (∃ k, f.countedStuffKind = .ok k) ↔ f.sk.toNat ≠ 3 ∧ f.sk.toNat ≠ 0 := by
  have := f.sk.isLt
  rw [countedStuffKind, stuffKind]
  generalize f.sk.toNat = n at *
  interval_cases n <;> simp [StuffKind.ofCode]

/-! ## The legal words (R104 to R106) -/

/-- `LegalWord` as a predicate of the word's fields. -/
def CmdFields.Legal (f : CmdFields) : Prop :=
  f.reserved = 0 ∧ f.opc.toNat ∈ assignedOpcodes ∧ (f.opc.toNat ∈ kindOpcodes → f.kind.toNat < 28) ∧
    (f.opc.toNat ∈ kindfOpcodes → f.kindf = 1 → f.kind.toNat < 28) ∧
    (f.opc.toNat = 0x2A → f.sk.toNat ≠ 3) ∧ (f.opc.toNat = 0x0C → f.sk.toNat ≠ 3 ∧ f.sk.toNat ≠ 0)

theorem legalWord_iff (w : Word) : LegalWord w ↔ (unpackFields w).Legal := by
  obtain ⟨hopc, -, -, hkind, -, -, hkindf, -, -, hsk, hres⟩ := unpackFields_toNat w
  rw [LegalWord, CmdFields.Legal, hopc, hkind, hsk, ← BitVec.toNat_inj, hres, ← BitVec.toNat_inj, hkindf]
  rfl

/-- R104 is checked before everything else. -/
theorem decodeFields_reserved {f : CmdFields} (h : f.reserved ≠ 0) : decodeFields f = .error .reservedBits := if_pos h

/-- An OPC value outside the opcode map (R105). -/
theorem decodeFields_unassigned {f : CmdFields} (hr : f.reserved = 0) (ha : f.opc.toNat ∉ assignedOpcodes) :
    decodeFields f = .error .unassignedOpcode := by
  simp only [decodeFields, hr, ne_eq, not_true, if_false]
  split
  case h_37 => rfl
  all_goals simp_all [assignedOpcodes]

/-- The decoder answers a command on exactly the legal fields: the opcodes one by one, SET_STUFF_KIND apart because it
alone reads two fields that can be illegal. -/
theorem decodeFields_ok_iff (f : CmdFields) : (∃ i, decodeFields f = .ok i) ↔ f.Legal := by
  by_cases hr : f.reserved = 0
  case neg => exact iff_of_false (by simp [decodeFields_reserved hr]) fun ⟨hres, _⟩ => hr hres
  by_cases ha : f.opc.toNat ∈ assignedOpcodes
  case neg => simp [decodeFields_unassigned hr ha, CmdFields.Legal, ha]
  simp only [decodeFields, CmdFields.Legal, hr, ha, ne_eq, not_true, if_false]
  split
  case h_31 h =>
    have hsel := f.bitSel_ok_iff
    have hsk := f.stuffKind_ok_iff
    cases hb : f.bitSel <;> cases hk : f.stuffKind <;> simp_all [kindOpcodes, kindfOpcodes]
  case h_37 => simp_all [assignedOpcodes]
  all_goals
    simp [*, kindOpcodes, kindfOpcodes, exists_map_eq_ok, CmdFields.tag_ok_iff, CmdFields.tagFilter_ok_iff,
      CmdFields.bitSel_ok_iff, CmdFields.countedStuffKind_ok_iff]

/-- Settles O2: a word decodes where its fields are legal, field by field. -/
theorem decodeAcceptsExactlyTheLegalWords : Obligations.DecodeAcceptsExactlyTheLegalWords := fun w =>
  (decodeFields_ok_iff (unpackFields w)).trans (legalWord_iff w).symm

/-! ## Unread fields (R102) -/

/-- Masking a word masks its fields. -/
theorem unpackFields_and (w m : Word) : unpackFields (w &&& m) =
    { opc := (unpackFields w).opc &&& (unpackFields m).opc
      slot := (unpackFields w).slot &&& (unpackFields m).slot
      slot2 := (unpackFields w).slot2 &&& (unpackFields m).slot2
      kind := (unpackFields w).kind &&& (unpackFields m).kind
      val := (unpackFields w).val &&& (unpackFields m).val
      valf := (unpackFields w).valf &&& (unpackFields m).valf
      kindf := (unpackFields w).kindf &&& (unpackFields m).kindf
      ph := (unpackFields w).ph &&& (unpackFields m).ph
      phf := (unpackFields w).phf &&& (unpackFields m).phf
      sk := (unpackFields w).sk &&& (unpackFields m).sk
      reserved := (unpackFields w).reserved &&& (unpackFields m).reserved } := by
  simp only [unpackFields, BitVec.extractLsb'_and]

/-- A full mask, written as the number it is, for each field width. -/
theorem and_ones : (∀ x : BitVec 1, x &&& 1#1 = x) ∧ (∀ x : BitVec 2, x &&& 3#2 = x) ∧
    (∀ x : BitVec 5, x &&& 31#5 = x) ∧ (∀ x : BitVec 6, x &&& 63#6 = x) ∧ (∀ x : BitVec 9, x &&& 511#9 = x) :=
  ⟨fun _ => BitVec.and_allOnes, fun _ => BitVec.and_allOnes, fun _ => BitVec.and_allOnes, fun _ => BitVec.and_allOnes,
    fun _ => BitVec.and_allOnes⟩

/-- Every opcode's read bits hold OPC and the reserved bits. -/
theorem readBits_opc_reserved (n : Nat) :
    (unpackFields (readBits n)).opc = 63#6 ∧ (unpackFields (readBits n)).reserved = 511#9 := by
  unfold readBits
  split <;> exact ⟨rfl, rfl⟩

/-- Clearing the bits that are not read changes no decoding, opcode by opcode. -/
theorem decode_and_readBits (w : Word) : decode (w &&& readBits (w.toNat % 64)) = decode w := by
  obtain ⟨hopc, -⟩ := unpackFields_toNat w
  rw [decode, decode, unpackFields_and, ← hopc]
  generalize unpackFields w = f
  simp only [readBits_opc_reserved, and_ones]
  by_cases hr : f.reserved = 0
  case neg => simp only [decodeFields_reserved, ne_eq, hr, not_false_eq_true]
  by_cases ha : f.opc.toNat ∈ assignedOpcodes
  case neg => simp only [decodeFields_unassigned, hr, ha, not_false_eq_true]
  unfold readBits
  split
  case h_37 => simp_all [assignedOpcodes]
  all_goals
    simp [decodeFields, *, and_ones, unpackFields, CmdFields.tag, CmdFields.bitSel, CmdFields.tagFilter,
      CmdFields.level, CmdFields.levelFilter, CmdFields.phase, CmdFields.phaseFilter, CmdFields.stuffKind,
      CmdFields.countedStuffKind]

/-- Words that agree on the bits read for some opcode have the same OPC. -/
theorem opc_eq_of_and_readBits {w v : Word} {n : Nat} (h : w &&& readBits n = v &&& readBits n) :
    w.toNat % 64 = v.toNat % 64 := by
  have hopc := congrArg (fun x => (unpackFields x).opc.toNat) h
  simpa only [unpackFields_and, readBits_opc_reserved, and_ones, unpackFields_toNat] using hopc

theorem decode_eq_of_and_readBits {w v : Word}
    (h : w &&& readBits (w.toNat % 64) = v &&& readBits (w.toNat % 64)) : decode w = decode v := by
  rw [← decode_and_readBits w, h, opc_eq_of_and_readBits h, decode_and_readBits]

/-! ## KIND where KINDF = 0 (R102, R106) -/

/-- An opcode that reads KIND for a filter or a selector does not read it where KINDF = 0. -/
theorem decodeFields_kind_of_kindf_zero {f : CmdFields} (ho : f.opc.toNat ∈ kindfOpcodes) (hk : f.kindf = 0)
    (k : BitVec 5) : decodeFields { f with kind := k } = decodeFields f := by
  simp only [kindfOpcodes, List.mem_cons, List.not_mem_nil, or_false] at ho
  rcases ho with h | h | h | h | h | h | h | h | h | h | h | h | h | h | h <;>
    simp [decodeFields, h, hk, CmdFields.bitSel, CmdFields.tagFilter, CmdFields.level, CmdFields.levelFilter,
      CmdFields.phase, CmdFields.phaseFilter, CmdFields.stuffKind]

/-- The mask that clears KIND keeps every other field. -/
theorem unpackFields_clearKind (w : Word) : unpackFields (w &&& 0xFFFF83FF) = { unpackFields w with kind := 0 } := by
  rw [unpackFields_and]
  generalize unpackFields w = f
  simp [unpackFields, and_ones]

theorem clearKind_opc (w : Word) : (w &&& 0xFFFF83FF).toNat % 64 = w.toNat % 64 := by
  have hopc := congrArg (fun f => f.opc.toNat) (unpackFields_clearKind w)
  simpa only [unpackFields_toNat] using hopc

theorem decode_clearKind {w : Word} (ho : w.toNat % 64 ∈ kindfOpcodes) (hk : w.toNat / 2 ^ 17 % 2 = 0) :
    decode (w &&& 0xFFFF83FF) = decode w := by
  obtain ⟨hopc, -, -, -, -, -, hkindf, -⟩ := unpackFields_toNat w
  rw [decode, unpackFields_clearKind]
  exact decodeFields_kind_of_kindf_zero (hopc ▸ ho) (BitVec.eq_of_toNat_eq (hkindf.trans hk)) 0

/-- An opcode that reads KIND for a filter or a selector reads KINDF. -/
theorem readBits_kindf : ∀ n ∈ kindfOpcodes, (unpackFields (readBits n &&& 0xFFFF83FF)).kindf = 1#1 := by decide

theorem kindf_eq_of_and_readBits {w v : Word} {n : Nat} (hn : n ∈ kindfOpcodes)
    (h : w &&& (readBits n &&& 0xFFFF83FF) = v &&& (readBits n &&& 0xFFFF83FF)) :
    w.toNat / 2 ^ 17 % 2 = v.toNat / 2 ^ 17 % 2 := by
  have hkindf := congrArg (fun x => (unpackFields x).kindf.toNat) h
  simp only [unpackFields_and w, unpackFields_and v, readBits_kindf n hn, and_ones] at hkindf
  simpa only [unpackFields_toNat] using hkindf

/-- Settles O4: decoding sees a word through its read bits alone; where KINDF = 0, both words keep their decoding when
KIND is cleared, and then they agree on the read bits. -/
theorem unreadFieldsAreIgnored : Obligations.UnreadFieldsAreIgnored := by
  refine fun w v => ⟨decode_eq_of_and_readBits, fun ho hk h => ?_⟩
  have hkv : v.toNat / 2 ^ 17 % 2 = 0 := (kindf_eq_of_and_readBits ho h).symm.trans hk
  rw [BitVec.and_comm (readBits _), ← BitVec.and_assoc, ← BitVec.and_assoc] at h
  have hopc : w.toNat % 64 = v.toNat % 64 := by simpa only [clearKind_opc] using opc_eq_of_and_readBits h
  calc decode w = decode (w &&& 0xFFFF83FF) := (decode_clearKind ho hk).symm
    _ = decode (v &&& 0xFFFF83FF) := decode_eq_of_and_readBits (by rwa [clearKind_opc])
    _ = decode v := decode_clearKind (hopc ▸ ho) hkv

end Sys2Proof
end

section
/-! SUPPORT. A write to CMD as one step (spec/30_encoding.md R101), and the errors of the bit selector (R115). -/

namespace Sys2Proof.Machine

/-- Settles O5: the branches of a CMD write, where a word is illegal exactly if it does not decode. -/
theorem cmdWriteExecutesInOrder : Obligations.CmdWriteExecutesInOrder := by
  intro s w rest h
  have hs : step s = commandWrite w { s with pending := rest } := step_write (r := .cmd) h
  rw [hs]
  refine ⟨fun f hf => commandWrite_fatal (s := { s with pending := rest }) w hf, fun hf hw => ?_, fun hf hw => ?_⟩
  · cases hd : decode w with
    | ok i => exact absurd ((decodeAcceptsExactlyTheLegalWords w).1 ⟨i, hd⟩) hw
    | error e => exact commandWrite_illegal (s := { s with pending := rest }) hf hd
  · obtain ⟨i, hd⟩ := (decodeAcceptsExactlyTheLegalWords w).2 hw
    exact ⟨i, hd, commandWrite_legal (s := { s with pending := rest }) hf hd⟩

/-- Settles O6: the placed word is written to CMD, and a well-formed command's word decodes to it. -/
theorem stepRunsTheDecodedCommand : Obligations.StepRunsTheDecodedCommand := by
  intro s hf
  have hrun (w : Word) (i : Instr) (hd : decode w = .ok i) :
      step (s.withFetchWord 32 w.toNat) = exec i { s with cmd := w } :=
    (step_withFetchWord s w).trans (commandWrite_legal hf hd)
  exact ⟨hrun, fun i hi => hrun (encode i) i (decodeOfEncodeIsTheCommand i hi)⟩

/-- A selector error ends every command with a selector (R115, R210): on one bit, on the bits from a position on, or by
a splice. -/
theorem exec_of_selectBit_error {i : Instr} {s : State} {ix : SlotIx} {sel : BitSel} {allowEnd : Bool} {e : Halt}
    (hi : selectorOf i = some (ix, sel, allowEnd)) (hv : (s.slot ix).valid = true)
    (he : selectBit (s.slot ix).bits sel s.arg0.toNat allowEnd = .error e) : exec i s = .next (halt e s) := by
  cases i <;> cases hi
  case readBit | readPhaseLen => exact congrArg _ (query_error hv (atBit_error _ he))
  case removeBitsFrom => exact congrArg _ (edit_error hv (by rw [he, Except.map]))
  case insertActiveErrorFrame | insertPassiveErrorFrame | insertOverloadFrame =>
    exact congrArg _ (edit_error hv (by simp only [he]))
  all_goals exact congrArg _ (edit_error hv (atBit_error _ he))

/-- Settles O18: an absolute index out of range and a typed selection without a match are the selector's two errors. -/
theorem selectorErrors : Obligations.SelectorErrors := by
  intro i s ix sel allowEnd hi hv
  refine ⟨?_, ?_⟩
  · rintro rfl h
    exact exec_of_selectBit_error hi hv (selectBit_index_error h)
  · rintro t rfl h
    exact exec_of_selectBit_error hi hv (selectBit_typed_error h)

end Sys2Proof.Machine
end

section
/-! SUPPORT. RANDOMIZE (spec/40_frame_descriptor.md R150, R151): what each of its choices may answer, what they make of
the command, and an ORACLE for every legal descriptor. -/

namespace Sys2Proof.Machine

/-! ## Drawing the flags (R150 step 1) -/

/-- The flags of R150 step 1 and the ORACLE's next state; `none` where no legal combination agrees with the pins. -/
def chooseFlags (o : Nat → Nat) (s : State) : Option (BitVec 5 × Nat) :=
  match flagChoices s.pin s.flags with
  | [] => none
  | f :: fs =>
    let d := drawFrom o s.draws (fs.length + 1)
    some ((f :: fs).getD d.1 f, d.2)

/-- Only pinning FDF = 1 and RTR = 1 leaves no flags to draw: otherwise every unpinned flag may be 0. -/
theorem flagChoices_eq_nil_iff (pin : BitVec 8) (flags : BitVec 5) :
    flagChoices pin flags = [] ↔
      pin.getLsbD 0 = true ∧ pin.getLsbD 2 = true ∧ flagFdf flags = true ∧ flagRtr flags = true := by
  constructor
  · intro hnil
    by_contra hpins
    refine List.eq_nil_iff_forall_not_mem.1 hnil (flags &&& pinFlags pin) ((mem_flagChoices _ _ _).2 ⟨?_, ?_⟩)
    · rintro ⟨hfdf, hrtr⟩
      simp only [flagFdf, flagRtr, pinFlags, BitVec.getLsbD_and, BitVec.getLsbD_extractLsb', Bool.and_eq_true] at *
      exact hpins ⟨hfdf.2.2, hrtr.2.2, hfdf.1, hrtr.1⟩
    · intro k hk hp
      simp [pinFlags, hk, hp]
  · rintro ⟨hp0, hp2, hfdf, hrtr⟩
    refine List.eq_nil_iff_forall_not_mem.2 fun x hx => ?_
    obtain ⟨hlegal, hpinned⟩ := (mem_flagChoices _ _ _).1 hx
    exact hlegal ⟨(hpinned 0 (by decide) hp0).trans hfdf, (hpinned 2 (by decide) hp2).trans hrtr⟩

theorem chooseFlags_eq_none_iff (o : Nat → Nat) (s : State) :
    chooseFlags o s = none ↔ flagChoices s.pin s.flags = [] := by
  unfold chooseFlags
  cases flagChoices s.pin s.flags <;> simp

/-- Where flags are drawn, they stand at the drawn index of the draw set. -/
theorem chooseFlags_eq_some {o : Nat → Nat} {s : State} {flags : BitVec 5} {k : Nat}
    (h : chooseFlags o s = some (flags, k)) :
    ∃ f fs, flagChoices s.pin s.flags = f :: fs ∧ (f :: fs).getD (drawFrom o s.draws (fs.length + 1)).1 f = flags ∧
      (drawFrom o s.draws (fs.length + 1)).2 = k := by
  unfold chooseFlags at h
  split at h <;> cases h
  exact ⟨_, _, ‹_›, rfl, rfl⟩

theorem mem_flagChoices_of_chooseFlags {o : Nat → Nat} {s : State} {flags : BitVec 5} {k : Nat}
    (h : chooseFlags o s = some (flags, k)) : flags ∈ flagChoices s.pin s.flags := by
  obtain ⟨f, fs, hc, rfl, -⟩ := chooseFlags_eq_some h
  have hlt : (drawFrom o s.draws (fs.length + 1)).1 < (f :: fs).length := drawFrom_lt _ _ _ (Nat.succ_pos _)
  rw [hc, List.getD_eq_getElem _ f hlt]
  exact List.getElem_mem hlt

/-! ## Drawing the identifier and the DLC (R150 steps 2 and 3)

Both are one choice: a field of `w` bits that may hold any value where it is wide, and values up to a limit where it
is not. -/

/-- The choice of a field: kept where it is pinned and in range, drawn from its range where it is not pinned. -/
def chooseField {w : Nat} (pinned wide : Bool) (limit : Nat) (old : BitVec w) (o : Nat → Nat) (k : Nat) :
    Option (BitVec w × Nat) :=
  if pinned then
    if !wide && decide (limit < old.toNat) then none else some (old, k)
  else
    let d := drawFrom o k (if wide then 2 ^ w else limit + 1)
    some (BitVec.ofNat w d.1, d.2)

theorem chooseId_eq_chooseField (o : Nat → Nat) (k : Nat) (s : State) (flags : BitVec 5) :
    chooseId o k s flags = chooseField (pinId s.pin) (flagIde flags) 0x7FF s.id o k := rfl

theorem chooseDlc_eq_chooseField (o : Nat → Nat) (k : Nat) (s : State) (flags : BitVec 5) :
    chooseDlc o k s flags = chooseField (pinDlc s.pin) (flagFdf flags) 8 s.dlc o k := rfl

section
variable {w : Nat} {pinned wide : Bool} {limit : Nat} {old : BitVec w} {o : Nat → Nat} {k : Nat}

theorem chooseField_eq_none_iff :
    chooseField pinned wide limit old o k = none ↔ pinned = true ∧ wide = false ∧ limit < old.toNat := by
  cases pinned <;> simp [chooseField]

/-- A chosen value is in range, and is the old one where the field is pinned. -/
theorem chooseField_eq_some {v : BitVec w} {k' : Nat} (h : chooseField pinned wide limit old o k = some (v, k')) :
    (wide = false → v.toNat ≤ limit) ∧ (pinned = true → v = old) := by
  cases pinned with
  | true =>
    simp only [chooseField, if_true, Option.ite_none_left_eq_some, Option.some.injEq, Prod.mk.injEq] at h
    obtain ⟨hr, rfl, -⟩ := h
    refine ⟨fun hw => ?_, fun _ => rfl⟩
    simpa [hw] using hr
  | false =>
    obtain ⟨rfl, -⟩ : _ ∧ _ := by simpa [chooseField] using h
    refine ⟨fun hw => ?_, nofun⟩
    have hlt := drawFrom_lt o k (limit + 1) (Nat.succ_pos _)
    have hle := Nat.mod_le (drawFrom o k (limit + 1)).1 (2 ^ w)
    simp only [hw, Bool.false_eq_true, if_false, BitVec.toNat_ofNat]
    omega

end

/-! ## The payload (R150 steps 4 and 5) -/

theorem choosePayload_keeps (o : Nat → Nat) (k n : Nat) (s : State) (j : Fin 64)
    (h : pinData s.pin = true ∨ n ≤ j.val) : (choosePayload o k n s).1[j] = s.data[j] := by
  unfold choosePayload
  split
  · rfl
  next hp =>
    have hn : ¬ j.val < n := by have := h.resolve_left hp; omega
    simp [hn]

/-- The data length of a legal data frame, by the table of R145. -/
theorem dataLen_of_legal {flags : BitVec 5} {dlc : BitVec 4} (hr : flagRtr flags = false)
    (hd : flagFdf flags = false → dlc.toNat ≤ 8) :
    dataLen (flagFdf flags) (flagRtr flags) dlc = fdLengths[dlc.toNat]?.getD 0 := by
  have hshort : ∀ d : BitVec 4, d.toNat ≤ 8 → fdLength d = d.toNat := by decide
  rw [fdLengths_getElem?, Option.getD_some, dataLen, hr]
  cases hf : flagFdf flags with
  | true => rfl
  | false => exact (hshort dlc (hd hf)).symm

/-! ## The command by its choices -/

section
variable {o : Nat → Nat} {s : State} {flags : BitVec 5} {k : Nat}

theorem randomizeWith_of_chooseFlags_none (hf : chooseFlags o s = none) :
    randomizeWith o s = fail .invalidFlagCombination s := by
  rw [randomizeWith, (chooseFlags_eq_none_iff o s).1 hf]

theorem randomizeWith_of_chooseId_none (hf : chooseFlags o s = some (flags, k)) (hi : chooseId o k s flags = none) :
    randomizeWith o s = fail .invalidFrame { s with draws := k } := by
  obtain ⟨f, fs, hc, rfl, rfl⟩ := chooseFlags_eq_some hf
  simp only [randomizeWith, hc, hi]

theorem randomizeWith_of_chooseDlc_none {id : BitVec 29 × Nat} (hf : chooseFlags o s = some (flags, k))
    (hi : chooseId o k s flags = some id) (hd : chooseDlc o id.2 s flags = none) :
    randomizeWith o s = fail .invalidFrame { s with draws := id.2 } := by
  obtain ⟨f, fs, hc, rfl, rfl⟩ := chooseFlags_eq_some hf
  simp only [randomizeWith, hc, hi, hd]

theorem randomizeWith_of_choices {id : BitVec 29 × Nat} {dlc : BitVec 4 × Nat} (hf : chooseFlags o s = some (flags, k))
    (hi : chooseId o k s flags = some id) (hd : chooseDlc o id.2 s flags = some dlc) :
    randomizeWith o s =
      let p := choosePayload o dlc.2 (dataLen (flagFdf flags) (flagRtr flags) dlc.1) s
      succeed { s with flags := flags, id := id.1, dlc := dlc.1, data := p.1, draws := p.2 } := by
  obtain ⟨f, fs, hc, rfl, rfl⟩ := chooseFlags_eq_some hf
  simp only [randomizeWith, hc, hi, hd]

end

/-- The pinned identifier or the pinned DLC is out of range under these flags. -/
def PinsOutOfRange (s : State) (flags : BitVec 5) : Prop :=
  (pinId s.pin = true ∧ flagIde flags = false ∧ 0x7FF < s.id.toNat) ∨
  (pinDlc s.pin = true ∧ flagFdf flags = false ∧ 8 < s.dlc.toNat)

/-- What RANDOMIZE may leave: these flags, a descriptor that is legal with them and agrees with the pins, and a payload
changed below the data length alone. -/
def Randomized (s : State) (flags : BitVec 5) (t : State) : Prop :=
  ∃ (id : BitVec 29) (dlc : BitVec 4) (data : Vector Byte 64) (draws : Nat),
    t = { s with code := .ok, flags := flags, id := id, dlc := dlc, data := data, draws := draws } ∧
    ((flagIde flags = false → id.toNat ≤ 0x7FF) ∧ (pinId s.pin = true → id = s.id)) ∧
    ((flagFdf flags = false → dlc.toNat ≤ 8) ∧ (pinDlc s.pin = true → dlc = s.dlc)) ∧
    ∀ j : Fin 64, pinData s.pin = true ∨ dataLen (flagFdf flags) (flagRtr flags) dlc ≤ j.val → data[j] = s.data[j]

/-- With flags to draw, RANDOMIZE draws legal ones that agree with the pins, and the pins alone then say whether it
fails or completes. -/
theorem randomizeWith_of_flagChoices (o : Nat → Nat) {s : State} (h : flagChoices s.pin s.flags ≠ []) :
    ∃ flags ∈ flagChoices s.pin s.flags,
      (PinsOutOfRange s flags ∧ ∃ n, randomizeWith o s = fail .invalidFrame { s with draws := n }) ∨
      (¬ PinsOutOfRange s flags ∧ Randomized s flags (randomizeWith o s)) := by
  cases hf : chooseFlags o s with
  | none => exact absurd ((chooseFlags_eq_none_iff o s).1 hf) h
  | some f =>
    obtain ⟨flags, k⟩ := f
    refine ⟨flags, mem_flagChoices_of_chooseFlags hf, ?_⟩
    cases hi : chooseId o k s flags with
    | none => exact .inl ⟨.inl (chooseField_eq_none_iff.1 hi), k, randomizeWith_of_chooseId_none hf hi⟩
    | some id =>
      cases hd : chooseDlc o id.2 s flags with
      | none => exact .inl ⟨.inr (chooseField_eq_none_iff.1 hd), id.2, randomizeWith_of_chooseDlc_none hf hi hd⟩
      | some dlc =>
        refine .inr ⟨?_, id.1, dlc.1, _, _, randomizeWith_of_choices hf hi hd, chooseField_eq_some hi,
          chooseField_eq_some hd, choosePayload_keeps o _ _ s⟩
        rintro (hbad | hbad)
        · exact Option.some_ne_none _ (hi.symm.trans (chooseField_eq_none_iff.2 hbad))
        · exact Option.some_ne_none _ (hd.symm.trans (chooseField_eq_none_iff.2 hbad))

/-- Settles O55: there are flags to draw, and the pinned IDE and FDF are those of the drawn flags, so that the pinned
identifier and DLC are in range. -/
theorem randomizeGivesALegalDescriptor : Obligations.RandomizeGivesALegalDescriptor := by
  intro s hflags hid hdlc
  have hne : flagChoices s.pin s.flags ≠ [] := fun h => hflags ((flagChoices_eq_nil_iff _ _).1 h)
  obtain ⟨flags, hmem, h⟩ := randomizeWith_of_flagChoices Config.oracle hne
  obtain ⟨hlegal, hpinned⟩ := (mem_flagChoices _ _ _).1 hmem
  have hrange : ¬ PinsOutOfRange s flags := by
    rintro (⟨hp, hide, hbig⟩ | ⟨hp, hfdf, hbig⟩)
    · obtain hle | ⟨hp1, hs⟩ := hid hp
      · omega
      · exact absurd ((hpinned 1 (by decide) hp1).trans hs) (by simpa [flagIde] using hide)
    · obtain hle | ⟨hp0, hs⟩ := hdlc hp
      · omega
      · exact absurd ((hpinned 0 (by decide) hp0).trans hs) (by simpa [flagFdf] using hfdf)
  obtain ⟨hbad, -⟩ | ⟨-, id, dlc, data, draws, ht, ⟨hi, hip⟩, ⟨hd, hdp⟩, hdata⟩ := h
  · exact absurd hbad hrange
  · refine ⟨flags, id, dlc, data, draws, congrArg Host.Outcome.next ht, hlegal, hi, hd, hpinned, hip, hdp, ?_⟩
    intro j hj
    refine hdata j (hj.imp_right fun hlen => ?_)
    cases hr : flagRtr flags with
    | true => exact Nat.zero_le _
    | false => exact hr ▸ (dataLen_of_legal hr hd).trans_le (hlen.resolve_left (by simp [hr]))

/-- Settles O56: no flags to draw, or only flags under which a pinned value is out of range; RTR pinned 1 leaves flags
with FDF = 0. -/
theorem randomizeFailures : Obligations.RandomizeFailures := by
  intro s
  refine ⟨fun hp0 hp2 hfdf hrtr => ?_, fun hflags hpins => ?_⟩
  · have hnil := (flagChoices_eq_nil_iff s.pin s.flags).2 ⟨hp0, hp2, hfdf, hrtr⟩
    exact congrArg Host.Outcome.next (randomizeWith_of_chooseFlags_none ((chooseFlags_eq_none_iff _ s).2 hnil))
  · have hne : flagChoices s.pin s.flags ≠ [] := fun h => hflags ((flagChoices_eq_nil_iff _ _).1 h)
    obtain ⟨flags, hmem, h⟩ := randomizeWith_of_flagChoices Config.oracle hne
    obtain ⟨hlegal, hpinned⟩ := (mem_flagChoices _ _ _).1 hmem
    have hbad : PinsOutOfRange s flags := by
      obtain ⟨hp, hbig, hp1, hide⟩ | ⟨hp, hbig, ⟨hp0, hfdf⟩ | ⟨hp2, hrtr⟩⟩ := hpins
      · exact .inl ⟨hp, (hpinned 1 (by decide) hp1).trans hide, hbig⟩
      · exact .inr ⟨hp, (hpinned 0 (by decide) hp0).trans hfdf, hbig⟩
      · refine .inr ⟨hp, ?_, hbig⟩
        have hrtr' : flagRtr flags = true := (hpinned 2 (by decide) hp2).trans hrtr
        simpa [hrtr'] using hlegal
    obtain ⟨-, n, ht⟩ | ⟨hok, -⟩ := h
    · exact ⟨n, congrArg Host.Outcome.next ht⟩
    · exact absurd hbad hok

/-! ## An ORACLE for a legal descriptor (R151)

Each choice answers a wanted value when the ORACLE answers a list of numbers from its present state on; the lists
joined make one ORACLE. -/

/-- From its k-th draw on, the ORACLE answers the numbers of `l`. -/
def Answers (o : Nat → Nat) (k : Nat) (l : List Nat) : Prop := ∀ j a, l[j]? = some a → o (k + j) = a

theorem exists_answers (k : Nat) (l : List Nat) : ∃ o, Answers o k l :=
  ⟨fun m => l[m - k]?.getD 0, fun j a h => by simp [h]⟩

theorem answers_singleton {o : Nat → Nat} {k a : Nat} (h : Answers o k [a]) : o k = a := h 0 a rfl

theorem answers_append {o : Nat → Nat} {k : Nat} {l m : List Nat} (h : Answers o k (l ++ m)) :
    Answers o k l ∧ Answers o (k + l.length) m := by
  refine ⟨fun j a ha => h j a ?_, fun j a ha => ?_⟩
  · obtain ⟨hj, -⟩ := List.getElem?_eq_some_iff.1 ha
    rwa [List.getElem?_append_left hj]
  · rw [Nat.add_assoc]
    refine h _ a ?_
    rwa [List.getElem?_append_right (Nat.le_add_right _ _), Nat.add_sub_cancel_left]

theorem drawFrom_of_answers {n i : Nat} (hi : i < n) :
    ∃ l, ∀ o k, Answers o k l → drawFrom o k n = (i, k + l.length) := by
  by_cases hn : n ≤ 1
  · refine ⟨[], fun o k _ => ?_⟩
    obtain rfl : i = 0 := by omega
    simp [drawFrom, hn]
  · refine ⟨[i], fun o k h => ?_⟩
    simp [drawFrom, hn, answers_singleton h, Nat.mod_eq_of_lt hi]

theorem chooseFlags_of_answers {s : State} {flags : BitVec 5} (h : flags ∈ flagChoices s.pin s.flags) :
    ∃ l, ∀ o, Answers o s.draws l → chooseFlags o s = some (flags, s.draws + l.length) := by
  obtain ⟨i, hi, hget⟩ := List.mem_iff_getElem.1 h
  obtain ⟨l, hl⟩ := drawFrom_of_answers hi
  refine ⟨l, fun o ho => ?_⟩
  have hd := hl o s.draws ho
  unfold chooseFlags
  split
  next hc => simp [hc] at h
  next f fs hc =>
    simp only [hc] at hi hget hd
    rw [List.length_cons] at hd
    simp only [hd, List.getD_eq_getElem _ f hi, hget]

/-- Every value in range that agrees with the pin may be chosen. -/
theorem chooseField_of_answers {w : Nat} {pinned wide : Bool} {limit : Nat} {old v : BitVec w}
    (hv : wide = false → v.toNat ≤ limit) (hp : pinned = true → v = old) :
    ∃ l, ∀ o k, Answers o k l → chooseField pinned wide limit old o k = some (v, k + l.length) := by
  cases pinned with
  | true =>
    obtain rfl := hp rfl
    refine ⟨[], fun o k _ => ?_⟩
    cases wide with
    | true => rfl
    | false => simp [chooseField, hv rfl]
  | false =>
    have hlt : v.toNat < if wide then 2 ^ w else limit + 1 := by
      cases wide with
      | true => exact v.isLt
      | false => exact Nat.lt_succ_of_le (hv rfl)
    obtain ⟨l, hl⟩ := drawFrom_of_answers hlt
    exact ⟨l, fun o k ho => by simp [chooseField, hl o k ho]⟩

/-- Any bytes may be drawn for an unpinned payload. -/
theorem choosePayload_of_answers (s : State) (n : Nat) (bytes : Nat → Byte) :
    ∃ l, ∀ o k, Answers o k l → pinData s.pin = false → ∀ j, j < n → j < 64 →
      (choosePayload o k n s).1[j]? = some (bytes j) := by
  refine ⟨(List.range n).map fun j => (bytes j).toNat, fun o k ho hp j hj hj64 => ?_⟩
  have hoj : o (k + j) = (bytes j).toNat := ho j _ (by simp [hj])
  have hmod : (bytes j).toNat % 256 = (bytes j).toNat := Nat.mod_eq_of_lt (bytes j).isLt
  simp [choosePayload, hp, hj, hj64, hoj, hmod]

/-- Settles O57: the ORACLE that answers the flags, the identifier, the DLC and the payload one after the other. -/
theorem everyLegalDescriptorMayBeDrawn : Obligations.EveryLegalDescriptorMayBeDrawn := by
  refine ⟨fun _ => rfl, fun s flags id dlc bytes hlegal hid hdlc hpinned hip hdp => ?_⟩
  obtain ⟨lf, hf⟩ := chooseFlags_of_answers ((mem_flagChoices _ _ _).2 ⟨hlegal, hpinned⟩)
  obtain ⟨li, hi⟩ := chooseField_of_answers (limit := 0x7FF) hid hip
  obtain ⟨ld, hd⟩ := chooseField_of_answers (limit := 8) hdlc hdp
  obtain ⟨lp, hp⟩ := choosePayload_of_answers s (fdLengths[dlc.toNat]?.getD 0) bytes
  obtain ⟨o, ho⟩ := exists_answers s.draws (lf ++ (li ++ (ld ++ lp)))
  obtain ⟨hof, ho⟩ := answers_append ho
  obtain ⟨hoi, ho⟩ := answers_append ho
  obtain ⟨hod, hop⟩ := answers_append ho
  have he := randomizeWith_of_choices (hf o hof) (hi o _ hoi) (hd o _ hod)
  refine ⟨o, by rw [he]; rfl, by rw [he]; rfl, by rw [he]; rfl, by rw [he]; rfl, fun hpin hr j hj => ?_⟩
  have hj64 : j < 64 := hj.trans_le (by rw [fdLengths_getElem?]; exact fdLength_le dlc)
  rw [he, dataLen_of_legal hr hdlc]
  exact congrArg (·.getD 0) (hp o _ hop hpin j hj hj64)

end Sys2Proof.Machine
end

section
/-! SUPPORT. Bit timing (spec/41_bit_timing.md): what the quantizer readout answers (R200 to R202), and the timing of a
fresh bit with bit-rate shift (R171, R172, R174). -/

namespace Sys2Proof.Machine

/-! ## The readout (R200 to R202) -/

theorem cyclesOf_length (bits : List FrameBit) :
    (cyclesOf bits).length = (bits.map fun b => (b.tqs.map fun q => q.cycles.length).sum).sum :=
  cyclesFrom_length 0 bits

/-- Settles O30: the readout's length is the sum of the cycle counts. -/
theorem qzLengthCountsTheCycles : Obligations.QzLengthCountsTheCycles := by
  intro s ix hv
  have hq : exec (.qzLength ix) s = .next (answered s (BitVec.ofNat 32 (cyclesOf (s.slot ix).bits).length)) :=
    congrArg Host.Outcome.next (query_ok hv rfl)
  rw [hq, cyclesOf_length]

/-- A cycle within its bit: before it come the cycles of the quanta before its own, and those before it in its own. -/
theorem bitCycles_split {b : FrameBit} {qPre qPost : List TimeQuantum} {q : TimeQuantum}
    {cPre cPost : List (Option Level)} {c : Option Level} (hq : b.tqs = qPre ++ q :: qPost)
    (hc : q.cycles = cPre ++ c :: cPost) (i : Nat) :
    ∃ pre post, bitCycles i b =
        pre ++ { level := cycleLevel b c, phase := q.phase, forced := c.isSome, bit := i } :: post ∧
      pre.length = (qPre.map fun q => q.cycles.length).sum + cPre.length := by
  simp only [bitCycles, hq, List.flatMap_append, List.flatMap_cons, hc, List.map_append, List.map_cons,
    List.append_assoc, List.cons_append]
  refine ⟨_ ++ _, _, (List.append_assoc _ _ _).symm, ?_⟩
  simp [List.length_flatMap]

/-- The readout at a cycle's prefix sum is that cycle. -/
theorem cyclesOf_getElem? {bPre bPost : List FrameBit} {b : FrameBit} {qPre qPost : List TimeQuantum} {q : TimeQuantum}
    {cPre cPost : List (Option Level)} {c : Option Level} (hq : b.tqs = qPre ++ q :: qPost)
    (hc : q.cycles = cPre ++ c :: cPost) :
    (cyclesOf (bPre ++ b :: bPost))[(bPre.map fun b => (b.tqs.map fun q => q.cycles.length).sum).sum
        + (qPre.map fun q => q.cycles.length).sum + cPre.length]? =
      some { level := cycleLevel b c, phase := q.phase, forced := c.isSome, bit := bPre.length } := by
  obtain ⟨pre, post, hb, hl⟩ := bitCycles_split hq hc bPre.length
  rw [cyclesOf, cyclesFrom_append, Nat.zero_add, cyclesFrom, hb, Nat.add_assoc, ← hl, ← cyclesFrom_length 0 bPre,
    List.getElem?_append_right (Nat.le_add_right _ _), Nat.add_sub_cancel_left, List.append_assoc,
    List.getElem?_append_right (Nat.le_refl _), Nat.sub_self]
  rfl

/-- The word of a cycle as the sum of its fields (R202). -/
theorem cycleWord_toNat (c : Cycle) :
    (cycleWord c).toNat =
      c.level.toBool.toNat + 2 * c.phase.code + 2 ^ 3 * c.forced.toNat + 2 ^ 8 * (c.bit % 2 ^ 24) := by
  have hp : c.phase.code % 2 ^ 2 = c.phase.code := by cases c.phase <;> rfl
  change BitVec.toNat (w := 24 + 4 + 1 + 2 + 1) (BitVec.ofNat 24 c.bit ++ (0 : BitVec 4) ++ BitVec.ofBool c.forced
    ++ phaseField c.phase ++ levelField c.level) = _
  simp only [toNat_append_add, levelField, phaseField, BitVec.toNat_ofNat, BitVec.toNat_ofBool,
    BitVec.ofNat_eq_ofNat, hp]
  omega

/-- The fields of a cycle's word, cut out again. -/
theorem cycleWord_fields (c : Cycle) :
    (cycleWord c).toNat % 2 = c.level.toBool.toNat ∧ (cycleWord c).toNat / 2 % 4 = c.phase.code ∧
      (cycleWord c).toNat / 2 ^ 3 % 2 = c.forced.toNat ∧ (cycleWord c).toNat / 2 ^ 4 % 2 ^ 4 = 0 ∧
      (cycleWord c).toNat / 2 ^ 8 = c.bit % 2 ^ 24 := by
  have hl := Bool.toNat_lt c.level.toBool
  have hf := Bool.toNat_lt c.forced
  have hp : c.phase.code < 4 := by cases c.phase <;> decide
  rw [cycleWord_toNat]
  omega

theorem exec_qzRead_of_some {s : State} {ix : SlotIx} {c : Cycle} (hv : (s.slot ix).valid = true)
    (h : (cyclesOf (s.slot ix).bits)[s.arg0.toNat]? = some c) :
    exec (.qzRead ix) s = .next (answered s (cycleWord c)) :=
  congrArg Host.Outcome.next (query_ok hv (by simp only [h]))

theorem exec_qzRead_of_none {s : State} {ix : SlotIx} (hv : (s.slot ix).valid = true)
    (h : (cyclesOf (s.slot ix).bits)[s.arg0.toNat]? = none) :
    exec (.qzRead ix) s = .next { s with fatal := some .indexOutOfRange } :=
  congrArg Host.Outcome.next (query_error (e := .fatal .indexOutOfRange) hv (by simp only [h]))

/-- Settles O31: the readout's entry at ARG0 is the cycle, and RESULT is its word. -/
theorem qzReadReportsTheCycle : Obligations.QzReadReportsTheCycle := by
  intro s ix bPre bPost b qPre qPost q cPre cPost c hv hb hq hc ha
  have hget := cyclesOf_getElem? (bPre := bPre) (bPost := bPost) hq hc
  rw [← hb, ← ha] at hget
  obtain ⟨hlevel, hrest⟩ := cycleWord_fields ⟨cycleLevel b c, q.phase, c.isSome, bPre.length⟩
  refine ⟨_, exec_qzRead_of_some hv hget, hlevel.trans ?_, hrest⟩
  cases c <;> rfl

/-- Settles O32: from its length on, the readout has no entry. -/
theorem qzReadBeyondTheReadoutIsFatal : Obligations.QzReadBeyondTheReadoutIsFatal := by
  intro s ix hv h
  rw [← cyclesOf_length] at h
  exact exec_qzRead_of_none hv (List.getElem?_eq_none h)

/-! ## A fresh bit with bit-rate shift (R171, R174) -/

/-- The tags from Brs to Crc by their codes (R110). -/
theorem tag_between_iff (k : FieldTag) :
    9 ≤ k.code ∧ k.code ≤ 15 ↔
      k = .brs ∨ k = .esi ∨ k = .dlc ∨ k = .data ∨ k = .stuffCount ∨ k = .stuffParity ∨ k = .crc := by
  cases k <;> decide

/-- With bit-rate shift: the BRS bit changes the timing at Phase2, the CRC delimiter changes it back there, and every
other bit has one timing (R174). -/
theorem newBit_length_shifted {sl : Slot} (hf : sl.fdf = true) (hb : sl.brs = true) (k : FieldTag) (v : Level)
    (st : StuffKind) :
    (newBit sl k v st).tqs.length =
      if k = .brs ∧ st = .notStuff then 1 + sl.nbt.prop.toNat + sl.nbt.ph1.toNat + sl.dbt.ph2.toNat
      else if k = .crcDelimiter then 1 + sl.dbt.prop.toNat + sl.dbt.ph1.toNat + sl.nbt.ph2.toNat
      else if 9 ≤ k.code ∧ k.code ≤ 15 then bitLength sl.dbt
      else bitLength sl.nbt := by
  rw [newBit_length]
  simp only [phaseTiming_eq, hf, hb, true_and, tag_between_iff]
  by_cases hbrs : k = .brs
  · by_cases hst : st = .notStuff <;> simp [hbrs, hst, bitLength]
  · by_cases hdel : k = .crcDelimiter
    · simp [hdel]
    · simp only [hbrs, hdel, false_and, false_or, if_false]
      split <;> rfl

/-- Settles O45: what a fresh bit has, phase by phase, with the timing that R171 gives the phase. -/
theorem newBitTimingSum : Obligations.NewBitTimingSum := by
  intro sl k v st
  refine ⟨⟨rfl, rfl, rfl⟩, newBit_ordered sl k v st, newBit_cycles sl k v st, fun ph tm htm => ?_, fun h => ?_,
    fun hf hb => newBit_length_shifted hf hb k v st⟩
  · obtain rfl : tm = phaseTiming sl k st ph := htm.trans (phaseTiming_eq sl k st ph).symm
    exact ⟨newBit_pbrp sl k v st ph, newBit_count sl k v st ph⟩
  · rw [newBit_length]
    simp only [phaseTiming_nominal h, bitLength]

end Sys2Proof.Machine
end

section
/-! SUPPORT. The commands on one bit (spec/42_bit_ops.md): the bit that the prologue R210 selects and what each command
makes of it, the quanta that shortening and lengthening leave, and the commands on a slot never built. -/

namespace Sys2Proof.Machine

/-! ## Slots never built (R384 step 3) -/

/-- Settles O17: the prologue on a slot stands first in every command that reads one, and APPEND_FRAME has it twice. -/
theorem unbuiltSlotRaisesInvalidSlot : Obligations.UnbuiltSlotRaisesInvalidSlot := by
  intro i s ix hw hm hv
  cases i
  case build | randomize => exact absurd hm List.not_mem_nil
  case appendFrame dst src =>
    change Host.Outcome.next (withSlot dst s _) = _
    cases hd : (s.slot dst).valid with
    | false => exact congrArg _ (withSlot_invalid dst s _ hd)
    | true =>
      have hsrc : ix = src := by
        rcases List.mem_pair.1 hm with rfl | rfl
        · exact absurd (hd.symm.trans hv) (by decide)
        · rfl
      subst hsrc
      rw [withSlot_valid dst s _ hd]
      exact congrArg _ (withSlot_invalid ix s _ hv)
  case getNumStuffBits slot sk val =>
    obtain rfl := List.mem_singleton.1 hm
    have hsk : ¬(sk == .notStuff) = true := by simpa [Instr.WellFormed, Instr.wellFormed] using hw
    exact congrArg Host.Outcome.next ((if_neg hsk).trans (query_invalid _ hv))
  case clone | getRandomBit | getRandomBitOf =>
    obtain rfl := List.mem_singleton.1 hm
    exact congrArg Host.Outcome.next (withSlot_invalid ix s _ hv)
  case getCrc | getBitOf | getBitOfNoStuff | getStuffBit | getFixedStuffBit | getBitIndex | getFieldLength | getLength
      | readBit | readPhaseLen | qzLength | qzRead =>
    obtain rfl := List.mem_singleton.1 hm
    exact congrArg Host.Outcome.next (query_invalid _ hv)
  all_goals
    obtain rfl := List.mem_singleton.1 hm
    exact congrArg Host.Outcome.next (edit_invalid _ hv)

/-! ## The selected bit (R210) -/

/-- Slot `ix` is built and the selector with ARG0 names its bit `b` at position `i`: what the prologue R210 finds. -/
structure SelectsBit (s : State) (ix : SlotIx) (sel : BitSel) (i : Nat) (b : FrameBit) : Prop where
  valid : (s.slot ix).valid = true
  position : selectBit (s.slot ix).bits sel s.arg0.toNat false = .ok i
  bit : (s.slot ix).bits[i]? = some b

theorem selectsBit_of_selects {s : State} {ix : SlotIx} {sel : BitSel} {i : Nat} {b : FrameBit}
    (hv : (s.slot ix).valid = true) (h : Selects (s.slot ix).bits sel s.arg0.toNat i)
    (hb : (s.slot ix).bits[i]? = some b) : SelectsBit s ix sel i b :=
  ⟨hv, selectBit_of_selects h false, hb⟩

/-- No selector error is `fail OK` (R115). -/
theorem selectBit_ne_fail_ok (bits : List FrameBit) (sel : BitSel) (arg : Nat) (allowEnd : Bool) :
    selectBit bits sel arg allowEnd ≠ .error (.fail .ok) := by
  cases sel <;> simp only [selectBit] <;> split <;> simp

/-- The prologue R210 finds a bit, or it ends every command on one bit with the same error. -/
theorem selectsBit_or_halt (s : State) (ix : SlotIx) (sel : BitSel) :
    (∃ i b, SelectsBit s ix sel i b) ∨ ∃ e : Halt, e ≠ .fail .ok ∧ ∀ f, editBit ix sel f s = halt e s := by
  cases hv : (s.slot ix).valid with
  | false => exact .inr ⟨.fatal .invalidSlot, nofun, fun f => edit_invalid _ hv⟩
  | true =>
    cases hs : selectBit (s.slot ix).bits sel s.arg0.toNat false with
    | error e =>
      exact .inr ⟨e, fun he => selectBit_ne_fail_ok _ _ _ _ (he ▸ hs), fun f => edit_error hv (atBit_error _ hs)⟩
    | ok i =>
      have hi : i < (s.slot ix).bits.length := (selectBit_lt hs).resolve_right nofun
      exact .inl ⟨i, _, hv, hs, List.getElem?_eq_getElem hi⟩

/-- A halt that is not `fail OK` shows in STATUS (R12). -/
theorem halt_code_or_fatal {e : Halt} (he : e ≠ .fail .ok) (s : State) :
    (halt e s).code ≠ .ok ∨ (halt e s).fatal ≠ none := by
  cases e with
  | fail c => exact .inl fun hc => he (congrArg Halt.fail hc)
  | fatal f => exact .inr nofun

/-! ## The selected bit after an edit of it -/

theorem nth_map {α β : Type} (p : β → Bool) (f : α → β) (l : List α) (n : Nat) :
    nth p (l.map f) n = nth (fun x => p (f x)) l n := by
  induction l generalizing n with
  | nil => rfl
  | cons a l ih => cases hp : p (f a) <;> cases n <;> simp [nth, hp, ih]

/-- The selector sees only the number of bits and their tags (R115). -/
theorem selectBit_congr {bits bits' : List FrameBit} (h : bits'.map (·.kind) = bits.map (·.kind)) (sel : BitSel)
    (arg : Nat) (allowEnd : Bool) : selectBit bits' sel arg allowEnd = selectBit bits sel arg allowEnd := by
  cases sel with
  | index =>
    have hl : bits'.length = bits.length := by simpa using congrArg List.length h
    simp only [selectBit, hl]
  | typed t => simp only [selectBit, ← nth_map (· == t) FrameBit.kind, h]

theorem map_kind_set {bits : List FrameBit} {i : Nat} {b c : FrameBit} (hb : bits[i]? = some b)
    (hk : c.kind = b.kind) : (bits.set i c).map (·.kind) = bits.map (·.kind) := by
  obtain ⟨hi, rfl⟩ := List.getElem?_eq_some_iff.1 hb
  rw [List.map_set, hk, ← List.getElem_map FrameBit.kind (h := by simpa using hi), List.set_getElem_self]

/-- After an edit of the selected bit that keeps its tag, the same selector names the edited bit. -/
theorem SelectsBit.set {s : State} {ix : SlotIx} {sel : BitSel} {i : Nat} {b c : FrameBit}
    (h : SelectsBit s ix sel i b) (t : State) (hk : c.kind = b.kind) (ha : t.arg0 = s.arg0)
    (ht : t.slot ix = { s.slot ix with bits := (s.slot ix).bits.set i c }) : SelectsBit t ix sel i c := by
  obtain ⟨hv, hs, hb⟩ := h
  refine ⟨ht ▸ hv, ?_, ?_⟩
  · rw [ht, ha, selectBit_congr (map_kind_set hb hk), hs]
  · rw [ht, List.getElem?_set_self (List.getElem?_eq_some_iff.1 hb).1]

/-- An edit of one bit leaves every other bit of the slot. -/
theorem bits_getElem?_of_ne {s t : State} {ix : SlotIx} {i j : Nat} {c : FrameBit}
    (ht : t.slot ix = { s.slot ix with bits := (s.slot ix).bits.set i c }) (hj : j ≠ i) :
    (t.slot ix).bits[j]? = (s.slot ix).bits[j]? := by
  rw [ht, List.getElem?_set_ne hj.symm]

/-- The slot that an edit leaves. -/
theorem edited_slot (s : State) (ix : SlotIx) (bits : List FrameBit) :
    (edited s ix bits).slot ix = { s.slot ix with bits := bits } :=
  setSlot_slot_same s ix _

/-- The edited bit stands where the selector found the old one. -/
theorem SelectsBit.edited_bit {s : State} {ix : SlotIx} {sel : BitSel} {i : Nat} {b : FrameBit}
    (h : SelectsBit s ix sel i b) (c : FrameBit) :
    ((edited s ix ((s.slot ix).bits.set i c)).slot ix).bits[i]? = some c := by
  rw [edited_slot, List.getElem?_set_self (List.getElem?_eq_some_iff.1 h.bit).1]

/-- Of two edits of one slot the second stands. -/
theorem edited_edited (s : State) (ix : SlotIx) (bits bits' : List FrameBit) :
    edited (edited s ix bits) ix bits' = edited s ix bits' := by
  change succeed ((s.setSlot ix _).setSlot ix { (s.setSlot ix _).slot ix with bits := bits' }) = _
  rw [setSlot_setSlot, setSlot_slot_same]
  rfl

theorem edited_self (s : State) (ix : SlotIx) : edited s ix (s.slot ix).bits = { s with code := .ok } :=
  congrArg succeed (setSlot_self s ix)

/-! ## What each command makes of the selected bit (R220 to R225) -/

section
variable {s : State} {ix : SlotIx} {sel : BitSel} {i : Nat} {b : FrameBit}

theorem SelectsBit.editBit_bit (h : SelectsBit s ix sel i b) {f : FrameBit → Except Halt BitEdit} {c : FrameBit}
    (hf : f b = .ok { bit := c }) : editBit ix sel f s = edited s ix ((s.slot ix).bits.set i c) :=
  editBit_ok h.valid h.position h.bit hf

theorem SelectsBit.editBit_reply (h : SelectsBit s ix sel i b) {f : FrameBit → Except Halt BitEdit} {c : FrameBit}
    {v : Word} (hf : f b = .ok { bit := c, reply := some v }) :
    editBit ix sel f s = answered (edited s ix ((s.slot ix).bits.set i c)) v :=
  editBit_ok h.valid h.position h.bit hf

theorem SelectsBit.editBit_fatal (h : SelectsBit s ix sel i b) {f : FrameBit → Except Halt BitEdit} {c : FatalCause}
    (hf : f b = .error (.fatal c)) : editBit ix sel f s = { s with fatal := some c } :=
  editBit_error h.valid h.position h.bit hf

theorem exec_flipBit (h : SelectsBit s ix sel i b) :
    exec (.flipBit ix sel) s = .next (edited s ix ((s.slot ix).bits.set i { b with val := b.val.flip })) :=
  congrArg _ (h.editBit_bit rfl)

theorem exec_setBitValue (h : SelectsBit s ix sel i b) (v : Level) :
    exec (.setBitValue ix sel v) s = .next (edited s ix ((s.slot ix).bits.set i { b with val := v })) :=
  congrArg _ (h.editBit_bit rfl)

theorem exec_setStuffKind (h : SelectsBit s ix sel i b) (k : StuffKind) :
    exec (.setStuffKind ix sel k) s = .next (edited s ix ((s.slot ix).bits.set i { b with stuff := k })) :=
  congrArg _ (h.editBit_bit rfl)

theorem exec_shortenPhase (h : SelectsBit s ix sel i b) (ph : Phase) :
    exec (.shortenPhase ix sel ph) s = .next (answered
      (edited s ix ((s.slot ix).bits.set i { b with tqs := shortenQuanta b.tqs ph s.arg1.toNat }))
      (BitVec.ofNat 32 (shortenResidual b.tqs ph s.arg1.toNat))) :=
  congrArg _ (h.editBit_reply rfl)

theorem exec_lengthenPhase (h : SelectsBit s ix sel i b) (ph : Phase)
    (hn : b.tqs.length + s.arg1.toNat ≤ s.cfg.capTq) :
    exec (.lengthenPhase ix sel ph) s = .next (edited s ix ((s.slot ix).bits.set i
      { b with tqs := lengthenQuanta b.tqs b.pbrp ph s.arg1.toNat })) :=
  congrArg _ (h.editBit_bit (if_neg (Nat.not_lt.2 hn)))

theorem exec_lengthenPhase_capacity (h : SelectsBit s ix sel i b) (ph : Phase)
    (hn : s.cfg.capTq < b.tqs.length + s.arg1.toNat) :
    exec (.lengthenPhase ix sel ph) s = .next { s with fatal := some .capacityExceeded } :=
  congrArg _ (h.editBit_fatal (if_pos hn))

theorem exec_forceTq (h : SelectsBit s ix sel i b) {pf : Option Phase} {j : Nat}
    (hj : forcedIndex b.tqs pf s.arg1.toNat = some j) (v : Level) :
    exec (.forceTq ix sel pf v) s = .next (edited s ix ((s.slot ix).bits.set i
      { b with tqs := b.tqs.modify j (TimeQuantum.force v) })) :=
  congrArg _ (h.editBit_bit (by simp only [hj]))

theorem exec_forceTq_beyond (h : SelectsBit s ix sel i b) {pf : Option Phase}
    (hj : forcedIndex b.tqs pf s.arg1.toNat = none) (v : Level) :
    exec (.forceTq ix sel pf v) s = .next { s with fatal := some .indexOutOfRange } :=
  congrArg _ (h.editBit_fatal (by simp only [hj]))

end

/-! ## Value and classification (R220 to R222, R226) -/

theorem level_flip_eq (v : Level) : v.flip = if v = .dominant then .recessive else .dominant := by cases v <;> rfl

@[simp] theorem level_flip_flip (v : Level) : v.flip.flip = v := by cases v <;> rfl

/-- Settles O33: each of the three commands puts the changed bit back where it was selected. -/
theorem valueAndLabelEdits : Obligations.ValueAndLabelEdits := by
  intro s ix sel i b hv hs hb
  have h := selectsBit_of_selects hv hs hb
  exact ⟨level_flip_eq b.val ▸ exec_flipBit h, exec_setBitValue h, exec_setStuffKind h⟩

/-- Settles O34: the first flip found a bit, for an error would show in STATUS; the second finds the same bit, and
flipping it again gives back the slot's bits. -/
theorem flipTwiceIsTheIdentity : Obligations.FlipTwiceIsTheIdentity := by
  intro s t u ix sel ht hcode hfatal hu
  obtain ⟨i, b, h⟩ | ⟨e, he, hall⟩ := selectsBit_or_halt s ix sel
  · obtain rfl := Host.Outcome.next.inj ((exec_flipBit h).symm.trans ht)
    have h' := h.set (c := { b with val := b.val.flip }) (edited s ix _) rfl rfl (edited_slot s ix _)
    obtain rfl := Host.Outcome.next.inj ((exec_flipBit h').symm.trans hu)
    have hback : (s.slot ix).bits.set i b = (s.slot ix).bits := by
      obtain ⟨hi, rfl⟩ := List.getElem?_eq_some_iff.1 h.bit
      exact List.set_getElem_self hi
    simp only [edited_slot, level_flip_flip, List.set_set]
    rw [edited_edited, hback, edited_self]
  · obtain rfl := Host.Outcome.next.inj ((congrArg _ (hall _)).symm.trans ht)
    exact ((halt_code_or_fatal he s).elim (· hcode) (· hfatal)).elim

/-! ## Phase resizing (R223, R224, R226) -/

theorem phase_beq (ph : Phase) : (fun q : TimeQuantum => q.phase == ph) = fun q => decide (q.phase = ph) := by
  funext q
  exact beq_eq_decide _ _

/-- Settles O35: what `keepFirst` keeps of the phase, of the other phases, and of the order. -/
theorem shortenPhaseRemovesTheLastQuanta : Obligations.ShortenPhaseRemovesTheLastQuanta := by
  intro s ix sel ph i b hv hs hb
  have hexec := exec_shortenPhase (selectsBit_of_selects hv hs hb) ph
  simp only [shortenResidual, shortenQuanta, phase_beq, List.countP_eq_length_filter] at hexec
  refine ⟨_, hexec, keepFirst_filter _ _ _, ?_, keepFirst_sublist _ _ _⟩
  simpa only [decide_not] using keepFirst_filter_not (fun q : TimeQuantum => decide (q.phase = ph)) _ b.tqs

theorem filter_take_drop {α : Type} (p : α → Bool) (n : Nat) (l : List α) :
    l.filter p = (l.take n).filter p ++ (l.drop n).filter p := by
  rw [← List.filter_append, List.take_append_drop]

/-- In phase order, no quantum of a phase stands after the phase's end (R224). -/
theorem filter_drop_phaseEnd {tqs : List TimeQuantum} (h : PhaseOrdered tqs) (ph : Phase) :
    ((tqs.drop (phaseEnd tqs ph)).filter fun q => decide (q.phase = ph)) = [] := by
  refine List.filter_eq_nil_iff.2 fun q hq hp => ?_
  have hlt := (phaseEnd_split h ph).2 q hq
  rw [of_decide_eq_true hp] at hlt
  exact lt_irrefl _ hlt

/-- In phase order, the fresh quanta follow those of their phase (R224). -/
theorem lengthenQuanta_filter {tqs : List TimeQuantum} (h : PhaseOrdered tqs) (pbrp : Prescalers) (ph : Phase)
    (n : Nat) : ((lengthenQuanta tqs pbrp ph n).filter fun q => decide (q.phase = ph)) =
      (tqs.filter fun q => decide (q.phase = ph)) ++
        List.replicate n { phase := ph, cycles := List.replicate (pbrp.get ph).toNat none } := by
  rw [filter_take_drop _ (phaseEnd tqs ph) tqs]
  simp [lengthenQuanta, filter_drop_phaseEnd h]

/-- The quanta of the other phases stay (R224). -/
theorem lengthenQuanta_filter_ne (tqs : List TimeQuantum) (pbrp : Prescalers) (ph : Phase) (n : Nat) :
    ((lengthenQuanta tqs pbrp ph n).filter fun q => decide (q.phase ≠ ph)) =
      tqs.filter fun q => decide (q.phase ≠ ph) := by
  rw [filter_take_drop _ (phaseEnd tqs ph) tqs]
  simp [lengthenQuanta]

/-- Settles O36: the fresh quanta stand at the phase's end, where the order puts them behind the phase's own. -/
theorem lengthenPhaseAddsFreshQuanta : Obligations.LengthenPhaseAddsFreshQuanta := by
  intro s ix sel ph i b hv hs hb
  have h := selectsBit_of_selects hv hs hb
  exact ⟨exec_lengthenPhase_capacity h ph, fun hn hord => ⟨_, exec_lengthenPhase h ph hn,
    lengthenQuanta_filter hord _ _ _, lengthenQuanta_filter_ne _ _ _ _, lengthenQuanta_ordered hord _ _ _⟩⟩

/-- What `keepFirst` removes are the later elements satisfying `p`. -/
theorem keepFirst_perm {α : Type} (p : α → Bool) (k : Nat) (l : List α) :
    (keepFirst p k l ++ (l.filter p).drop k).Perm l := by
  induction l generalizing k with
  | nil => simp [keepFirst]
  | cons x xs ih =>
    cases hp : p x with
    | false => simpa [keepFirst, hp] using ih k
    | true =>
      cases k with
      | zero => simpa [keepFirst, hp] using List.perm_middle.trans ((ih 0).cons x)
      | succ k => simpa [keepFirst, hp] using ih k

/-- Shortening takes `min n (length)` quanta of the phase and no other, whatever their order (R223). -/
theorem shortenQuanta_phases (tqs : List TimeQuantum) (ph : Phase) (n : Nat) :
    ((shortenQuanta tqs ph n).map (·.phase) ++
      List.replicate (min n (tqs.countP fun q => q.phase == ph)) ph).Perm (tqs.map (·.phase)) := by
  have hgone : (((tqs.filter fun q => q.phase == ph).drop ((tqs.countP fun q => q.phase == ph) - n)).map (·.phase)) =
      List.replicate (min n (tqs.countP fun q => q.phase == ph)) ph := by
    refine List.eq_replicate_iff.2 ⟨?_, fun p hp => ?_⟩
    · rw [List.length_map, List.length_drop, List.countP_eq_length_filter]
      omega
    · obtain ⟨q, hq, rfl⟩ := List.mem_map.1 hp
      exact beq_iff_eq.1 (List.mem_filter.1 (List.mem_of_mem_drop hq)).2
  rw [← hgone, ← List.map_append]
  exact (keepFirst_perm _ _ tqs).map _

/-- Lengthening adds `n` quanta of the phase, whatever the order of the others (R224). -/
theorem lengthenQuanta_phases (tqs : List TimeQuantum) (pbrp : Prescalers) (ph : Phase) (n : Nat) :
    ((lengthenQuanta tqs pbrp ph n).map (·.phase)).Perm (tqs.map (·.phase) ++ List.replicate n ph) := by
  have hperm : (lengthenQuanta tqs pbrp ph n).Perm
      (tqs ++ List.replicate n { phase := ph, cycles := List.replicate (pbrp.get ph).toNat none }) := by
    conv_rhs => rw [← List.take_append_drop (phaseEnd tqs ph) tqs]
    rw [lengthenQuanta, List.append_assoc, List.append_assoc]
    exact List.perm_append_comm.append_left _
  simpa using hperm.map (·.phase)

theorem phase_count_eq (tqs : List TimeQuantum) (p : Phase) :
    (tqs.filter fun q => decide (q.phase = p)).length = (tqs.map (·.phase)).count p := by
  rw [← phase_beq, ← List.countP_eq_length_filter, List.count, List.countP_map]
  rfl

/-- A word less its excess over `m` is `m`. -/
theorem sub_excess_toNat {n : Word} {m : Nat} (hm : m ≤ n.toNat) : (n - BitVec.ofNat 32 (n.toNat - m)).toNat = m := by
  have hn := n.isLt
  rw [BitVec.toNat_sub, BitVec.toNat_ofNat]
  omega

/-- What LENGTHEN_PHASE asks for after SHORTEN_PHASE by ARG1: ARG1 less the residual, on the shortened bit. -/
theorem exec_shortenPhase_leaves {s t : State} {ix : SlotIx} {sel : BitSel} {i : Nat} {b : FrameBit} {ph : Phase}
    (h : SelectsBit s ix sel i b) (ht : exec (.shortenPhase ix sel ph) s = .next t) :
    SelectsBit { t with arg1 := s.arg1 - t.result } ix sel i { b with tqs := shortenQuanta b.tqs ph s.arg1.toNat } ∧
      (s.arg1 - t.result).toNat = min s.arg1.toNat (b.tqs.countP fun q => q.phase == ph) ∧
      t.cfg = s.cfg ∧ t.fatal = s.fatal ∧ ∀ j, j ≠ i → (t.slot ix).bits[j]? = (s.slot ix).bits[j]? := by
  obtain rfl := Host.Outcome.next.inj ((exec_shortenPhase h ph).symm.trans ht)
  exact ⟨h.set _ rfl rfl (edited_slot s ix _), sub_excess_toNat (min_le_left _ _), rfl, rfl,
    fun j hj => bits_getElem?_of_ne (edited_slot s ix _) hj⟩

/-- LENGTHEN_PHASE by ARG1 completes where CAP_TQ allows it, and adds ARG1 quanta of the phase and no other. -/
theorem exec_lengthenPhase_leaves {s t : State} {ix : SlotIx} {sel : BitSel} {i : Nat} {b : FrameBit} {ph : Phase}
    (h : SelectsBit s ix sel i b) (hn : b.tqs.length + s.arg1.toNat ≤ s.cfg.capTq)
    (ht : exec (.lengthenPhase ix sel ph) s = .next t) :
    t.code = .ok ∧ t.fatal = s.fatal ∧
      (∃ c : FrameBit, (t.slot ix).bits[i]? = some c ∧
        (c.tqs.map (·.phase)).Perm (b.tqs.map (·.phase) ++ List.replicate s.arg1.toNat ph)) ∧
      ∀ j, j ≠ i → (t.slot ix).bits[j]? = (s.slot ix).bits[j]? := by
  obtain rfl := Host.Outcome.next.inj ((exec_lengthenPhase h ph hn).symm.trans ht)
  exact ⟨rfl, rfl, ⟨_, h.edited_bit _, lengthenQuanta_phases b.tqs b.pbrp ph _⟩,
    fun j hj => bits_getElem?_of_ne (edited_slot s ix _) hj⟩

/-- Settles O37: the second command adds as many quanta of the phase as the first took from the same bit; they fit
because they did before. -/
theorem shortenThenLengthenRestoresTheCounts : Obligations.ShortenThenLengthenRestoresTheCounts := by
  intro s t u ix sel ph i b hf hv hs hb hcap ht hu
  obtain ⟨hshort, hn, hcfg, hft, hot⟩ := exec_shortenPhase_leaves (selectsBit_of_selects hv hs hb) ht
  have hphases := shortenQuanta_phases b.tqs ph s.arg1.toNat
  rw [← hn] at hphases
  have hlen : (shortenQuanta b.tqs ph s.arg1.toNat).length + (s.arg1 - t.result).toNat = b.tqs.length := by
    simpa using hphases.length_eq
  obtain ⟨hcode, hfu, ⟨c, hc, hadd⟩, hou⟩ := exec_lengthenPhase_leaves hshort (by rw [hlen, hcfg]; exact hcap) hu
  refine ⟨hcode, hfu.trans (hft.trans hf), ⟨c, hc, fun p => ?_⟩, fun j hj => (hou j hj).trans (hot j hj)⟩
  rw [phase_count_eq, phase_count_eq]
  exact (hadd.trans hphases).count_eq p

/-! ## Forcing a quantum (R225) -/

theorem forcedIndex_eq_some {tqs : List TimeQuantum} {pf : Option Phase} {n j : Nat} (hj : j < tqs.length)
    (h : (pf = none ∧ j = n) ∨ ∃ p, pf = some p ∧ IsNth (fun q : TimeQuantum => q.phase = p) tqs n j) :
    forcedIndex tqs pf n = some j := by
  obtain ⟨rfl, rfl⟩ | ⟨p, rfl, hp⟩ := h
  · exact if_pos hj
  · simpa only [forcedIndex, phase_beq] using nth_of_isNth hp

/-- Overriding the quantum at a position (R43). -/
theorem modify_force {tqs : List TimeQuantum} {j : Nat} {q : TimeQuantum} (hq : tqs[j]? = some q) (v : Level) :
    tqs.modify j (TimeQuantum.force v) =
      tqs.set j { q with cycles := List.replicate q.cycles.length (some v) } := by
  rw [List.modify_eq_set_getElem?, hq]
  simp [TimeQuantum.force]

/-- Settles O38: the quantum index found is the statement's, and a search misses where the phase has no more quanta. -/
theorem forceTqOverridesOneQuantum : Obligations.ForceTqOverridesOneQuantum := by
  intro s ix sel v i b hv hs hb
  have h := selectsBit_of_selects hv hs hb
  refine ⟨fun pf j q hq hj => ?_, fun hn => ?_, fun p hn => ?_⟩
  · rw [← modify_force hq]
    exact exec_forceTq h (forcedIndex_eq_some (List.getElem?_eq_some_iff.1 hq).1 hj) v
  · exact exec_forceTq_beyond (pf := none) h (if_neg (Nat.not_lt.2 hn)) v
  · refine exec_forceTq_beyond (pf := some p) h ((nth_eq_none _ _ _).2 ?_) v
    rwa [phase_beq, List.countP_eq_length_filter]

end Sys2Proof.Machine
end

section
/-! SUPPORT. What every command leaves of the slots (spec/43_bitframe_build.md R264, spec/44_lookup.md R302,
spec/10_state.md R40), and what CLONE and APPEND_FRAME leave (R267, spec/45_surgery.md R344). -/

namespace Sys2Proof.Machine

/-! ## The slot frame (R264, R40) -/

/-- From `s` to `t` no slot but `target` changed, and of that one nothing but its bits. -/
structure KeepsSlots (target : Option SlotIx) (s t : State) : Prop where
  others : ∀ ix, target ≠ some ix → t.slot ix = s.slot ix
  copies : ∀ ix, t.slot ix = { s.slot ix with bits := (t.slot ix).bits }

section
variable {target : Option SlotIx}

theorem slot_congr {s t : State} (h : t.slots = s.slots) (ix : SlotIx) : t.slot ix = s.slot ix :=
  congrArg (fun slots : Vector Slot 4 => slots[ix]) h

theorem keepsSlots_of_slots {s t : State} (h : t.slots = s.slots) : KeepsSlots target s t :=
  ⟨fun ix _ => slot_congr h ix, fun ix => by rw [slot_congr h]⟩

theorem halt_slots (e : Halt) (s : State) : (halt e s).slots = s.slots := by cases e <;> rfl

theorem query_slots (ix : SlotIx) (f : Slot → Except Halt Word) (s : State) : (query ix f s).slots = s.slots := by
  obtain ⟨-, h⟩ | ⟨v, -, -, h⟩ | ⟨e, -, -, h⟩ := query_cases ix f s <;> rw [h]
  · rfl
  · rfl
  · exact halt_slots e s

theorem randomBit_slots (o : Nat → Nat) (ix : SlotIx) (p : FrameBit → Bool) (s : State) :
    (randomBit o ix p s).slots = s.slots := by
  obtain ⟨-, h⟩ | ⟨-, -, h⟩ | ⟨i, n, -, -, h⟩ := randomBit_cases o ix p s <;> rw [h] <;> rfl

theorem randomizeWith_slots (o : Nat → Nat) (s : State) : (randomizeWith o s).slots = s.slots := by
  obtain ⟨_, _, _, _, _, _, h⟩ := randomizeWith_frame o s
  rw [h]

theorem commit_slots (ix : SlotIx) (sl : Slot) (e : Edit) (s : State) :
    (commit ix sl e s).slots = (s.setSlot ix { sl with bits := e.bits }).slots := by
  obtain ⟨bits, reply⟩ := e
  cases reply <;> rfl

/-- A replaced slot leaves the others. -/
theorem slot_eq_of_setSlot {s t : State} {ix jx : SlotIx} {sl : Slot} (h : t.slots = (s.setSlot ix sl).slots)
    (hj : some ix ≠ some jx) : t.slot jx = s.slot jx :=
  (slot_congr h jx).trans (setSlot_slot_ne s ix jx sl fun e => hj (congrArg some e.symm))

/-- New bits in a slot leave the other slots, and the copies of that one. -/
theorem keepsSlots_of_setBits {s t : State} {ix : SlotIx} {bits : List FrameBit}
    (h : t.slots = (s.setSlot ix { s.slot ix with bits := bits }).slots) : KeepsSlots (some ix) s t := by
  refine ⟨fun jx hj => slot_eq_of_setSlot h hj, fun jx => ?_⟩
  rw [slot_congr h, setSlot_slot]
  split
  · subst jx; rfl
  · rfl

theorem edit_keepsSlots (ix : SlotIx) (f : Slot → Except Halt Edit) (s : State) :
    KeepsSlots (some ix) s (edit ix f s) := by
  obtain ⟨-, h⟩ | ⟨e, -, -, h⟩ | ⟨e, -, -, h⟩ := edit_cases ix f s <;> rw [h]
  · exact keepsSlots_of_slots rfl
  · exact keepsSlots_of_setBits (commit_slots ix _ e s)
  · exact keepsSlots_of_slots (halt_slots e s)

theorem withSlot_keepsSlots {ix : SlotIx} {s : State} {k : Slot → State}
    (hk : KeepsSlots target s (k (s.slot ix))) : KeepsSlots target s (withSlot ix s k) := by
  cases hv : (s.slot ix).valid with
  | false => exact withSlot_invalid ix s k hv ▸ keepsSlots_of_slots rfl
  | true => exact withSlot_valid ix s k hv ▸ hk

end

/-- Everything BUILD can do (R263). -/
theorem buildInto_cases (dst : SlotIx) (s : State) :
    (∃ c, buildCheck s = some c ∧ buildInto dst s = fail c s) ∨
    (buildCheck s = none ∧ s.cfg.capBits < (builtSlot s).bits.length ∧
      buildInto dst s = raiseFatal .capacityExceeded s) ∨
    (buildCheck s = none ∧ (builtSlot s).bits.length ≤ s.cfg.capBits ∧
      buildInto dst s = succeed (s.setSlot dst (builtSlot s))) := by
  unfold buildInto
  cases hc : buildCheck s with
  | some c => exact .inl ⟨c, rfl, rfl⟩
  | none =>
    by_cases hl : s.cfg.capBits < (builtSlot s).bits.length
    · exact .inr (.inl ⟨rfl, hl, if_pos hl⟩)
    · exact .inr (.inr ⟨rfl, Nat.le_of_not_lt hl, if_neg hl⟩)

theorem buildInto_slot_of_ne {dst ix : SlotIx} (s : State) (h : some dst ≠ some ix) :
    (buildInto dst s).slot ix = s.slot ix := by
  obtain ⟨c, -, he⟩ | ⟨-, -, he⟩ | ⟨-, -, he⟩ := buildInto_cases dst s <;> rw [he]
  · rfl
  · rfl
  · exact slot_eq_of_setSlot rfl h

/-- The slot frame of every command but BUILD and CLONE, which replace the whole slot. -/
theorem exec_keepsSlots {i : Instr} {s t : State} (hb : ∀ d, i ≠ .build d) (hc : ∀ d c, i ≠ .clone d c)
    (h : exec i s = .next t) : KeepsSlots (targetOf i) s t := by
  cases i <;> injection h with h <;> subst h
  case build d => exact absurd rfl (hb d)
  case clone d c => exact absurd rfl (hc d c)
  case randomize => exact keepsSlots_of_slots (randomizeWith_slots _ s)
  case getNumStuffBits ix sk vf =>
    split
    · exact keepsSlots_of_slots rfl
    · exact keepsSlots_of_slots (query_slots ix _ s)
  case getRandomBit | getRandomBitOf => exact keepsSlots_of_slots (randomBit_slots _ _ _ s)
  case getCrc | getBitOf | getBitOfNoStuff | getStuffBit | getFixedStuffBit | getBitIndex | getFieldLength | getLength
      | readBit | readPhaseLen | qzLength | qzRead => exact keepsSlots_of_slots (query_slots _ _ s)
  case appendFrame => exact withSlot_keepsSlots (withSlot_keepsSlots (edit_keepsSlots _ _ s))
  all_goals exact edit_keepsSlots _ _ s

/-- Settles O21: BUILD and CLONE replace one slot, and every other command at most gives its slot new bits. -/
theorem commandsChangeOnlyTheirSlot : Obligations.CommandsChangeOnlyTheirSlot := by
  intro i s t h
  refine ⟨fun ix hix => ?_, fun ix hb hc => (exec_keepsSlots hb hc h).copies ix⟩
  cases i
  case build d =>
    obtain rfl := Host.Outcome.next.inj h
    exact buildInto_slot_of_ne s hix
  case clone d c =>
    obtain rfl := Host.Outcome.next.inj h
    cases hv : (s.slot c).valid with
    | false => rw [withSlot_invalid c s _ hv]; rfl
    | true => rw [withSlot_valid c s _ hv]; exact slot_eq_of_setSlot rfl hix
  all_goals exact (exec_keepsSlots (by simp) (by simp) h).others ix hix

/-! ## CLONE and APPEND_FRAME (R267, R344) -/

/-- An edit whose new bits fit leaves the slot with them (R329, R383). -/
theorem edit_fitBits {ix : SlotIx} {s : State} {f : Slot → List FrameBit} (hv : (s.slot ix).valid = true)
    (hl : (f (s.slot ix)).length ≤ s.cfg.capBits) :
    edit ix (fun sl => fitBits s.cfg (f sl)) s = edited s ix (f (s.slot ix)) :=
  edit_ok (e := { bits := f (s.slot ix) }) hv (fitBits_ok hl)

/-- Settles O43: each prologue finds its slot built. -/
theorem cloneAndAppendFrame : Obligations.CloneAndAppendFrame := by
  intro s dst src hsrc
  refine ⟨congrArg Host.Outcome.next (withSlot_valid src s _ hsrc), fun hdst hl => congrArg Host.Outcome.next ?_⟩
  rw [withSlot_valid dst s _ hdst, withSlot_valid src s _ hsrc]
  exact edit_fitBits (f := fun sl => sl.bits ++ (s.slot src).bits) hdst (List.length_append.trans_le hl)

end Sys2Proof.Machine
end

section
/-! SUPPORT. BUILD's checks in their order (spec/43_bitframe_build.md R262, spec/40_frame_descriptor.md R141), what a
BUILD or an UPDATE that completed leaves (R263, R265), and the number that GET_CRC answers (R257, R258, R270). -/

namespace Sys2Proof.Machine

/-! ## BUILD's checks (R141, R262) -/

theorem descCheck_flagCombination {fdf rtr : Bool} (hf : fdf = true) (hr : rtr = true) (ide : Bool) (id : BitVec 29)
    (dlc : BitVec 4) : descCheck fdf ide rtr id dlc = some .invalidFlagCombination := by
  simp [descCheck, hf, hr]

/-- With a legal flag combination, an identifier or a DLC out of range is an invalid frame. -/
theorem descCheck_frame {fdf ide rtr : Bool} {id : BitVec 29} {dlc : BitVec 4} (hf : ¬(fdf = true ∧ rtr = true))
    (h : (ide = false ∧ 0x7FF < id.toNat) ∨ (fdf = false ∧ 8 < dlc.toNat)) :
    descCheck fdf ide rtr id dlc = some .invalidFrame := by
  rw [descCheck, if_neg (by simpa using hf)]
  obtain ⟨hi, hid⟩ | ⟨hn, hd⟩ := h
  · exact if_pos (by simp [hi, hid])
  · rw [if_pos (c := (!fdf && decide (8 < dlc.toNat)) = true) (by simp [hn, hd]), ite_self]

theorem timingCheck_cases (s : State) : timingCheck s = none ∨ timingCheck s = some .invalidTiming := by
  unfold timingCheck
  split
  · exact .inr rfl
  · split
    · exact .inr rfl
    · exact .inl rfl

theorem descCheck_ne_ok (fdf ide rtr : Bool) (id : BitVec 29) (dlc : BitVec 4) :
    descCheck fdf ide rtr id dlc ≠ some .ok := by
  unfold descCheck
  split
  · simp
  · split
    · simp
    · split <;> simp

theorem buildCheck_of_descCheck {s : State} {c : ResultCode}
    (h : descCheck (flagFdf s.flags) (flagIde s.flags) (flagRtr s.flags) s.id s.dlc = some c) :
    buildCheck s = some c := by simp only [buildCheck, h]

theorem buildCheck_of_timingCheck {s : State}
    (h : descCheck (flagFdf s.flags) (flagIde s.flags) (flagRtr s.flags) s.id s.dlc = none) :
    buildCheck s = timingCheck s := by simp only [buildCheck, h]

/-- No check of BUILD is `fail OK`. -/
theorem buildCheck_ne_ok (s : State) : buildCheck s ≠ some .ok := by
  cases hd : descCheck (flagFdf s.flags) (flagIde s.flags) (flagRtr s.flags) s.id s.dlc with
  | some c => rw [buildCheck_of_descCheck hd, ← hd]; exact descCheck_ne_ok _ _ _ _ _
  | none => rw [buildCheck_of_timingCheck hd]; obtain h | h := timingCheck_cases s <;> simp [h]

theorem exec_build_fail {s : State} {c : ResultCode} (d : SlotIx) (h : buildCheck s = some c) :
    exec (.build d) s = .next { s with code := c } :=
  congrArg Host.Outcome.next (by simp only [buildInto, h]; rfl)

/-! ## What BUILD and UPDATE leave (R263, R265)

Both leave a slot whose bits were re-derived: UPDATE that of the slot before it, BUILD that of the slot that holds the
layout's bits. -/

/-- The slot with its bits re-derived (R261). -/
def restuffed (cfg : Config) (sl : Slot) : Slot := { sl with bits := restuff cfg sl }

/-- The slot BUILD re-derives: the copies of the registers and the bits of the layout (R263). -/
def layoutSlot (s : State) : Slot := { freshSlot s with bits := layoutBits (freshSlot s) s.byte }

theorem builtSlot_eq (s : State) : builtSlot s = restuffed s.cfg (layoutSlot s) := rfl

/-- BUILD of legal registers completes where the bits fit (R263, R383). -/
theorem exec_build_ok {s : State} (d : SlotIx) (h : BuildLegal s) (hl : (builtSlot s).bits.length ≤ s.cfg.capBits) :
    exec (.build d) s = .next (succeed (s.setSlot d (builtSlot s))) := by
  refine congrArg Host.Outcome.next ?_
  simp only [buildInto, (buildCheck_eq_none s).2 h]
  exact if_neg (Nat.not_lt.2 hl)

/-- A BUILD of legal registers that raised nothing completed. -/
theorem exec_build_of_legal {s t : State} {d : SlotIx} (h : BuildLegal s) (ht : exec (.build d) s = .next t)
    (hf : t.fatal = none) :
    (builtSlot s).bits.length ≤ s.cfg.capBits ∧ t = succeed (s.setSlot d (builtSlot s)) := by
  obtain rfl := Host.Outcome.next.inj ht
  obtain ⟨c, hc, -⟩ | ⟨-, -, he⟩ | ⟨-, hl, he⟩ := buildInto_cases d s
  · cases hc.symm.trans ((buildCheck_eq_none s).2 h)
  · rw [he] at hf
    cases hf
  · exact ⟨hl, he⟩

/-- A BUILD with CODE = OK that raised nothing completed, and the registers were legal. -/
theorem exec_build_completed {s t : State} {d : SlotIx} (ht : exec (.build d) s = .next t) (hc : t.code = .ok)
    (hf : t.fatal = none) :
    BuildLegal s ∧ (builtSlot s).bits.length ≤ s.cfg.capBits ∧ t = succeed (s.setSlot d (builtSlot s)) := by
  have hlegal : BuildLegal s := by
    refine (buildCheck_eq_none s).1 ?_
    cases hb : buildCheck s with
    | none => rfl
    | some c =>
      obtain rfl := Host.Outcome.next.inj ((exec_build_fail d hb).symm.trans ht)
      exact absurd (hb.trans (congrArg some hc)) (buildCheck_ne_ok s)
  exact ⟨hlegal, exec_build_of_legal hlegal ht hf⟩

/-- UPDATE completes where the new sequence fits (R265, R383). -/
theorem exec_update_ok {s : State} {ix : SlotIx} (hv : (s.slot ix).valid = true)
    (hl : (restuff s.cfg (s.slot ix)).length ≤ s.cfg.capBits) :
    exec (.update ix) s = .next (edited s ix (restuff s.cfg (s.slot ix))) :=
  congrArg Host.Outcome.next (edit_fitBits hv hl)

/-- An UPDATE that raised nothing completed. -/
theorem exec_update_completed {s t : State} {ix : SlotIx} (ht : exec (.update ix) s = .next t) (hf : t.fatal = none) :
    (s.slot ix).valid = true ∧ (restuff s.cfg (s.slot ix)).length ≤ s.cfg.capBits ∧
      t = edited s ix (restuff s.cfg (s.slot ix)) := by
  obtain rfl := Host.Outcome.next.inj ht
  cases hv : (s.slot ix).valid with
  | false =>
    rw [edit_invalid _ hv] at hf
    cases hf
  | true =>
    by_cases hl : (restuff s.cfg (s.slot ix)).length ≤ s.cfg.capBits
    · exact ⟨rfl, hl, edit_fitBits hv hl⟩
    · rw [edit_error hv (fitBits_error (Nat.lt_of_not_le hl))] at hf
      cases hf

theorem edited_restuff_slot (s : State) (ix : SlotIx) (cfg : Config) :
    (edited s ix (restuff cfg (s.slot ix))).slot ix = restuffed cfg (s.slot ix) := edited_slot s ix _

theorem exec_build_slot (s : State) (d : SlotIx) :
    (succeed (s.setSlot d (builtSlot s))).slot d = builtSlot s := setSlot_slot_same s d (builtSlot s)

/-- Settles O46: each check that fails does so behind those before it, and what passes all of them is copied. -/
theorem buildChecksInOrder : Obligations.BuildChecksInOrder := by
  intro s d
  refine ⟨fun hf hr => ?_, fun hn h => ?_, fun hn hid hdlc ht => ?_, fun _ h => ?_⟩
  · exact exec_build_fail d (buildCheck_of_descCheck (descCheck_flagCombination hf hr _ _ _))
  · exact exec_build_fail d (buildCheck_of_descCheck (descCheck_frame hn h))
  · refine exec_build_fail d ?_
    rw [buildCheck_of_timingCheck ((descCheck_eq_none ..).2 ⟨hn, hid, hdlc⟩)]
    refine (timingCheck_cases s).resolve_left fun hnone => ?_
    obtain ⟨hbrp, hsjw, hdata⟩ := (timingCheck_eq_none s).1 hnone
    obtain h0 | h0 | ⟨hf, hb, h0⟩ := ht
    · omega
    · omega
    · have := hdata hf hb
      omega
  · refine ⟨_, rfl, fun hfatal => ?_⟩
    obtain ⟨-, ht⟩ := exec_build_of_legal h rfl hfatal
    rw [ht, exec_build_slot]
    exact ⟨rfl, rfl, rfl⟩

/-! ## GET_CRC (R257, R258, R270) -/

theorem crcStep_lt (w : CrcKind) (c : Nat) (x : Level) : crcStep w c x < 2 ^ w.width := by
  have hs : (c <<< 1) % 2 ^ w.width < 2 ^ w.width := Nat.mod_lt _ (Nat.two_pow_pos _)
  have hp : w.poly < 2 ^ w.width := by cases w <;> decide
  unfold crcStep
  dsimp only
  split
  · exact Nat.xor_lt_two_pow hs hp
  · exact hs

/-- The CRC register stays within its width (R257). -/
theorem crcFrom_lt {w : CrcKind} {start : Nat} (h : start < 2 ^ w.width) (xs : List Level) :
    crcFrom w start xs < 2 ^ w.width := by
  induction xs generalizing start with
  | nil => exact h
  | cons x xs ih => exact ih (crcStep_lt w start x)

theorem crcOfSpan_lt (cfg : Config) (sl : Slot) (bits : List FrameBit) :
    crcOfSpan cfg sl bits < 2 ^ sl.crcKind.width :=
  crcFrom_lt (by cases sl.crcKind <;> decide) _

theorem exec_getCrc {s : State} {ix : SlotIx} (hv : (s.slot ix).valid = true) :
    exec (.getCrc ix) s =
      .next (answered s (BitVec.ofNat 32 (crcOfSpan s.cfg (s.slot ix) (spanOf (s.slot ix).bits)))) :=
  congrArg Host.Outcome.next (query_ok hv rfl)

/-- The CRC of a slot's span fits into RESULT. -/
theorem toNat_ofNat_crcOfSpan (cfg : Config) (sl : Slot) (bits : List FrameBit) :
    (BitVec.ofNat 32 (crcOfSpan cfg sl bits)).toNat = crcOfSpan cfg sl bits := by
  rw [BitVec.toNat_ofNat, Nat.mod_eq_of_lt]
  exact (crcOfSpan_lt cfg sl bits).trans_le (Nat.pow_le_pow_right (by decide) (by cases sl.crcKind <;> decide))

/-- Which bits enter the CRC, as R258 says it. -/
theorem feedsCrc_eq (cfg : Config) (fdf : Bool) (b : FrameBit) :
    feedsCrc cfg fdf b = decide (b.stuff = .notStuff ∨
      (b.stuff = .normalStuff ∧ fdf = true ∧ cfg.fdCrcMode = .iso)) := by
  cases hs : b.stuff <;> simp [feedsCrc, hs, Bool.decide_and, beq_eq_decide]

theorem crcInput_eq (cfg : Config) (fdf : Bool) (bits : List FrameBit) :
    crcInput cfg fdf bits = ((bits.takeWhile fun b => decide (b.kind ≠ .crc)).filter fun b =>
      decide (b.stuff = .notStuff ∨ (b.stuff = .normalStuff ∧ fdf = true ∧ cfg.fdCrcMode = .iso))).map (·.val) := by
  have hk : (fun b : FrameBit => b.kind != .crc) = fun b => decide (b.kind ≠ .crc) := by
    funext b
    simp [bne, beq_eq_decide]
  simp only [crcInput, hk, funext (feedsCrc_eq cfg fdf)]

theorem crcKind_eq (sl : Slot) :
    sl.crcKind = if sl.fdf then (if sl.dlc.toNat ≤ 10 then .crc17 else .crc21) else .crc15 := by
  unfold Slot.crcKind crcKindOf
  cases sl.fdf <;> rfl

/-- The width, the generator and the initial value of a slot's CRC, for each format and DLC (R244, R257). -/
theorem crcKind_numbers {sl : Slot} {w poly start : Nat}
    (h : (sl.fdf = false ∧ w = 15 ∧ poly = 0x4599 ∧ start = 0) ∨
      (sl.fdf = true ∧ sl.dlc.toNat ≤ 10 ∧ w = 17 ∧ poly = 0x1685B ∧ start = 0x10000) ∨
      (sl.fdf = true ∧ 10 < sl.dlc.toNat ∧ w = 21 ∧ poly = 0x102899 ∧ start = 0x100000)) :
    sl.crcKind.width = w ∧ sl.crcKind.poly = poly ∧ sl.crcKind.init = start := by
  rw [crcKind_eq]
  obtain ⟨hf, rfl, rfl, rfl⟩ | ⟨hf, hd, rfl, rfl, rfl⟩ | ⟨hf, hd, rfl, rfl, rfl⟩ := h
  · rw [hf]
    exact ⟨rfl, rfl, rfl⟩
  · rw [if_pos hf, if_pos hd]
    exact ⟨rfl, rfl, rfl⟩
  · rw [if_pos hf, if_neg (Nat.not_le.2 hd)]
    exact ⟨rfl, rfl, rfl⟩

/-- Settles O29: the answer is the CRC register's recurrence over the levels that enter it. -/
theorem getCrcAnswersTheCrcOfTheBits : Obligations.GetCrcAnswersTheCrcOfTheBits := by
  intro s ix w poly start hv h
  obtain ⟨rfl, rfl, rfl⟩ := crcKind_numbers h
  refine ⟨_, exec_getCrc hv, crcOfSpan_lt _ _ _, ?_⟩
  rw [crcOfSpan, crcOf, crcFrom_eq_foldl, crcInput_eq]

end Sys2Proof.Machine
end

section
/-! SUPPORT. What re-derivation keeps (spec/43_bitframe_build.md R251, R261, R265, R277), and how stuff bits stand in a
re-derived span (R252 to R255, R275). -/

namespace Sys2Proof.Machine

/-! ## After a BUILD or an UPDATE -/

/-- What holds of every re-derived slot holds right after a BUILD and right after an UPDATE. -/
theorem after_build_and_update {s t : State} {ix : SlotIx} {P : Slot → Prop} (hP : ∀ sl, P (restuffed s.cfg sl))
    (hf : t.fatal = none) :
    (exec (.build ix) s = .next t → t.code = .ok → P (t.slot ix)) ∧
    (exec (.update ix) s = .next t → P (t.slot ix)) := by
  refine ⟨fun ht hc => ?_, fun ht => ?_⟩
  · obtain ⟨-, -, rfl⟩ := exec_build_completed ht hc hf
    rw [exec_build_slot]
    exact hP (layoutSlot s)
  · obtain ⟨-, -, rfl⟩ := exec_update_completed ht hf
    exact edited_restuff_slot s ix s.cfg ▸ hP _

theorem spanOf_restuffed (cfg : Config) (sl : Slot) :
    spanOf (restuffed cfg sl).bits = restuffSpan cfg sl (logicalBits sl.bits) := (restuff_parts cfg sl).1

theorem logicalBits_all_notStuff (bits : List FrameBit) : ∀ b ∈ logicalBits bits, b.stuff = .notStuff :=
  fun _ hb => (logicalBits_notStuff hb).1

/-! ## UPDATE twice (R277) -/

/-- UPDATE of a slot that was just re-derived changes nothing. -/
theorem exec_update_restuffed {t : State} {ix : SlotIx} {sl : Slot} (hs : t.slot ix = restuffed t.cfg sl)
    (hv : sl.valid = true) (hl : (restuff t.cfg sl).length ≤ t.cfg.capBits) (hc : t.code = .ok) :
    exec (.update ix) t = .next t := by
  have hbits : restuff t.cfg (t.slot ix) = (t.slot ix).bits := by
    rw [hs]
    exact restuff_idem t.cfg sl
  have hlen : (restuff t.cfg (t.slot ix)).length ≤ t.cfg.capBits := by rwa [hbits, hs]
  have hself : edited t ix (t.slot ix).bits = { t with code := .ok } :=
    congrArg (fun u : State => { u with code := .ok }) (setSlot_self t ix)
  rw [exec_update_ok (hs ▸ hv) hlen, hbits, hself, ← hc]

/-- Settles O53: both commands leave a re-derived slot. -/
theorem updateIsIdempotent : Obligations.UpdateIsIdempotent := by
  intro s t ix _ hf
  refine ⟨fun ht => ?_, fun ht hc => ?_⟩
  · obtain ⟨hv, hl, rfl⟩ := exec_update_completed ht hf
    exact exec_update_restuffed (edited_restuff_slot s ix s.cfg) hv hl rfl
  · obtain ⟨-, hl, rfl⟩ := exec_build_completed ht hc hf
    exact exec_update_restuffed ((exec_build_slot s ix).trans (builtSlot_eq s)) rfl hl rfl

/-! ## The logical bits (R251, R261, R265) -/

theorem stuff_beq_notStuff : (fun b : FrameBit => b.stuff == .notStuff) = fun b => decide (b.stuff = .notStuff) := by
  funext b
  exact beq_eq_decide _ _

theorem logicalBits_eq (bits : List FrameBit) :
    logicalBits bits = (spanOf bits).filter fun b => decide (b.stuff = .notStuff) := by
  rw [logicalBits, stuff_beq_notStuff]

/-- Re-derivation changes the logical bits in their values only. -/
theorem rederived_map {β : Type} (f : FrameBit → β) (hf : ∀ (b : FrameBit) (v : Level), f { b with val := v } = f b)
    (cfg : Config) (sl : Slot) (p : List FrameBit) : (rederived cfg sl p).map f = p.map f := by
  unfold rederived
  split
  · rw [List.map_append, codedPart_map f hf, ← List.map_append, dynPart_append_fixedPart]
  · exact writeField_map f hf _ _ _ _

/-- The three tags of the fixed region open it (R261). -/
theorem opensFixedRegion_of_kind {t : FieldTag} (ht : (t == .stuffCount || t == .stuffParity || t == .crc) = true) :
    ∀ b : FrameBit, b.kind = t → opensFixedRegion b = true := by
  rintro b rfl
  exact ht

/-- Re-derivation leaves the logical bits outside the stuff count, parity and CRC fields whole. -/
theorem rederived_filter (q : FrameBit → Bool) (hq : ∀ (b : FrameBit) (v : Level), q { b with val := v } = q b)
    (hk : ∀ b, q b = true → opensFixedRegion b = false) (cfg : Config) (sl : Slot) (p : List FrameBit) :
    (rederived cfg sl p).filter q = p.filter q := by
  have hkind : ∀ {t : FieldTag}, (t == .stuffCount || t == .stuffParity || t == .crc) = true →
      ∀ b, q b = true → b.kind ≠ t :=
    fun ht b hb he => by simpa [hk b hb] using opensFixedRegion_of_kind ht b he
  have hcount := writeField_filter q hq .stuffCount (hkind rfl)
  have hparity := writeField_filter q hq .stuffParity (hkind rfl)
  have hcrc := writeField_filter q hq .crc (hkind rfl)
  unfold rederived
  split
  · rw [List.filter_append, codedPart, hcrc, countedPart, hparity, hcount, ← List.filter_append,
      dynPart_append_fixedPart]
  · exact hcrc _ _ _

/-- Settles O50: the new sequence is the re-derived span before the old tail. -/
theorem updateKeepsTheLogicalBits : Obligations.UpdateKeepsTheLogicalBits := by
  intro s ix hv hl
  obtain ⟨hspan, htail, hlog⟩ := restuff_parts s.cfg (s.slot ix)
  refine ⟨_, exec_update_ok hv hl, htail, fun b hb hs => ?_, ?_, ?_⟩
  · rw [hspan] at hb
    exact restuffSpan_stuff (logicalBits_all_notStuff _) hb hs
  · rw [← logicalBits_eq, ← logicalBits_eq, hlog]
    exact rederived_map _ (fun _ _ => rfl) _ _ _
  · have hfilter : ∀ bits, (spanOf bits).filter (fun b =>
          decide (b.stuff = .notStuff ∧ b.kind ≠ .stuffCount ∧ b.kind ≠ .stuffParity ∧ b.kind ≠ .crc)) =
        (logicalBits bits).filter fun b =>
          decide (b.kind ≠ .stuffCount ∧ b.kind ≠ .stuffParity ∧ b.kind ≠ .crc) := by
      intro bits
      rw [logicalBits_eq, List.filter_filter]
      congr 1
      funext b
      rw [Bool.decide_and, Bool.and_comm]
    rw [hfilter, hfilter, hlog]
    exact rederived_filter _ (fun _ _ => rfl) (fun b hb => by simpa [opensFixedRegion, and_assoc] using hb) _ _ _

/-! ## The shape of a re-derived span (R254, R261)

In both formats the span is a stuffed dynamic part and a fixed part with its fixed stuff bits; a Classical span has no
fixed part. -/

/-- `span` is `dyn` with dynamic stuff bits, a trailing one omitted where `om` says so, and `fixed` with fixed ones. -/
structure StuffedSpan (cfg : Config) (sl : Slot) (om : Bool) (dyn fixed span : List FrameBit) : Prop where
  dynLogical : ∀ b ∈ dyn, b.stuff = .notStuff
  fixedLogical : ∀ b ∈ fixed, b.stuff = .notStuff
  eq : span = (dynStuff sl om dyn).1 ++ fixStuffFrom sl 0 (lastLevel (dynStuff sl om dyn).1) fixed
  classical : sl.fdf = false → fixed = []
  parts : sl.fdf = true → dynPart span = (dynStuff sl om dyn).1 ∧
    fixedPart span = fixStuffFrom sl 0 (lastLevel (dynStuff sl om dyn).1) fixed
  omits : om = true ↔ sl.fdf = true ∧ fixed ≠ [] ∧ cfg.fdBoundaryStuff = .fixedOnly

/-- No bit of the stuffed dynamic part opens the fixed region. -/
theorem stuffedDyn_opens {cfg : Config} {sl : Slot} {p : List FrameBit} {b : FrameBit}
    (hb : b ∈ (stuffedDyn cfg sl p).1) : opensFixedRegion b = false := by
  obtain hb | ⟨tag, level, rfl, c, hc, rfl⟩ := mem_dynStuff hb
  · exact (mem_dynPart hb).2
  · exact (mem_dynPart hc).2

/-- The coded part is empty exactly where the fixed part is. -/
theorem codedPart_isEmpty (cfg : Config) (sl : Slot) (p : List FrameBit) :
    (codedPart cfg sl p).isEmpty = (fixedPart p).isEmpty := by
  simpa using congrArg List.isEmpty (codedPart_map opensFixedRegion (fun _ _ => rfl) cfg sl p)

theorem restuffSpan_shape (cfg : Config) (sl : Slot) {p : List FrameBit} (h : ∀ b ∈ p, b.stuff = .notStuff) :
    ∃ om dyn fixed, StuffedSpan cfg sl om dyn fixed (restuffSpan cfg sl p) := by
  cases hf : sl.fdf with
  | false =>
    refine ⟨false, writeField p .crc (crcOfSpan cfg sl p) sl.crcKind.width, [], writeField_all (fun _ _ h => h) h,
      nofun, ?_, fun _ => rfl, ?_, ?_⟩
    · simp [restuffSpan, hf, restuffClassical, fixStuffFrom]
    · simp [hf]
    · simp
  | true =>
    have hspan : restuffSpan cfg sl p = restuffFd cfg sl p := if_pos hf
    refine ⟨!(fixedPart p).isEmpty && cfg.fdBoundaryStuff == .fixedOnly, dynPart p, codedPart cfg sl p,
      fun b hb => h b (mem_dynPart hb).1, codedPart_all (fun _ _ h => h) h, hspan, fun hn => ?_, fun _ => ?_, ?_⟩
    · cases hn.symm.trans hf
    · rw [hspan]
      exact parts_append (fun b hb => stuffedDyn_opens hb) (fixStuffFrom_head fun b hb => codedPart_head hb)
    · simp [hf, ← codedPart_isEmpty cfg sl p]

/-! ## The stuffing invariant (R275) -/

/-- Where the levels end in a run, the last one is the run's. -/
theorem lastLevel_of_endsInRun {bits : List FrameBit} {level : Level} {n : Nat}
    (h : EndsInRun (bits.map (·.val)) level n) (hn : 1 ≤ n) : lastLevel bits = level := by
  obtain ⟨front, he, -⟩ := h
  obtain ⟨m, rfl⟩ : ∃ m, n = m + 1 := ⟨n - 1, by omega⟩
  have hl := congrArg List.getLast? he
  rw [List.getLast?_map, List.replicate_succ', ← List.append_assoc, List.getLast?_concat] at hl
  obtain ⟨b, hb, rfl⟩ := Option.map_eq_some_iff.1 hl
  simp only [lastLevel, hb]

/-- A re-derived span is free of six equal levels, and every dynamic stuff bit of it follows five. -/
theorem StuffedSpan.ok {cfg : Config} {sl : Slot} {om : Bool} {dyn fixed span : List FrameBit}
    (h : StuffedSpan cfg sl om dyn fixed span) : SixFree (span.map (·.val)) ∧ StuffOk [] span := by
  have h6 : SixFree [] := fun v a b => by simp
  obtain ⟨hsix, hok, r, hr⟩ := dynStuffFrom_ok sl om dyn h.dynLogical [] none rfl h6
  have hend : ∃ level n, ((dynStuff sl om dyn).1.map (·.val) = [] ∧ 0 % 4 = 0) ∨
      (EndsInRun ((dynStuff sl om dyn).1.map (·.val)) level n ∧ 1 ≤ n ∧ lastLevel (dynStuff sl om dyn).1 = level ∧
        n ≤ 5) := by
    cases r with
    | none => exact ⟨.dominant, 0, .inl ⟨hr, rfl⟩⟩
    | some x => exact ⟨x.level, x.len, .inr ⟨hr.1, hr.2.1, lastLevel_of_endsInRun hr.1 hr.2.1, hr.2.2⟩⟩
  obtain ⟨level, n, hend⟩ := hend
  obtain ⟨hsix', hok'⟩ := fixStuffFrom_ok sl fixed h.fixedLogical _ 0 _ level n hend hsix
  rw [h.eq, List.map_append]
  exact ⟨hsix', StuffOk_append hok hok'⟩

/-- `StuffOk` at every place of the sequence. -/
theorem StuffOk.split {pre : List Level} {bits front : List FrameBit} {b : FrameBit} {post : List FrameBit}
    (h : StuffOk pre bits) (hb : bits = front ++ b :: post) (hs : b.stuff = .normalStuff) :
    ∃ fr, pre ++ front.map (·.val) = fr ++ List.replicate 5 b.val.flip := by
  induction front generalizing pre bits with
  | nil =>
    subst hb
    simpa using h.1 hs
  | cons x xs ih =>
    subst hb
    simpa using ih h.2 rfl

/-- The level before a place of a sequence that `p` stands before. -/
def levelAfter (p : Level) (bits : List FrameBit) : Level := bits.foldl (fun _ b => b.val) p

theorem lastLevel_append (pre bits : List FrameBit) : lastLevel (pre ++ bits) = levelAfter (lastLevel pre) bits := by
  induction bits using List.reverseRecOn with
  | nil => simp [levelAfter]
  | append_singleton bits b _ => simp [levelAfter, lastLevel, ← List.append_assoc]

/-- Where `fixStuffFrom` stands in a group of five when `j` bits of the region are put out. -/
def groupOffset (j : Nat) : Nat := if j % 4 = 0 then 0 else j % 4 + 1

theorem groupOffset_succ (j k : Nat) :
    (groupOffset (j + 1) + k) % 5 = (groupOffset j + k + (if j % 4 = 0 then 2 else 1)) % 5 := by
  unfold groupOffset
  split <;> split <;> omega

/-- Fixed stuffing puts a fixed stuff bit before each group of four, equal to the complement of the bit before it, and
no other stuff bit (R255). -/
theorem fixStuffFrom_getElem? (sl : Slot) {j : Nat} {p : Level} {bits : List FrameBit}
    (h : ∀ b ∈ bits, b.stuff = .notStuff) {k : Nat} {b : FrameBit} (hb : (fixStuffFrom sl j p bits)[k]? = some b) :
    if (groupOffset j + k) % 5 = 0 then
      b.stuff = .fixedStuff ∧ b.val = (levelAfter p ((fixStuffFrom sl j p bits).take k)).flip
    else b.stuff = .notStuff := by
  induction bits generalizing j p k with
  | nil => simp [fixStuffFrom] at hb
  | cons c cs ih =>
    have hc := h c (by simp)
    have ih := @ih (j + 1) c.val fun d hd => h d (by simp [hd])
    simp only [groupOffset_succ] at ih
    unfold fixStuffFrom at hb ⊢
    by_cases hj : j % 4 = 0
    · rw [if_pos hj] at hb ⊢
      simp only [if_pos hj] at ih
      match k with
      | 0 =>
        obtain rfl := Option.some.inj hb
        simp [groupOffset, hj, levelAfter]
      | 1 =>
        obtain rfl := Option.some.inj hb
        simpa [groupOffset, hj] using hc
      | k + 2 => exact ih hb
    · rw [if_neg hj] at hb ⊢
      simp only [if_neg hj] at ih
      match k with
      | 0 =>
        obtain rfl := Option.some.inj hb
        rw [if_neg (by simp only [groupOffset, if_neg hj]; omega)]
        exact hc
      | k + 1 => exact ih hb

/-- The fixed region of a re-derived FD span has a fixed stuff bit before each group of four (R275 (c), (d)). -/
theorem StuffedSpan.fixedEveryFour {cfg : Config} {sl : Slot} {om : Bool} {dyn fixed span : List FrameBit}
    (h : StuffedSpan cfg sl om dyn fixed span) (hf : sl.fdf = true) : FixedEveryFour span := by
  have hregion : fixedRegion span = fixStuffFrom sl 0 (lastLevel (dynStuff sl om dyn).1) fixed := (h.parts hf).2
  refine ⟨?_, fun k b hb => ?_⟩
  · rw [hregion, fixStuffFrom_length]
    omega
  · rw [hregion] at hb ⊢
    have hpre : span.length - (fixStuffFrom sl 0 (lastLevel (dynStuff sl om dyn).1) fixed).length =
        (dynStuff sl om dyn).1.length := by
      rw [h.eq, List.length_append, Nat.add_sub_cancel]
    rw [hpre, h.eq, List.take_length_add_append, lastLevel_append]
    simpa [groupOffset] using fixStuffFrom_getElem? sl h.fixedLogical hb

/-- The stuffing invariant holds of a re-derived slot. -/
theorem restuffed_stuffed (cfg : Config) (sl : Slot) : Stuffed (restuffed cfg sl) := by
  obtain ⟨om, dyn, fixed, h⟩ := restuffSpan_shape cfg sl (logicalBits_all_notStuff sl.bits)
  rw [← spanOf_restuffed] at h
  obtain ⟨hsix, hok⟩ := h.ok
  exact ⟨hsix, fun pre b post hb hs => hok.split hb hs, fun hf => h.fixedEveryFour hf⟩

/-- Settles O51: a re-derived span is stuffed, whatever the logical bits are. -/
theorem stuffingInvariantAfterBuildAndUpdate : Obligations.StuffingInvariantAfterBuildAndUpdate :=
  fun s _ _ _ hf => after_build_and_update (restuffed_stuffed s.cfg) hf

/-! ## The stuffing rule (R252 to R255) -/

/-- The dynamic part of a re-derived slot follows the stuffing rule. -/
theorem restuffed_ruleOk (cfg : Config) (sl : Slot) :
    RuleOk sl (BoundaryUnstuffed cfg (restuffed cfg sl)) [] (dynamicRegion (restuffed cfg sl)) := by
  obtain ⟨om, dyn, fixed, h⟩ := restuffSpan_shape cfg sl (logicalBits_all_notStuff sl.bits)
  rw [← spanOf_restuffed] at h
  have hregion : dynamicRegion (restuffed cfg sl) = (dynStuff sl om dyn).1 := by
    unfold dynamicRegion
    split
    next hf => exact (h.parts hf).1
    next hf => rw [h.eq, h.classical (Bool.eq_false_iff.2 hf), fixStuffFrom, List.append_nil]
  have hlast : (om = true) = BoundaryUnstuffed cfg (restuffed cfg sl) := by
    refine propext (h.omits.trans (and_congr_right fun hf => and_congr_left' (not_congr ?_)))
    have hfixed : fixedRegion (spanOf (restuffed cfg sl).bits) = _ := (h.parts hf).2
    rw [hfixed]
    cases fixed <;> simp [fixStuffFrom]
  rw [hregion, ← hlast]
  exact dynStuffFrom_rule sl om dyn h.dynLogical [] none ⟨rfl, nofun⟩ fun v a b => by simp

theorem restuffed_everyFiveIsStuffed (cfg : Config) (sl : Slot) : EveryFiveIsStuffed cfg (restuffed cfg sl) := by
  intro pre c post hp hc
  have hpost := (restuffed_ruleOk cfg sl).split pre post hp
  cases post with
  | nil => exact hpost c hc
  | cons b bs => exact hpost.1 c hc

theorem restuffed_onlyFiveAreStuffed (cfg : Config) (sl : Slot) : OnlyFiveAreStuffed cfg (restuffed cfg sl) :=
  fun pre b post hp hs => ((restuffed_ruleOk cfg sl).split pre (b :: post) hp).2.1 hs

/-- Bits without a fixed stuff bit may stand in front. -/
theorem fixedTagsFollow_append {d f : List FrameBit} (hd : ∀ b ∈ d, b.stuff ≠ .fixedStuff) (hf : FixedTagsFollow f) :
    FixedTagsFollow (d ++ f) := by
  intro pre b post hp hs
  obtain ⟨mid, rfl, hm⟩ | ⟨mid, rfl, hm⟩ := List.append_eq_append_iff.1 hp
  · exact hf mid b post hm hs
  · cases mid with
    | nil => exact hf [] b post hm.symm hs
    | cons x xs =>
      obtain ⟨rfl, -⟩ := List.cons.inj hm
      exact absurd hs (hd _ (by simp))

theorem StuffedSpan.fixedTagsFollow {cfg : Config} {sl : Slot} {om : Bool} {dyn fixed span : List FrameBit}
    (h : StuffedSpan cfg sl om dyn fixed span) : FixedTagsFollow span := by
  rw [h.eq]
  refine fixedTagsFollow_append (fun b hb => ?_) (fixStuffFrom_tags sl 0 _ fixed h.fixedLogical)
  obtain hb | ⟨tag, level, rfl, -⟩ := mem_dynStuff hb
  · simp [h.dynLogical b hb]
  · simp

theorem restuffed_fixedTagsFollow (cfg : Config) (sl : Slot) : FixedTagsFollow (spanOf (restuffed cfg sl).bits) := by
  obtain ⟨om, dyn, fixed, h⟩ := restuffSpan_shape cfg sl (logicalBits_all_notStuff sl.bits)
  exact spanOf_restuffed cfg sl ▸ h.fixedTagsFollow

/-- Settles O52: both commands leave a re-derived slot, and such a one follows the rule. -/
theorem stuffBitsFollowTheRule : Obligations.StuffBitsFollowTheRule :=
  fun s _ _ _ hf => after_build_and_update
    (P := fun sl => EveryFiveIsStuffed s.cfg sl ∧ OnlyFiveAreStuffed s.cfg sl ∧ FixedTagsFollow (spanOf sl.bits))
    (fun sl => ⟨restuffed_everyFiveIsStuffed s.cfg sl, restuffed_onlyFiveAreStuffed s.cfg sl,
      restuffed_fixedTagsFollow s.cfg sl⟩) hf

end Sys2Proof.Machine
end

section
/-! SUPPORT. The layout of a built frame (spec/43_bitframe_build.md R241): its tags, its span and its end; and what
BUILD makes of it (R263, R278). -/

namespace Sys2Proof.Machine

/-! ## The tags of the layout (R241) -/

theorem field_tags (tag : FieldTag) (v w : Nat) : (field tag v w).map (·.1) = tags tag w := by
  rw [field, List.map_map, tags]
  exact (List.map_const' ..).trans (by rw [List.length_range])

theorem field1_tags (tag : FieldTag) (v : Level) : (field1 tag v).map (·.1) = tags tag 1 := rfl

theorem layoutData_tags (sl : Slot) (payload : Nat → Byte) :
    (layoutData sl payload).map (·.1) = tags .data (8 * dataLen sl.fdf sl.rtr sl.dlc) := by
  unfold layoutData
  generalize dataLen sl.fdf sl.rtr sl.dlc = n
  induction n with
  | zero => rfl
  | succ n ih =>
    rw [List.range_succ, List.flatMap_append, List.map_append, ih, List.flatMap_singleton, field_tags, tags, tags, tags,
      List.replicate_append_replicate]
    rfl

/-- The bytes of a legal descriptor's DLC (R145). -/
theorem dataLen_eq {fdf rtr : Bool} {dlc : BitVec 4} (h : fdf = false → dlc.toNat ≤ 8) :
    dataLen fdf rtr dlc = if rtr then 0 else fdLengths[dlc.toNat]?.getD 0 := by
  have hfd : ∀ dlc : BitVec 4, fdLength dlc = fdLengths[dlc.toNat]?.getD 0 := by decide
  have hcl : ∀ dlc : BitVec 4, dlc.toNat ≤ 8 → dlc.toNat = fdLengths[dlc.toNat]?.getD 0 := by decide
  cases fdf with
  | true => simp [dataLen, hfd]
  | false => simp [dataLen, ← hcl dlc (h rfl)]

/-- The tags of the layout of a legal slot are those of the table of R241. -/
theorem layout_tags {sl : Slot} (h : CopiesOk sl) (payload : Nat → Byte) :
    (layout sl payload).map (·.1) =
      frameTags sl.fdf sl.ide sl.rtr (fdLengths[sl.dlc.toNat]?.getD 0) sl.crcKind.width := by
  obtain ⟨hrtr, -, hdlc, -⟩ := h
  have hdata : 8 * dataLen sl.fdf sl.rtr sl.dlc = if sl.rtr then 0 else 8 * fdLengths[sl.dlc.toNat]?.getD 0 := by
    rw [dataLen_eq hdlc]
    split <;> rfl
  simp only [layout, List.map_append, layoutData_tags, hdata, layoutId, layoutControl, layoutCheck, layoutEnd,
    field_tags, field1_tags, frameTags]
  cases hf : sl.fdf with
  | false => cases sl.ide <;> simp [field_tags, field1_tags]
  | true =>
    have hr : sl.rtr = false := Bool.eq_false_iff.2 fun hr => hrtr ⟨hf, hr⟩
    cases sl.ide <;> simp [field_tags, field1_tags, hr]

/-- The layout up to the data field: what is stuffed dynamically in an FD frame. -/
def layoutHead (sl : Slot) (payload : Nat → Byte) : List (FieldTag × Level) :=
  layoutId sl ++ layoutControl sl ++ field .dlc sl.dlc.toNat 4 ++ layoutData sl payload

theorem layout_eq (sl : Slot) (payload : Nat → Byte) :
    layout sl payload = layoutHead sl payload ++ layoutCheck sl ++ layoutEnd := rfl

/-- The fields before the stuff count have the tags before StuffCount in the order of R110. -/
theorem layoutHead_code {sl : Slot} {payload : Nat → Byte} {f : FieldTag × Level} (hf : f ∈ layoutHead sl payload) :
    f.1.code < FieldTag.stuffCount.code := by
  have hall : ((layoutHead sl payload).map (·.1)).all fun t => decide (t.code < FieldTag.stuffCount.code) := by
    simp only [layoutHead, layoutId, layoutControl, List.map_append, layoutData_tags]
    cases sl.fdf <;> cases sl.ide <;> simp [field_tags, field1_tags, tags, FieldTag.code]
  simpa using List.all_eq_true.1 hall _ (List.mem_map_of_mem hf)

theorem layoutCheck_tags (sl : Slot) :
    (layoutCheck sl).map (·.1) =
      (if sl.fdf then tags .stuffCount 3 ++ tags .stuffParity 1 else []) ++ tags .crc sl.crcKind.width := by
  unfold layoutCheck
  cases sl.fdf <;> simp [field_tags, field1_tags]

theorem layoutCheck_tags_fd {sl : Slot} (hf : sl.fdf = true) :
    (layoutCheck sl).map (·.1) = tags .stuffCount 3 ++ tags .stuffParity 1 ++ tags .crc sl.crcKind.width := by
  rw [layoutCheck_tags, if_pos hf]

/-! ## The bits of the layout (R263) -/

/-- The bits that NewBit makes of a part of the layout. -/
def freshBits (sl : Slot) (l : List (FieldTag × Level)) : List FrameBit := l.map fun f => newBit sl f.1 f.2 .notStuff

theorem mem_freshBits {sl : Slot} {l : List (FieldTag × Level)} {b : FrameBit} (h : b ∈ freshBits sl l) :
    ∃ f ∈ l, b = newBit sl f.1 f.2 .notStuff := by
  obtain ⟨f, hf, rfl⟩ := List.mem_map.1 h
  exact ⟨f, hf, rfl⟩

theorem freshBits_kinds (sl : Slot) (l : List (FieldTag × Level)) : (freshBits sl l).map (·.kind) = l.map (·.1) :=
  List.map_map

/-- The bits of the layout up to the CRC. -/
def layoutSpan (sl : Slot) (payload : Nat → Byte) : List FrameBit :=
  freshBits sl (layoutHead sl payload) ++ freshBits sl (layoutCheck sl)

theorem layoutBits_eq (sl : Slot) (payload : Nat → Byte) :
    layoutBits sl payload = layoutSpan sl payload ++ freshBits sl layoutEnd := by
  rw [layoutBits, layout_eq, List.map_append, List.map_append]
  rfl

theorem layoutSpan_inSpan {sl : Slot} {payload : Nat → Byte} : ∀ b ∈ layoutSpan sl payload, inSpan b = true := by
  intro b hb
  obtain hb | hb := List.mem_append.1 hb <;> obtain ⟨f, hf, rfl⟩ := mem_freshBits hb
  · exact decide_eq_true ((layoutHead_code hf).le.trans (by decide))
  · have hall : ((layoutCheck sl).map (·.1)).all fun t => decide (t.code ≤ FieldTag.crc.code) := by
      rw [layoutCheck_tags]
      cases sl.fdf <;> simp [tags, FieldTag.code]
    exact List.all_eq_true.1 hall _ (List.mem_map_of_mem hf)

/-- Span, logical bits and tail of the layout's bits. -/
theorem layoutBits_parts (sl : Slot) (payload : Nat → Byte) :
    logicalBits (layoutBits sl payload) = layoutSpan sl payload ∧
    tailOf (layoutBits sl payload) = freshBits sl layoutEnd := by
  have hend : tailOf (freshBits sl layoutEnd) = freshBits sl layoutEnd := rfl
  have h := spanOf_append (bits := freshBits sl layoutEnd) (layoutSpan_inSpan (sl := sl) (payload := payload))
  rw [hend, ← layoutBits_eq] at h
  refine ⟨?_, h.2⟩
  rw [logicalBits, h.1, List.filter_eq_self]
  intro b hb
  obtain hb | hb := List.mem_append.1 hb <;> obtain ⟨f, -, rfl⟩ := mem_freshBits hb <;> rfl

/-- The bits BUILD makes: the re-derived span and the end of the layout. -/
theorem builtSlot_bits (s : State) :
    (builtSlot s).bits = restuffSpan s.cfg (layoutSlot s) (layoutSpan (freshSlot s) s.byte) ++
      freshBits (freshSlot s) layoutEnd := by
  obtain ⟨hlog, htail⟩ := layoutBits_parts (freshSlot s) s.byte
  rw [builtSlot_eq]
  exact congrArg₂ (fun a b => restuffSpan s.cfg (layoutSlot s) a ++ b) hlog htail

/-! ## BUILD completes (R263, R383) -/

theorem StuffedSpan.filter_notStuff {cfg : Config} {sl : Slot} {om : Bool} {dyn fixed span : List FrameBit}
    (h : StuffedSpan cfg sl om dyn fixed span) : span.filter (fun b => b.stuff == .notStuff) = dyn ++ fixed := by
  rw [h.eq, List.filter_append, dynStuff_filter _ _ _ h.dynLogical, fixStuffFrom_filter _ _ _ _ h.fixedLogical]

/-- A re-derived span is about a quarter longer than the logical bits. -/
theorem restuffSpan_length_le (cfg : Config) (sl : Slot) {p : List FrameBit} (h : ∀ b ∈ p, b.stuff = .notStuff) :
    (restuffSpan cfg sl p).length ≤ p.length + (p.length + 3) / 4 := by
  obtain ⟨om, dyn, fixed, hs⟩ := restuffSpan_shape cfg sl h
  have hp : dyn.length + fixed.length = p.length := by
    rw [← List.length_append, ← hs.filter_notStuff, restuffSpan_filter cfg sl p h]
    simpa using congrArg List.length (rederived_map (·.kind) (fun _ _ => rfl) cfg sl p)
  have hd := dynStuff_length_le sl om dyn
  rw [hs.eq, List.length_append, fixStuffFrom_length]
  omega

/-- No frame has more than 591 bits before stuffing. -/
theorem frameTags_length_le (fdf ide rtr : Bool) {l w : Nat} (hl : l ≤ 64) (hw : w ≤ 21) :
    (frameTags fdf ide rtr l w).length ≤ 591 := by
  have hd : (if rtr then 0 else 8 * l) ≤ 8 * l := by split <;> omega
  cases fdf <;> cases ide <;> simp [frameTags, tags] <;> omega

theorem layoutSpan_notStuff {sl : Slot} {payload : Nat → Byte} : ∀ b ∈ layoutSpan sl payload, b.stuff = .notStuff :=
  fun b hb => logicalBits_all_notStuff (layoutBits sl payload) b ((layoutBits_parts sl payload).1 ▸ hb)

/-- Without its stuff bits a built frame has the tags of the table of R241. -/
theorem builtSlot_tags {s : State} (h : BuildLegal s) :
    ((builtSlot s).bits.filter fun b => decide (b.stuff = .notStuff)).map (·.kind) =
      frameTags (flagFdf s.flags) (flagIde s.flags) (flagRtr s.flags) (fdLengths[s.dlc.toNat]?.getD 0)
        (freshSlot s).crcKind.width := by
  have hend : (freshBits (freshSlot s) layoutEnd).filter (fun b => b.stuff == .notStuff) =
    freshBits (freshSlot s) layoutEnd := rfl
  rw [builtSlot_bits, ← stuff_beq_notStuff, List.filter_append, hend, restuffSpan_filter _ _ _ layoutSpan_notStuff,
    List.map_append, rederived_map _ (fun _ _ => rfl), ← List.map_append, ← layoutBits_eq]
  exact List.map_map.trans (layout_tags (freshSlot_copiesOk h) s.byte)

theorem crcKind_width (sl : Slot) :
    sl.crcKind.width = if sl.fdf then (if sl.dlc.toNat ≤ 10 then 17 else 21) else 15 := by
  rw [crcKind_eq, apply_ite CrcKind.width, apply_ite CrcKind.width]
  rfl

/-- A frame built of legal registers has at most 800 bits (R383). -/
theorem builtSlot_length_le {s : State} (h : BuildLegal s) : (builtSlot s).bits.length ≤ 800 := by
  have hspan := restuffSpan_length_le s.cfg (layoutSlot s) (layoutSpan_notStuff (sl := freshSlot s) (payload := s.byte))
  have hl : ∀ dlc : BitVec 4, fdLengths[dlc.toNat]?.getD 0 ≤ 64 := by decide
  have hw : ∀ k : CrcKind, k.width ≤ 21 := by rintro (_ | _ | _) <;> decide
  have hn : (layoutSpan (freshSlot s) s.byte ++ freshBits (freshSlot s) layoutEnd).length ≤ 591 := by
    rw [← layoutBits_eq, layoutBits, List.length_map, ← List.length_map (f := (·.1)),
      layout_tags (freshSlot_copiesOk h)]
    exact frameTags_length_le _ _ _ (hl _) (hw _)
  rw [builtSlot_bits, List.length_append]
  rw [List.length_append] at hn
  have hend : (freshBits (freshSlot s) layoutEnd).length = 13 := rfl
  omega

/-- Every bit of a built frame is one that NewBit makes in the slot (R172, R263). -/
theorem builtSlot_fresh (s : State) : ∀ b ∈ (builtSlot s).bits, b = newBit (builtSlot s) b.kind b.val b.stuff := by
  have hfresh : ∀ {l : List (FieldTag × Level)}, ∀ b ∈ freshBits (freshSlot s) l,
      b = newBit (layoutSlot s) b.kind b.val b.stuff := by
    intro l b hb
    obtain ⟨f, -, rfl⟩ := mem_freshBits hb
    rfl
  intro b hb
  rw [builtSlot_bits] at hb
  obtain hb | hb := List.mem_append.1 hb
  · exact restuffSpan_fresh layoutSpan_notStuff (List.forall_mem_append.2 ⟨hfresh, hfresh⟩) b hb
  · exact hfresh b hb

/-- Settles O47: the checks pass and the bits fit. -/
theorem buildCompletesOnLegalRegisters : Obligations.BuildCompletesOnLegalRegisters := by
  intro s d h hcap
  have hl := builtSlot_length_le h
  exact ⟨(builtSlot s).bits, builtSlot s, rfl, exec_build_ok d h (hl.trans hcap), hl, builtSlot_fresh s,
    (builtSlot_tags h).trans (congrArg _ (crcKind_width (freshSlot s)))⟩

/-! ## The field lengths of a built FD frame (R278) -/

/-- The tags that fixed stuffing gives, `j` bits of the region being put out: a fixed stuff bit has the tag of the bit
after it (R253, R255). -/
def fixStuffTags (j : Nat) : List FieldTag → List FieldTag
  | [] => []
  | t :: ts => if j % 4 = 0 then t :: t :: fixStuffTags (j + 1) ts else t :: fixStuffTags (j + 1) ts

theorem fixStuffFrom_kinds (sl : Slot) (j : Nat) (p : Level) (bits : List FrameBit) :
    (fixStuffFrom sl j p bits).map (·.kind) = fixStuffTags j (bits.map (·.kind)) := by
  induction bits generalizing j p with
  | nil => rfl
  | cons b bs ih =>
    simp only [fixStuffFrom, List.map_cons, fixStuffTags]
    split <;> simp [ih]

theorem filter_kind_length (bits : List FrameBit) (t : FieldTag) :
    (bits.filter fun b => decide (b.kind = t)).length = (bits.map (·.kind)).count t := by
  rw [← List.countP_eq_length_filter, List.count, List.countP_map]
  rfl

theorem layoutHead_opens {sl : Slot} {payload : Nat → Byte} :
    ∀ b ∈ freshBits sl (layoutHead sl payload), opensFixedRegion b = false := by
  have hopens : ∀ t : FieldTag, t.code < FieldTag.stuffCount.code →
      (t == .stuffCount || t == .stuffParity || t == .crc) = false := by
    intro t
    cases t <;> decide
  intro b hb
  obtain ⟨f, hf, rfl⟩ := mem_freshBits hb
  exact hopens _ (layoutHead_code hf)

/-- The fixed region of a built FD frame before stuffing. -/
theorem fixedPart_layoutSpan {sl : Slot} (hf : sl.fdf = true) (payload : Nat → Byte) :
    fixedPart (layoutSpan sl payload) = freshBits sl (layoutCheck sl) := by
  refine (parts_append layoutHead_opens fun b hb => ?_).2
  have hhead : (freshBits sl (layoutCheck sl)).head? = some (newBit sl .stuffCount .dominant .notStuff) := by
    simp [layoutCheck, hf, freshBits, field, List.range_succ, Level.ofBool]
  obtain rfl := Option.some.inj (hhead.symm.trans hb)
  rfl

theorem layoutEnd_opens {sl : Slot} : ∀ b ∈ freshBits sl layoutEnd, opensFixedRegion b = false := by
  have htags : ∀ f ∈ layoutEnd, (f.1 == .stuffCount || f.1 == .stuffParity || f.1 == .crc) = false := by decide
  intro b hb
  obtain ⟨f, hf, rfl⟩ := mem_freshBits hb
  exact htags f hf

/-- Bits of other tags than the fixed region's count for none of those. -/
theorem count_kind_eq_zero {t : FieldTag} (ht : ∀ b : FrameBit, b.kind = t → opensFixedRegion b = true)
    {bits : List FrameBit} (h : ∀ b ∈ bits, opensFixedRegion b = false) : (bits.map (·.kind)).count t = 0 := by
  refine List.count_eq_zero.2 fun hm => ?_
  obtain ⟨b, hb, hk⟩ := List.mem_map.1 hm
  exact absurd (ht b hk) (by simp [h b hb])

/-- How many bits of a tag of the fixed region a built FD frame has. -/
theorem builtSlot_count {s : State} {t : FieldTag} (hf : flagFdf s.flags = true)
    (ht : ∀ b : FrameBit, b.kind = t → opensFixedRegion b = true) :
    ((builtSlot s).bits.filter fun b => decide (b.kind = t)).length =
      (fixStuffTags 0
        (tags .stuffCount 3 ++ tags .stuffParity 1 ++ tags .crc (freshSlot s).crcKind.width)).count t := by
  have hfd : (layoutSlot s).fdf = true := hf
  have hdyn : ((stuffedDyn s.cfg (layoutSlot s) (layoutSpan (freshSlot s) s.byte)).1.map (·.kind)).count t = 0 :=
    count_kind_eq_zero ht fun b hb => stuffedDyn_opens hb
  have hend : ((freshBits (freshSlot s) layoutEnd).map (·.kind)).count t = 0 := count_kind_eq_zero ht layoutEnd_opens
  have hcheck : (codedPart s.cfg (layoutSlot s) (layoutSpan (freshSlot s) s.byte)).map (·.kind) =
      tags .stuffCount 3 ++ tags .stuffParity 1 ++ tags .crc (freshSlot s).crcKind.width := by
    rw [codedPart_map _ (fun _ _ => rfl), fixedPart_layoutSpan (sl := freshSlot s) hf, freshBits_kinds,
      layoutCheck_tags_fd hf]
  rw [filter_kind_length, builtSlot_bits, List.map_append, List.count_append, hend, restuffSpan, if_pos hfd, restuffFd,
    fixStuff, List.map_append, List.count_append, hdyn, fixStuffFrom_kinds, hcheck, Nat.zero_add, Nat.add_zero]

/-- Settles O49: the tags of the fixed region with a fixed stuff bit before each group of four. -/
theorem fdFieldLengthsAfterBuild : Obligations.FdFieldLengthsAfterBuild := by
  intro s t d hf _ ht hc hfatal
  obtain ⟨-, -, rfl⟩ := exec_build_completed ht hc hfatal
  have hw : (freshSlot s).crcKind.width = if s.dlc.toNat ≤ 10 then 17 else 21 := by
    rw [crcKind_width]
    exact if_pos hf
  rw [exec_build_slot, builtSlot_count hf (opensFixedRegion_of_kind rfl),
    builtSlot_count hf (opensFixedRegion_of_kind rfl), builtSlot_count hf (opensFixedRegion_of_kind rfl), hw]
  split <;> decide

end Sys2Proof.Machine
end

section
/-! SUPPORT. The numbers that the fields of a built frame spell (spec/43_bitframe_build.md R241 to R243). -/

namespace Sys2Proof.Machine

/-! ## The number a field of the layout spells -/

/-- One more field bit read into the number that the bits of `t` spell. -/
def spellBit (t : FieldTag) (n : Nat) (f : FieldTag × Level) : Nat := if f.1 = t then 2 * n + f.2.toBool.toNat else n

/-- The number that the bits of `t` spell, most significant first, `n` being spelled before them. -/
def spelled (t : FieldTag) (n : Nat) (l : List (FieldTag × Level)) : Nat := l.foldl (spellBit t) n

theorem spelled_append (t : FieldTag) (n : Nat) (a b : List (FieldTag × Level)) :
    spelled t n (a ++ b) = spelled t (spelled t n a) b := List.foldl_append

theorem spelled_nil (t : FieldTag) (n : Nat) : spelled t n [] = n := rfl

theorem spelled_field1 (t : FieldTag) (n : Nat) (tag : FieldTag) (v : Level) :
    spelled t n (field1 tag v) = if tag = t then 2 * n + v.toBool.toNat else n := rfl

theorem field_succ (tag : FieldTag) (v w : Nat) :
    field tag v (w + 1) = (tag, Level.ofBool (v.testBit w)) :: field tag v w := by
  rw [field, List.range_succ_eq_map, List.map_cons, List.map_map]
  refine congrArg₂ _ rfl (List.map_congr_left fun k _ => ?_)
  rw [Function.comp_apply, show w + 1 - 1 - Nat.succ k = w - 1 - k by omega]

/-- A field spells its number's low bits (R241). -/
theorem spelled_field (t : FieldTag) (n : Nat) (tag : FieldTag) (v w : Nat) :
    spelled t n (field tag v w) = if tag = t then 2 ^ w * n + v % 2 ^ w else n := by
  induction w generalizing n with
  | zero => simp [field, spelled, Nat.mod_one]
  | succ w ih =>
    rw [field_succ, spelled, List.foldl_cons]
    refine (ih _).trans ?_
    by_cases ht : tag = t
    · simp only [spellBit, ht, if_true, Level.toBool_ofBool, Nat.mod_pow_succ, Nat.toNat_testBit]
      ring
    · simp only [spellBit, ht, if_false]

/-- The data field spells its bytes, byte 0 first (R243). -/
theorem spelled_layoutData (t : FieldTag) (n : Nat) (sl : Slot) (payload : Nat → Byte) :
    spelled t n (layoutData sl payload) = if .data = t then
      (List.range (dataLen sl.fdf sl.rtr sl.dlc)).foldl (fun n j => 2 ^ 8 * n + (payload j).toNat) n else n := by
  have hbyte : ∀ n j, spelled t n (field .data (payload j).toNat 8) =
      if .data = t then 2 ^ 8 * n + (payload j).toNat else n := fun n j => by
    rw [spelled_field, Nat.mod_eq_of_lt (payload j).isLt]
  unfold layoutData
  generalize List.range (dataLen sl.fdf sl.rtr sl.dlc) = l
  induction l generalizing n with
  | nil => simp [spelled]
  | cons j js ih =>
    rw [List.flatMap_cons, spelled_append, ih, hbyte]
    split <;> rfl

/-- What each field of the layout spells (R241, R242). -/
def layoutValue (sl : Slot) (payload : Nat → Byte) : FieldTag → Nat
  | .baseIdentifier => if sl.ide then sl.id.toNat / 2 ^ 18 % 2 ^ 11 else sl.id.toNat % 2 ^ 11
  | .identifierExtension => if sl.ide then sl.id.toNat % 2 ^ 18 else 0
  | .srr => sl.ide.toNat
  | .ide => sl.ide.toNat
  | .rtr => if sl.fdf then 0 else sl.rtr.toNat
  | .edl => sl.fdf.toNat
  | .brs => if sl.fdf then sl.brs.toNat else 0
  | .esi => if sl.fdf then sl.esi.toNat else 0
  | .dlc => sl.dlc.toNat
  | .data => (List.range (dataLen sl.fdf sl.rtr sl.dlc)).foldl (fun n j => 2 ^ 8 * n + (payload j).toNat) 0
  | .crcDelimiter => 1
  | .ack => 1
  | .ackDelimiter => 1
  | .eof => 127
  | .intermission => 7
  | _ => 0

/-- The layout's fields, one after another, in each of the four formats. -/
theorem spelled_layout (sl : Slot) (payload : Nat → Byte) (t : FieldTag) :
    spelled t 0 (layout sl payload) = layoutValue sl payload t := by
  have hdlc : sl.dlc.toNat % 16 = sl.dlc.toNat := Nat.mod_eq_of_lt sl.dlc.isLt
  have hd : Level.dominant.toBool = false := rfl
  have hr : Level.recessive.toBool = true := rfl
  simp only [layout, layoutId, layoutControl, layoutCheck, layoutEnd, spelled_append, spelled_layoutData]
  cases hf : sl.fdf <;> cases hi : sl.ide <;> cases t <;>
    simp [spelled_append, spelled_nil, spelled_field, spelled_field1, layoutValue, hf, hi, hdlc, hd, hr]

/-- The bits of the layout spell what the layout does. -/
theorem fieldValue_freshBits (sl : Slot) (l : List (FieldTag × Level)) (t : FieldTag) :
    fieldValue (freshBits sl l) t = spelled t 0 l := by
  unfold fieldValue spelled
  generalize 0 = n
  induction l generalizing n with
  | nil => rfl
  | cons f fs ih =>
    rw [freshBits, List.map_cons, List.foldl_cons, ← ih, List.filter_cons]
    by_cases h : f.1 = t <;> simp [spellBit, h, freshBits]

/-! ## The fields of a built frame (R241, R261) -/

/-- Re-derivation leaves the logical bits outside the derived fields whole, in the tail too (R261). -/
theorem restuff_filter (q : FrameBit → Bool) (hq : ∀ (b : FrameBit) (v : Level), q { b with val := v } = q b)
    (hs : ∀ b, q b = true → b.stuff = .notStuff) (hk : ∀ b, q b = true → opensFixedRegion b = false) (cfg : Config)
    (sl : Slot) : (restuff cfg sl).filter q = sl.bits.filter q := by
  have hlogical : ∀ bits : List FrameBit, (bits.filter fun b => b.stuff == .notStuff).filter q = bits.filter q := by
    intro bits
    rw [List.filter_filter]
    refine List.filter_congr fun b _ => ?_
    cases hb : q b with
    | false => rfl
    | true => simp [hs b hb]
  conv_rhs => rw [← spanOf_append_tailOf sl.bits, List.filter_append, ← hlogical (spanOf sl.bits)]
  rw [restuff, List.filter_append, ← hlogical, restuffSpan_filter _ _ _ (logicalBits_all_notStuff _),
    rederived_filter q hq hk]
  rfl

/-- What a field of a built frame spells, but for the derived ones (R241, R263). -/
theorem fieldValue_builtSlot (s : State) {t : FieldTag} (ht : t ≠ .stuffCount ∧ t ≠ .stuffParity ∧ t ≠ .crc) :
    fieldValue (builtSlot s).bits t = layoutValue (freshSlot s) s.byte t := by
  have hfilter : (builtSlot s).bits.filter (fun b => b.kind == t && b.stuff == .notStuff) =
      (layoutBits (freshSlot s) s.byte).filter fun b => b.kind == t && b.stuff == .notStuff :=
    restuff_filter _ (fun _ _ => rfl) (fun b hb => by simp_all) (fun b hb => by simp_all [opensFixedRegion]) s.cfg
      (layoutSlot s)
  rw [← spelled_layout, ← fieldValue_freshBits, fieldValue, hfilter]
  rfl

/-- Settles O48: each field spells its number, which a legal descriptor keeps within the field. -/
theorem builtFrameCarriesItsFields : Obligations.BuiltFrameCarriesItsFields := by
  intro s t d h ht hfatal
  obtain ⟨-, rfl⟩ := exec_build_of_legal h ht hfatal
  obtain ⟨-, hid, hdlc, -⟩ := h
  have hbase : (if flagIde s.flags then s.id.toNat / 2 ^ 18 % 2 ^ 11 else s.id.toNat % 2 ^ 11) =
      if flagIde s.flags then s.id.toNat / 2 ^ 18 else s.id.toNat := by
    split
    · have := s.id.isLt
      omega
    next hi =>
      have := hid (Bool.eq_false_iff.2 hi)
      omega
  have hflag : ∀ f : Bool,
      (if flagFdf s.flags then (flagFdf s.flags && f).toNat else 0) = (flagFdf s.flags && f).toNat := fun f => by
    cases flagFdf s.flags <;> rfl
  rw [exec_build_slot]
  simp only [fieldValue_builtSlot, ne_eq, reduceCtorEq, not_false_eq_true, and_self, layoutValue, freshSlot,
    dataLen_eq hdlc, true_and, and_true]
  refine ⟨hbase, rfl, rfl, hflag _, hflag _, ?_⟩
  split <;> rfl

end Sys2Proof.Machine
end

section
/-! SUPPORT. The derived fields of a re-derived span: the CRC round trip, the stuff count and its parity
(spec/43_bitframe_build.md R256 to R259, R261, R270, R276). -/

namespace Sys2Proof.Machine

/-! ## What enters the CRC (R258) -/

/-- What a bit before the CRC field puts into the CRC. -/
def crcFeed (cfg : Config) (fdf : Bool) (b : FrameBit) : List Level := if feedsCrc cfg fdf b then [b.val] else []

theorem crcInput_cons (cfg : Config) (fdf : Bool) (b : FrameBit) (bs : List FrameBit) :
    crcInput cfg fdf (b :: bs) = if b.kind = .crc then [] else crcFeed cfg fdf b ++ crcInput cfg fdf bs := by
  unfold crcInput crcFeed
  by_cases hk : b.kind = .crc
  · simp [hk]
  · by_cases hb : feedsCrc cfg fdf b = true <;> simp [hk, hb]

/-- Bits without a Crc tag stand before the first one. -/
theorem crcInput_append (cfg : Config) (fdf : Bool) {d : List FrameBit} (hd : ∀ b ∈ d, b.kind ≠ .crc)
    (f : List FrameBit) : crcInput cfg fdf (d ++ f) = d.flatMap (crcFeed cfg fdf) ++ crcInput cfg fdf f := by
  induction d with
  | nil => rfl
  | cons b bs ih =>
    rw [List.cons_append, crcInput_cons, if_neg (hd b (by simp)), ih fun c hc => hd c (by simp [hc]),
      List.flatMap_cons, List.append_assoc]

/-- Fixed stuff bits do not enter the CRC, and the one before the first Crc bit has its tag (R253, R258). -/
theorem crcInput_fixStuffFrom (cfg : Config) (fdf : Bool) (sl : Slot) (j : Nat) (p : Level) (bits : List FrameBit) :
    crcInput cfg fdf (fixStuffFrom sl j p bits) = crcInput cfg fdf bits := by
  have hfeed : ∀ k v, crcFeed cfg fdf (newBit sl k v .fixedStuff) = [] := fun _ _ => rfl
  induction bits generalizing j p with
  | nil => rfl
  | cons b bs ih =>
    unfold fixStuffFrom
    split <;> simp only [crcInput_cons, ih, newBit_kind, hfeed, List.nil_append]
    split <;> rfl

/-- A due stuff bit has the tag of the run, and does not enter a Classical CRC (R253, R258). -/
theorem crcInput_stuffDue (cfg : Config) (sl : Slot) {r : Option Run} (hr : ∀ x, r = some x → x.tag ≠ .crc)
    (bits : List FrameBit) :
    crcInput cfg false ((stuffDue sl r).toList ++ bits) = crcInput cfg false bits := by
  have hdue : ∀ d ∈ (stuffDue sl r).toList, d.kind ≠ .crc ∧ crcFeed cfg false d = [] := by
    intro d hd
    obtain ⟨x, hx, rfl⟩ := mem_stuffDue hd
    exact ⟨hr x hx, rfl⟩
  rw [crcInput_append _ _ fun d hd => (hdue d hd).1, List.flatMap_eq_nil_iff.2 fun d hd => (hdue d hd).2,
    List.nil_append]

/-- The run after a bit has the bit's tag. -/
theorem extendRun_tag (r : Option Run) (b : FrameBit) : (extendRun r b).tag = b.kind := by
  unfold extendRun
  split
  · split <;> rfl
  · rfl

/-- Dynamic stuff bits do not enter a Classical CRC, and none before the first Crc bit has its tag. -/
theorem crcInput_dynStuffFrom (cfg : Config) (sl : Slot) (om : Bool) {r : Option Run}
    (hr : ∀ x, r = some x → x.tag ≠ .crc) (bits : List FrameBit) :
    crcInput cfg false (dynStuffFrom sl om r bits).1 = crcInput cfg false bits := by
  induction bits generalizing r with
  | nil =>
    have hdue := crcInput_stuffDue cfg sl hr []
    rw [List.append_nil] at hdue
    rw [(dynStuffFrom_nil sl om r).1]
    cases om
    · exact hdue
    · rfl
  | cons b bs ih =>
    rw [(dynStuffFrom_cons sl om r b bs).1, crcInput_stuffDue cfg sl hr, crcInput_cons, crcInput_cons]
    by_cases hk : b.kind = .crc
    · simp only [hk, if_true]
    · rw [ih]
      rintro x ⟨⟩
      rw [extendRun_tag]
      exact hk

/-- The number that re-derivation writes into the Crc bits (R261). -/
def spanCrc (cfg : Config) (sl : Slot) (p : List FrameBit) : Nat :=
  if sl.fdf then crcOfSpan cfg sl ((stuffedDyn cfg sl p).1 ++ countedPart cfg sl p) else crcOfSpan cfg sl p

/-- The CRC of a re-derived span is the number written into it (R276). -/
theorem crcOfSpan_restuffSpan (cfg : Config) (sl : Slot) (p : List FrameBit) :
    crcOfSpan cfg sl (restuffSpan cfg sl p) = spanCrc cfg sl p := by
  unfold spanCrc crcOfSpan
  cases hf : sl.fdf with
  | false =>
    have hw := crcInput_writeField cfg false [] p (crcOfSpan cfg sl p) sl.crcKind.width
    rw [restuffSpan, hf, if_neg (by decide), if_neg (by decide), restuffClassical, dynStuff,
      crcInput_dynStuffFrom _ _ _ (by simp)]
    exact congrArg _ hw
  | true =>
    have hdyn : ∀ b ∈ (stuffedDyn cfg sl p).1, b.kind ≠ .crc := fun b hb hk => by
      have := stuffedDyn_opens hb
      simp [opensFixedRegion, hk] at this
    rw [restuffSpan, hf, if_pos rfl, if_pos rfl, restuffFd, fixStuff, crcInput_append _ _ hdyn, crcInput_fixStuffFrom,
      ← crcInput_append _ _ hdyn, codedPart, crcInput_writeField]

/-! ## The fields that re-derivation writes (R259, R261) -/

theorem fieldValue_congr {t : FieldTag} {bits bits' : List FrameBit} (h : fieldBits bits' t = fieldBits bits t) :
    fieldValue bits' t = fieldValue bits t :=
  congrArg (List.foldl (fun (n : Nat) (b : FrameBit) => 2 * n + b.val.toBool.toNat) 0) h

theorem fieldBits_eq (bits : List FrameBit) (t : FieldTag) :
    fieldBits bits t = bits.filter fun b => decide (b.kind = t ∧ b.stuff = .notStuff) :=
  List.filter_congr fun b _ => by simp [beq_eq_decide]

theorem fieldBits_append (d f : List FrameBit) (t : FieldTag) :
    fieldBits (d ++ f) t = fieldBits d t ++ fieldBits f t := List.filter_append d f

/-- Only the NotStuff bits belong to a field. -/
theorem fieldBits_notStuff (bits : List FrameBit) (t : FieldTag) :
    fieldBits (bits.filter fun b => b.stuff == .notStuff) t = fieldBits bits t := by
  rw [fieldBits, List.filter_filter]
  exact List.filter_congr fun b _ => by cases b.stuff == .notStuff <;> simp

/-- Bits of other tags than the fixed region's hold none of its fields. -/
theorem fieldBits_eq_nil {t : FieldTag} (ht : ∀ b : FrameBit, b.kind = t → opensFixedRegion b = true)
    {bits : List FrameBit} (h : ∀ b ∈ bits, opensFixedRegion b = false) : fieldBits bits t = [] := by
  refine List.filter_eq_nil_iff.2 fun b hb hk => ?_
  simp only [Bool.and_eq_true, beq_iff_eq] at hk
  exact absurd (ht b hk.1) (by simp [h b hb])

/-- The bits of a field of the fixed region all stand behind the dynamic part. -/
theorem fieldBits_dynPart_append {t : FieldTag} (ht : ∀ b : FrameBit, b.kind = t → opensFixedRegion b = true)
    (p f : List FrameBit) : fieldBits (dynPart p ++ f) t = fieldBits f t := by
  rw [fieldBits_append, fieldBits_eq_nil ht fun b hb => (mem_dynPart hb).2, List.nil_append]

theorem fieldBits_fixedPart {t : FieldTag} (ht : ∀ b : FrameBit, b.kind = t → opensFixedRegion b = true)
    (p : List FrameBit) : fieldBits (fixedPart p) t = fieldBits p t := by
  rw [← fieldBits_dynPart_append ht p, dynPart_append_fixedPart]

/-- Writing another field leaves the field's bits whole. -/
theorem fieldBits_writeField_ne {t tag : FieldTag} (h : t ≠ tag) (v w : Nat) (bits : List FrameBit) :
    fieldBits (writeField bits tag v w) t = fieldBits bits t :=
  writeField_filter _ (fun _ _ => rfl) tag (fun b hb => by simp_all) v w bits

/-- The bits of field `t` in `new` are those in `old` with the `w`-bit number `v` written into them. -/
def FieldDerived (t : FieldTag) (w v : Nat) (old new : List FrameBit) : Prop :=
  ∃ bits, fieldBits bits t = fieldBits old t ∧ fieldBits new t = fieldBits (writeField bits t v w) t

theorem FieldDerived.written {t : FieldTag} {w v : Nat} {old new : List FrameBit} (h : FieldDerived t w v old new) :
    FieldWritten t w v old new := by
  obtain ⟨bits, ho, hn⟩ := h
  have hw := fieldWritten_writeField t w v bits
  unfold FieldWritten at hw ⊢
  rwa [← ho, hn]

theorem FieldDerived.length {t : FieldTag} {w v : Nat} {old new : List FrameBit} (h : FieldDerived t w v old new) :
    (fieldBits new t).length = (fieldBits old t).length := h.written.1

/-- A derived field with as many bits as its number has spells the number. -/
theorem FieldDerived.value {t : FieldTag} {w v : Nat} {old new : List FrameBit} (h : FieldDerived t w v old new)
    (hv : v < 2 ^ w) (hl : (fieldBits new t).length = w) : fieldValue new t = v := by
  obtain ⟨bits, ho, hn⟩ := h
  rw [fieldValue_congr hn]
  refine fieldValue_writeField t v w bits hv ?_
  rw [List.countP_eq_length_filter, ← hl, hn]
  exact (fieldWritten_writeField t w v bits).1.symm

theorem fieldBits_restuffed (cfg : Config) (sl : Slot) (t : FieldTag) :
    fieldBits (spanOf (restuffed cfg sl).bits) t = fieldBits (rederived cfg sl (logicalBits sl.bits)) t := by
  rw [spanOf_restuffed, ← fieldBits_notStuff, restuffSpan_filter _ _ _ (logicalBits_all_notStuff _)]

/-- Re-derivation writes the CRC (R261). -/
theorem restuffed_crc (cfg : Config) (sl : Slot) :
    FieldDerived .crc sl.crcKind.width (spanCrc cfg sl (logicalBits sl.bits)) (spanOf sl.bits)
      (spanOf (restuffed cfg sl).bits) := by
  have hopens := opensFixedRegion_of_kind (t := .crc) rfl
  rw [FieldDerived, ← fieldBits_notStuff (spanOf sl.bits), fieldBits_restuffed, rederived, spanCrc]
  cases hf : sl.fdf with
  | false => exact ⟨logicalBits sl.bits, rfl, rfl⟩
  | true =>
    refine ⟨countedPart cfg sl (logicalBits sl.bits), ?_, fieldBits_dynPart_append hopens _ _⟩
    rw [countedPart, fieldBits_writeField_ne (by decide), fieldBits_writeField_ne (by decide),
      fieldBits_fixedPart hopens]
    rfl

/-- The number of dynamic stuff bits modulo 8 (R256). -/
def dynCount (bits : List FrameBit) : Nat := (bits.filter fun b => decide (b.stuff = .normalStuff)).length % 8

/-- The number that re-derivation writes into the stuff count of an FD span is that of the span's dynamic stuff bits. -/
theorem stuffGray_dynCount (cfg : Config) (sl : Slot) (hf : sl.fdf = true) :
    let g := stuffGray (stuffedDyn cfg sl (logicalBits sl.bits)).2
    let n := dynCount (spanOf (restuffed cfg sl).bits)
    g = n ^^^ (n / 2) ∧ grayParity g = n % 2 := by
  have hn : dynCount (spanOf (restuffed cfg sl).bits) = (stuffedDyn cfg sl (logicalBits sl.bits)).2 % 8 := by
    rw [dynCount, ← List.countP_eq_length_filter, spanOf_restuffed,
      ← restuffFd_count hf (logicalBits_all_notStuff sl.bits)]
    rfl
  dsimp only
  rw [hn]
  exact stuffGray_eq _

/-- Re-derivation writes the stuff count of an FD span (R256, R261). -/
theorem restuffed_stuffCount (cfg : Config) (sl : Slot) (hf : sl.fdf = true) :
    let n := dynCount (spanOf (restuffed cfg sl).bits)
    FieldDerived .stuffCount 3 (n ^^^ (n / 2)) (spanOf sl.bits) (spanOf (restuffed cfg sl).bits) := by
  have hopens := opensFixedRegion_of_kind (t := .stuffCount) rfl
  dsimp only
  rw [← (stuffGray_dynCount cfg sl hf).1, FieldDerived, ← fieldBits_notStuff (spanOf sl.bits), fieldBits_restuffed,
    rederived, if_pos hf]
  refine ⟨fixedPart (logicalBits sl.bits), fieldBits_fixedPart hopens _, ?_⟩
  rw [fieldBits_dynPart_append hopens, codedPart, fieldBits_writeField_ne (by decide), countedPart,
    fieldBits_writeField_ne (by decide)]

/-- Re-derivation writes the parity of the stuff count of an FD span (R256, R261). -/
theorem restuffed_stuffParity (cfg : Config) (sl : Slot) (hf : sl.fdf = true) :
    FieldDerived .stuffParity 1 (dynCount (spanOf (restuffed cfg sl).bits) % 2) (spanOf sl.bits)
      (spanOf (restuffed cfg sl).bits) := by
  have hopens := opensFixedRegion_of_kind (t := .stuffParity) rfl
  rw [← (stuffGray_dynCount cfg sl hf).2, FieldDerived, ← fieldBits_notStuff (spanOf sl.bits), fieldBits_restuffed,
    rederived, if_pos hf]
  refine ⟨writeField (fixedPart (logicalBits sl.bits)) .stuffCount
    (stuffGray (stuffedDyn cfg sl (logicalBits sl.bits)).2) 3, ?_, ?_⟩
  · rw [fieldBits_writeField_ne (by decide)]
    exact fieldBits_fixedPart hopens _
  · rw [fieldBits_dynPart_append hopens, codedPart, fieldBits_writeField_ne (by decide), countedPart]

/-- In a Classical span only the Crc bits are written (R261). -/
theorem fieldBits_restuffed_classical (cfg : Config) (sl : Slot) (hf : sl.fdf = false) {t : FieldTag} (ht : t ≠ .crc) :
    fieldBits (spanOf (restuffed cfg sl).bits) t = fieldBits (spanOf sl.bits) t := by
  rw [fieldBits_restuffed, rederived, hf, if_neg (by decide), fieldBits_writeField_ne ht]
  exact fieldBits_notStuff _ t

/-! ## The round trip (R276) -/

theorem gray_lt (n : Nat) : (n % 8) ^^^ (n % 8 / 2) < 2 ^ 3 :=
  Nat.xor_lt_two_pow (Nat.mod_lt _ (by decide)) ((Nat.div_le_self _ _).trans_lt (Nat.mod_lt _ (by decide)))

theorem spanCrc_lt (cfg : Config) (sl : Slot) (p : List FrameBit) : spanCrc cfg sl p < 2 ^ sl.crcKind.width := by
  unfold spanCrc
  split <;> exact crcOfSpan_lt _ _ _

/-- GET_CRC right after a re-derivation answers the number that it wrote (R270, R276). -/
theorem getCrc_restuffed {t u : State} {ix : SlotIx} {sl : Slot} (hs : t.slot ix = restuffed t.cfg sl)
    (hv : sl.valid = true) (hu : exec (.getCrc ix) t = .next u) :
    u.result.toNat = spanCrc t.cfg sl (logicalBits sl.bits) := by
  obtain rfl := Host.Outcome.next.inj ((exec_getCrc (hs ▸ hv)).symm.trans hu)
  rw [← crcOfSpan_restuffSpan, ← spanOf_restuffed, hs]
  exact toNat_ofNat_crcOfSpan _ _ _

theorem fieldBits_freshBits_length (sl : Slot) (l : List (FieldTag × Level)) (t : FieldTag) :
    (fieldBits (freshBits sl l) t).length = (l.map (·.1)).count t := by
  rw [← freshBits_kinds sl, ← filter_kind_length, fieldBits_eq]
  refine congrArg List.length (List.filter_congr fun b hb => ?_)
  obtain ⟨f, -, rfl⟩ := mem_freshBits hb
  exact decide_eq_decide.2 (and_iff_left rfl)

/-- How many bits a field of the fixed region has in the layout (R241). -/
theorem fieldBits_layoutBits_length {t : FieldTag} (ht : ∀ b : FrameBit, b.kind = t → opensFixedRegion b = true)
    (sl : Slot) (payload : Nat → Byte) :
    (fieldBits (spanOf (layoutBits sl payload)) t).length = ((layoutCheck sl).map (·.1)).count t := by
  have hlog : (spanOf (layoutBits sl payload)).filter (fun b => b.stuff == .notStuff) = layoutSpan sl payload :=
    (layoutBits_parts sl payload).1
  rw [← fieldBits_notStuff, hlog, layoutSpan, fieldBits_append, fieldBits_eq_nil ht layoutHead_opens, List.nil_append,
    fieldBits_freshBits_length]

/-- A built frame is its span and the end of the layout. -/
theorem builtSlot_span (s : State) :
    (builtSlot s).bits = spanOf (builtSlot s).bits ++ freshBits (freshSlot s) layoutEnd := by
  have htail : tailOf (builtSlot s).bits = freshBits (freshSlot s) layoutEnd :=
    (restuff_parts s.cfg (layoutSlot s)).2.1.trans (layoutBits_parts _ _).2
  rw [← htail, spanOf_append_tailOf]

/-- A field of the fixed region of a built frame stands in its span. -/
theorem fieldValue_builtSlot_span {t : FieldTag} (ht : ∀ b : FrameBit, b.kind = t → opensFixedRegion b = true)
    (s : State) : fieldValue (builtSlot s).bits t = fieldValue (spanOf (builtSlot s).bits) t := by
  conv_lhs => rw [builtSlot_span]
  refine fieldValue_congr ?_
  rw [fieldBits_append, fieldBits_eq_nil ht layoutEnd_opens, List.append_nil]

theorem dynCount_builtSlot_span (s : State) : dynCount (builtSlot s).bits = dynCount (spanOf (builtSlot s).bits) := by
  conv_lhs => rw [builtSlot_span]
  rw [dynCount, List.filter_append]
  exact congrArg (fun l : List FrameBit => l.length % 8) (List.append_nil _)

/-- A derived field of a built frame has as many bits as its number, and spells it. -/
theorem fieldValue_builtSlot_derived {s : State} {t : FieldTag} {w v : Nat}
    (ht : ∀ b : FrameBit, b.kind = t → opensFixedRegion b = true)
    (h : FieldDerived t w v (spanOf (layoutSlot s).bits) (spanOf (restuffed s.cfg (layoutSlot s)).bits))
    (hv : v < 2 ^ w) (hw : ((layoutCheck (freshSlot s)).map (·.1)).count t = w) : fieldValue (builtSlot s).bits t = v :=
  (fieldValue_builtSlot_span ht s).trans
    (h.value hv (h.length.trans ((fieldBits_layoutBits_length ht (freshSlot s) s.byte).trans hw)))

/-- The CRC of a built frame is the number its Crc bits spell. -/
theorem fieldValue_builtSlot_crc (s : State) :
    fieldValue (builtSlot s).bits .crc = spanCrc s.cfg (layoutSlot s) (logicalBits (layoutSlot s).bits) := by
  have hcount : ((layoutCheck (freshSlot s)).map (·.1)).count .crc = (freshSlot s).crcKind.width := by
    rw [layoutCheck_tags]
    cases (freshSlot s).fdf <;> simp [tags]
  exact fieldValue_builtSlot_derived (opensFixedRegion_of_kind rfl) (restuffed_crc s.cfg (layoutSlot s))
    (spanCrc_lt _ _ _) hcount

/-- The stuff count and the parity of a built FD frame (R256). -/
theorem fieldValue_builtSlot_stuffCount {s : State} (hf : flagFdf s.flags = true) :
    let n := dynCount (builtSlot s).bits
    fieldValue (builtSlot s).bits .stuffCount = n ^^^ (n / 2) ∧ fieldValue (builtSlot s).bits .stuffParity = n % 2 := by
  have htags := layoutCheck_tags_fd (sl := freshSlot s) hf
  dsimp only
  rw [dynCount_builtSlot_span]
  constructor
  · refine fieldValue_builtSlot_derived (opensFixedRegion_of_kind rfl)
      (restuffed_stuffCount s.cfg (layoutSlot s) hf) (gray_lt _) ?_
    simp [htags, tags, List.count_replicate]
  · refine fieldValue_builtSlot_derived (opensFixedRegion_of_kind rfl)
      (restuffed_stuffParity s.cfg (layoutSlot s) hf) (Nat.mod_lt _ (by decide)) ?_
    simp [htags, tags, List.count_replicate]

/-- Settles O54: what GET_CRC answers is the number that the re-derivation wrote into the Crc bits, and the other fields
hold the numbers it wrote there; a built frame has as many bits of each as its number. -/
theorem crcRoundTripAfterBuildAndUpdate : Obligations.CrcRoundTripAfterBuildAndUpdate := by
  intro s t u ix _ hf hu
  refine ⟨fun ht hc => ?_, fun ht => ?_⟩
  · obtain ⟨-, -, rfl⟩ := exec_build_completed ht hc hf
    rw [exec_build_slot, getCrc_restuffed (sl := layoutSlot s) (exec_build_slot s ix) rfl hu]
    exact ⟨(fieldValue_builtSlot_crc s).symm, fieldValue_builtSlot_stuffCount⟩
  · obtain ⟨hv, -, rfl⟩ := exec_update_completed ht hf
    rw [edited_restuff_slot, getCrc_restuffed (edited_restuff_slot s ix s.cfg) hv hu]
    simp only [← fieldBits_eq]
    have hcrc := restuffed_crc s.cfg (s.slot ix)
    have hcount := restuffed_stuffCount s.cfg (s.slot ix)
    have hparity := restuffed_stuffParity s.cfg (s.slot ix)
    have hclassical := fun hfd => @fieldBits_restuffed_classical s.cfg (s.slot ix) hfd
    exact ⟨fun hl => (hcrc.value (spanCrc_lt _ _ _) hl).symm, fun hfd => (hcount hfd).value (gray_lt _),
      fun hfd => (hparity hfd).value (Nat.mod_lt _ (by decide)), hcrc.written,
      fun hfd => ⟨(hcount hfd).written, (hparity hfd).written⟩,
      fun hfd => ⟨hclassical hfd (by decide), hclassical hfd (by decide)⟩⟩

end Sys2Proof.Machine
end

section
/-! SUPPORT. The lookup commands (spec/44_lookup.md): which bits each of them looks for, where it misses, what the counts
and the two reads answer, and the laws between them (R302). -/

namespace Sys2Proof.Machine

/-! ## The lookup commands with their filters as propositions (R116, R290 to R296) -/

theorem exec_getBitOf (ix : SlotIx) (k : FieldTag) (s : State) :
    exec (.getBitOf ix k) s = .next (findBit ix (fun b => decide (b.kind = k)) s) := by
  rw [← kind_beq]
  rfl

theorem exec_getBitOfNoStuff (ix : SlotIx) (k : FieldTag) (s : State) :
    exec (.getBitOfNoStuff ix k) s = .next (findBit ix (fun b => decide (b.kind = k ∧ b.stuff = .notStuff)) s) := by
  simp only [Bool.decide_and, ← beq_eq_decide]
  rfl

theorem exec_getStuffBit (ix : SlotIx) (kf : Option FieldTag) (vf : Option Level) (s : State) :
    exec (.getStuffBit ix kf vf) s = .next (findBit ix (fun b => decide (b.stuff = .normalStuff ∧
      (kf = none ∨ kf = some b.kind) ∧ (vf = none ∨ vf = some b.val))) s) := by
  have hq : (fun b : FrameBit => b.stuff == .normalStuff && matchesTag kf b && matchesLevel vf b) = fun b =>
      decide (b.stuff = .normalStuff ∧ (kf = none ∨ kf = some b.kind) ∧ (vf = none ∨ vf = some b.val)) := by
    funext b
    simp [beq_eq_decide, matchesTag_eq, matchesLevel_eq, Bool.and_assoc]
  rw [← hq]
  rfl

theorem exec_getFixedStuffBit (ix : SlotIx) (v : Level) (s : State) :
    exec (.getFixedStuffBit ix v) s = .next (findBit ix (fun b => decide (b.stuff = .fixedStuff ∧ b.val = v)) s) := by
  simp only [Bool.decide_and, ← beq_eq_decide]
  rfl

theorem exec_getNumStuffBits {sk : StuffKind} (h : sk ≠ .notStuff) (ix : SlotIx) (vf : Option Level) (s : State) :
    exec (.getNumStuffBits ix sk vf) s =
      .next (countBits ix (fun b => decide (b.stuff = sk ∧ (vf = none ∨ vf = some b.val))) s) := by
  have hq : (fun b : FrameBit => b.stuff == sk && matchesLevel vf b) = fun b =>
      decide (b.stuff = sk ∧ (vf = none ∨ vf = some b.val)) := by
    funext b
    simp [beq_eq_decide, matchesLevel_eq]
  rw [← hq]
  exact congrArg Host.Outcome.next (if_neg (by simpa using h))

theorem exec_getFieldLength (ix : SlotIx) (k : FieldTag) (s : State) :
    exec (.getFieldLength ix k) s = .next (countBits ix (fun b => decide (b.kind = k)) s) := by
  rw [← kind_beq]
  rfl

/-! ## Misses (R289 to R293, R300, R301) -/

/-- A search misses where no more than ARG0 bits match. -/
theorem findBit_miss {ix : SlotIx} {p : FrameBit → Bool} {s : State} (hv : (s.slot ix).valid = true)
    (h : (s.slot ix).bits.countP p ≤ s.arg0.toNat) : findBit ix p s = { s with code := .bitNotFound } :=
  findBit_none hv ((nth_eq_none p _ _).2 h)

/-- A draw set is empty exactly where nothing matches. -/
theorem positions_eq_nil {α : Type} {p : α → Bool} {l : List α} : positions p l = [] ↔ ∀ x ∈ l, ¬p x = true := by
  rw [← List.length_eq_zero_iff, positions_length, List.countP_eq_zero]

/-- Where no bit matches, a random selection misses. -/
theorem randomBit_misses (o : Nat → Nat) {ix : SlotIx} {p : FrameBit → Prop} [DecidablePred p] {s : State}
    (hv : (s.slot ix).valid = true) (h : ∀ b ∈ (s.slot ix).bits, ¬p b) :
    randomBit o ix (fun b => decide (p b)) s = { s with code := .bitNotFound } :=
  randomBit_miss hv (positions_eq_nil.2 fun b hb => by simpa using h b hb)

/-- Settles O23: a search misses by the count of its matches, a random selection by an empty draw set. -/
theorem searchesMissRecoverably : Obligations.SearchesMissRecoverably := by
  intro s ix hv
  obtain ⟨hrandom, hrandomOf, -⟩ := everyMatchingBitMayBeDrawn
  refine ⟨fun k h => ?_, fun k h => ?_, fun kf vf h => ?_, fun v h => ?_, fun vf h => ?_, fun k vf h => ?_⟩
  · rw [exec_getBitOf, findBit_miss hv h]
  · rw [exec_getBitOfNoStuff, findBit_miss hv h]
  · rw [exec_getStuffBit, findBit_miss hv h]
  · rw [exec_getFixedStuffBit, findBit_miss hv h]
  · rw [hrandom, randomBit_misses _ hv h]
  · rw [hrandomOf, randomBit_misses _ hv h]

/-! ## Counts and the checked index (R294 to R297) -/

/-- A count answers the number of matching bits. -/
theorem countBits_eq {ix : SlotIx} {s : State} (p : FrameBit → Bool) (hv : (s.slot ix).valid = true) :
    countBits ix p s = answered s (BitVec.ofNat 32 ((s.slot ix).bits.filter p).length) := by
  rw [countBits_valid hv, List.countP_eq_length_filter]
  rfl

/-- Settles O24: the counts are `countBits`, and the index is compared with the length. -/
theorem countsAndLengths : Obligations.CountsAndLengths := by
  intro s ix hv
  refine ⟨fun sk vf hsk => ?_, fun k => ?_, ?_, fun h => ?_, fun h => ?_⟩
  · rw [exec_getNumStuffBits hsk, countBits_eq _ hv]
  · rw [exec_getFieldLength, countBits_eq _ hv]
  · exact congrArg Host.Outcome.next (query_ok hv rfl)
  · exact congrArg Host.Outcome.next (query_ok hv (if_pos h))
  · exact congrArg Host.Outcome.next (query_error (e := .fatal .indexOutOfRange) hv (if_neg (Nat.not_lt.2 h)))

/-! ## READ_BIT and READ_PHASE_LEN (R298, R299) -/

/-- The word of READ_BIT as the sum of its fields. -/
theorem readBitWord_toNat (b : FrameBit) : (readBitWord b).toNat =
    b.kind.code + 2 ^ 5 * b.val.toBool.toNat + 2 ^ 6 * b.stuff.code + 2 ^ 16 * (b.tqs.length % 2 ^ 16) := by
  have hk : b.kind.code % 2 ^ 5 = b.kind.code := Nat.mod_eq_of_lt (b.kind.code_lt.trans (by decide))
  have hs : b.stuff.code % 2 ^ 2 = b.stuff.code := by cases b.stuff <;> rfl
  change BitVec.toNat (w := 16 + 8 + 2 + 1 + 5) (BitVec.ofNat 16 b.tqs.length ++ (0 : BitVec 8) ++ stuffField b.stuff
    ++ levelField b.val ++ tagField b.kind) = _
  simp only [toNat_append_add, stuffField, levelField, tagField, BitVec.toNat_ofNat, BitVec.toNat_ofBool,
    BitVec.ofNat_eq_ofNat, hk, hs]
  omega

/-- The word of READ_PHASE_LEN as the sum of its fields. -/
theorem readPhaseWord_toNat (b : FrameBit) (ph : Phase) : (readPhaseWord b ph).toNat =
    (b.tqs.filter fun q => decide (q.phase = ph)).length % 2 ^ 16 + 2 ^ 16 * (b.pbrp.get ph).toNat := by
  change BitVec.toNat (w := 8 + 8 + 16) ((0 : BitVec 8) ++ b.pbrp.get ph ++ BitVec.ofNat 16 (phaseCount b ph)) = _
  simp only [toNat_append_add, BitVec.toNat_ofNat, BitVec.ofNat_eq_ofNat, phaseCount, beq_eq_decide,
    List.countP_eq_length_filter]
  omega

/-- Settles O25: the selector names the bit, and each word is the sum of its fields. -/
theorem readsReportTheSelectedBit : Obligations.ReadsReportTheSelectedBit := by
  intro s ix sel i b hv hsel hb
  have hi := selectBit_of_selects hsel false
  refine ⟨⟨readBitWord b, congrArg Host.Outcome.next (query_ok hv (atBit_ok _ hi hb)), ?_⟩,
    fun ph => ⟨readPhaseWord b ph, congrArg Host.Outcome.next (query_ok hv (atBit_ok _ hi hb)), ?_⟩⟩
  · have hk := b.kind.code_lt
    have hl := Bool.toNat_lt b.val.toBool
    have hs : b.stuff.code < 4 := by cases b.stuff <;> decide
    rw [readBitWord_toNat]
    omega
  · have hp := (b.pbrp.get ph).isLt
    rw [readPhaseWord_toNat]
    omega

/-! ## Random selections (R300, R301) -/

/-- Where a bit matches, a random selection answers the position of a matching bit. -/
theorem randomBit_answers (o : Nat → Nat) {ix : SlotIx} {p : FrameBit → Prop} [DecidablePred p] {s : State}
    (hv : (s.slot ix).valid = true) (h : ∃ b ∈ (s.slot ix).bits, p b) :
    ∃ (i d : Nat) (b : FrameBit), (s.slot ix).bits[i]? = some b ∧ p b ∧
      randomBit o ix (fun b => decide (p b)) s =
        { s with code := .ok, result := BitVec.ofNat 32 i, draws := d } := by
  obtain ⟨b, hb, hp⟩ := h
  obtain ⟨i, hi, he⟩ := randomBit_hit o (p := fun b => decide (p b)) hv fun hnil =>
    positions_eq_nil.1 hnil b hb (decide_eq_true hp)
  obtain ⟨c, hc, hpc⟩ := (mem_positions _ _ i).1 (List.mem_of_getElem? hi)
  exact ⟨i, _, c, hc, of_decide_eq_true hpc, he⟩

/-- Settles O26: each selection is `randomBit` with the statement's filter. -/
theorem randomSelectionAnswersAMatchingBit : Obligations.RandomSelectionAnswersAMatchingBit := by
  intro s ix hv
  obtain ⟨hrandom, hrandomOf, -⟩ := everyMatchingBitMayBeDrawn
  refine ⟨fun vf h => ?_, fun k vf h => ?_⟩
  · obtain ⟨i, d, b, hb, hp, he⟩ := randomBit_answers Config.oracle hv h
    exact ⟨i, d, b, hb, hp, by rw [hrandom, he]⟩
  · obtain ⟨i, d, b, hb, ⟨hk, hval⟩, he⟩ := randomBit_answers Config.oracle hv h
    exact ⟨i, d, b, hb, hk, hval, by rw [hrandomOf, he]⟩

/-! ## The laws of the family (R302) -/

/-- A search succeeds exactly where more than ARG0 bits match. -/
theorem findBit_code_eq_ok {ix : SlotIx} (p : FrameBit → Bool) {s : State} (hv : (s.slot ix).valid = true) :
    (findBit ix p s).code = .ok ↔ s.arg0.toNat < ((s.slot ix).bits.filter p).length := by
  rw [← List.countP_eq_length_filter]
  cases h : nth p (s.slot ix).bits s.arg0.toNat with
  | none =>
    have hle := (nth_eq_none p _ _).1 h
    simp [findBit_none hv h, hle]
  | some i =>
    have hlt : s.arg0.toNat < (s.slot ix).bits.countP p :=
      Nat.lt_of_not_le fun hle => by simp [(nth_eq_none p _ _).2 hle] at h
    simp [findBit_some hv h, hlt]

/-- The n-th match of a weaker filter exists and stands no later than that of a stronger one. -/
theorem nth_of_imp {α : Type} {p q : α → Bool} (hqp : ∀ x, q x = true → p x = true) {l : List α} {n j : Nat}
    (h : nth q l n = some j) : ∃ i, nth p l n = some i ∧ i ≤ j := by
  obtain ⟨⟨x, hx, hqx⟩, hc⟩ := (nth_eq_some q l n j).1 h
  have hn : n + 1 ≤ (l.take (j + 1)).countP p :=
    calc n + 1 = (l.take (j + 1)).countP q := by simp [List.take_add_one, hx, hc, hqx]
      _ ≤ (l.take (j + 1)).countP p := List.countP_mono_left fun x _ => hqp x
  cases hi : nth p l n with
  | none =>
    have hmiss := (nth_eq_none p l n).1 hi
    have hle := (List.take_sublist (j + 1) l).countP_le (p := p)
    omega
  | some i =>
    refine ⟨i, rfl, Nat.le_of_not_lt fun hji => ?_⟩
    have hci := ((nth_eq_some p l n i).1 hi).2
    have hle : (l.take (j + 1)).countP p ≤ (l.take i).countP p := (List.take_sublist_take_left hji).countP_le
    omega

/-- The search of a weaker filter answers a position no greater than that of a stronger one. -/
theorem findBit_result_le {ix : SlotIx} {p q : FrameBit → Bool} {s : State} (hqp : ∀ b, q b = true → p b = true)
    (hv : (s.slot ix).valid = true) (hl : (s.slot ix).bits.length ≤ 2 ^ 24) (hok : (findBit ix q s).code = .ok) :
    (findBit ix p s).result.toNat ≤ (findBit ix q s).result.toNat := by
  cases hj : nth q (s.slot ix).bits s.arg0.toNat with
  | none =>
    rw [findBit_none hv hj] at hok
    cases hok
  | some j =>
    obtain ⟨i, hi, hij⟩ := nth_of_imp hqp hj
    have hjl := nth_lt hj
    rw [findBit_some hv hi, findBit_some hv hj, answer_result, answer_result, BitVec.toNat_ofNat, BitVec.toNat_ofNat]
    omega

/-- The elements of each value below `n` together are all of them. -/
theorem sum_filter_length {α : Type} (f : α → Nat) (n : Nat) {l : List α} (h : ∀ x ∈ l, f x < n) :
    ((List.range n).map fun c => (l.filter fun x => decide (f x = c)).length).sum = l.length := by
  have hcount := Multiset.sum_count_eq_card (s := Finset.range n) (m := (l.map f : Multiset Nat)) (by simpa using h)
  rw [Multiset.coe_card, List.length_map] at hcount
  simp only [← hcount, Multiset.coe_count, List.count, List.countP_map, ← List.countP_eq_length_filter]
  rfl

/-- Settles O28: whether a search succeeds is a count of its matches, the filter of GET_BIT_OF is the weaker one, and
each tag has a code below 28. -/
theorem lookupLaws : Obligations.LookupLaws := by
  intro s t ix k hv ht
  rw [exec_getBitOf] at ht
  obtain rfl := Host.Outcome.next.inj ht
  refine ⟨findBit_code_eq_ok _ hv, sum_filter_length _ 28 fun b _ => b.kind.code_lt, fun u hu => ?_,
    fun vf u hu hl n v hexec => ?_⟩
  · rw [exec_getBitOfNoStuff] at hu
    obtain rfl := Host.Outcome.next.inj hu
    refine ⟨findBit_code_eq_ok _ hv, fun hok hl => findBit_result_le (fun b hb => ?_) hv hl hok⟩
    exact decide_eq_true (of_decide_eq_true hb).1
  · rw [exec_getNumStuffBits (by decide), countBits_eq _ hv] at hu
    rw [exec_getStuffBit] at hexec
    obtain rfl := Host.Outcome.next.inj hu
    obtain rfl := Host.Outcome.next.inj hexec
    have hfits := List.length_filter_le
      (fun b : FrameBit => decide (b.stuff = .normalStuff ∧ (vf = none ∨ vf = some b.val))) (s.slot ix).bits
    refine (findBit_code_eq_ok (s := { s with arg0 := n }) _ hv).trans ?_
    rw [BitVec.toNat_ofNat, Nat.mod_eq_of_lt (by omega)]
    simp only [true_or, true_and]
    exact Iff.rfl

end Sys2Proof.Machine
end

section
/-! SUPPORT. The frame-surgery commands (spec/45_surgery.md): the bits each of them leaves in its slot (R330 to R342),
and the loss of arbitration followed by the winner's bits (R345). -/

namespace Sys2Proof.Machine

/-! ## Insertion and appending (R330, R333, R338) -/

/-- An edit that answers new bits leaves the slot with them. -/
theorem edit_bits {ix : SlotIx} {s : State} {f : Slot → Except Halt Edit} {bits : List FrameBit}
    (hv : (s.slot ix).valid = true) (hf : f (s.slot ix) = .ok { bits := bits }) : edit ix f s = edited s ix bits :=
  edit_ok hv hf

/-- Settles O39: ARG0 is compared for INSERT_BIT alone, and the new bits fit. -/
theorem insertAndAppendBits : Obligations.InsertAndAppendBits := by
  intro s ix hv
  refine ⟨fun k v pre post hbits harg hcap => congrArg Host.Outcome.next (edit_bits hv ?_),
    fun k v hlt => congrArg Host.Outcome.next (edit_error (e := .fatal .indexOutOfRange) hv (if_pos hlt)),
    fun k v hcap => congrArg Host.Outcome.next (edit_bits hv (fitBits_ok ?_)),
    fun hcap b hb => congrArg Host.Outcome.next (edit_bits hv (hb ▸ fitBits_ok ?_))⟩
  · have hle : ¬(pre ++ post).length < pre.length := by simp
    rw [hbits, harg, if_neg hle, List.take_left, List.drop_left]
    exact fitBits_ok (by simpa [Nat.add_assoc] using hcap)
  · simpa using hcap
  · simpa using hcap

/-! ## Removal (R331, R332, R342) -/

section
variable {s : State} {ix : SlotIx} {sel : BitSel} {i : Nat} {b : FrameBit}

theorem exec_removeBit (h : SelectsBit s ix sel i b) :
    exec (.removeBit ix sel) s = .next (edited s ix ((s.slot ix).bits.eraseIdx i)) :=
  congrArg Host.Outcome.next (edit_bits h.valid (atBit_ok _ h.position h.bit))

theorem exec_loseArbitration (h : SelectsBit s ix sel i b) :
    exec (.loseArbitration ix sel) s = .next (edited s ix ((s.slot ix).bits.take (i + 1))) :=
  congrArg Host.Outcome.next (edit_bits h.valid (atBit_ok _ h.position h.bit))

theorem exec_removeBitsFrom (hv : (s.slot ix).valid = true) (h : SelectsOrEnd (s.slot ix).bits sel s.arg0.toNat i) :
    exec (.removeBitsFrom ix sel) s = .next (edited s ix ((s.slot ix).bits.take i)) :=
  congrArg Host.Outcome.next (edit_bits hv (congrArg (Except.map _) (selectBit_of_selectsOrEnd h)))

end

/-- Settles O40: the selected position splits the bits into what goes and what stays. -/
theorem removeBits : Obligations.RemoveBits := by
  intro s ix sel hv
  refine ⟨fun pre post b hbits hsel => ?_, fun pre post hbits hsel => ?_⟩
  · have hb : (s.slot ix).bits[pre.length]? = some b := by simp [hbits]
    have h := selectsBit_of_selects hv hsel hb
    have herase : (pre ++ b :: post).eraseIdx pre.length = pre ++ post := by
      simp [List.eraseIdx_append_of_length_le]
    have htake : (pre ++ b :: post).take (pre.length + 1) = pre ++ [b] := by simp [List.take_append]
    exact ⟨by rw [exec_removeBit h, hbits, herase], by rw [exec_loseArbitration h, hbits, htake]⟩
  · rw [exec_removeBitsFrom hv hsel, hbits, List.take_left]

/-! ## Error and overload frames (R334 to R337) -/

/-- A splice keeps the bits before its position, and nothing follows the 14 new ones. -/
theorem spliced_append {sl : Slot} {pre post : List FrameBit} (hbits : sl.bits = pre ++ post)
    (flagTag : FieldTag) (flagVal : Level) (delimTag : FieldTag) :
    spliced sl pre.length flagTag flagVal delimTag =
      pre ++ List.replicate 6 (newBit sl flagTag flagVal .notStuff)
        ++ List.replicate 8 (newBit sl delimTag .recessive .notStuff) := by
  rw [spliced, hbits, List.take_left]

/-- A splice at a selected position whose 14 bits fit. -/
theorem splice_append {s : State} {ix : SlotIx} {sel : BitSel} {pre post : List FrameBit}
    (hv : (s.slot ix).valid = true) (hbits : (s.slot ix).bits = pre ++ post)
    (hsel : SelectsOrEnd (s.slot ix).bits sel s.arg0.toNat pre.length) (hcap : pre.length + 14 ≤ s.cfg.capBits)
    (flagTag : FieldTag) (flagVal : Level) (delimTag : FieldTag) :
    splice ix sel flagTag flagVal delimTag s = edited s ix
      (pre ++ List.replicate 6 (newBit (s.slot ix) flagTag flagVal .notStuff)
        ++ List.replicate 8 (newBit (s.slot ix) delimTag .recessive .notStuff)) := by
  refine edit_bits hv ?_
  rw [selectBit_of_selectsOrEnd hsel, ← spliced_append hbits]
  exact fitBits_ok (by simpa [spliced_append hbits, Nat.add_assoc] using hcap)

/-- Settles O41: each of the three is one splice. -/
theorem errorAndOverloadFrameShape : Obligations.ErrorAndOverloadFrameShape := by
  rintro s ix sel pre post _ _ _ _ _ hv hbits hsel hcap rfl rfl rfl rfl rfl
  have hsplice := splice_append hv hbits hsel hcap
  exact ⟨congrArg Host.Outcome.next (hsplice _ _ _), congrArg Host.Outcome.next (hsplice _ _ _),
    congrArg Host.Outcome.next (hsplice _ _ _)⟩

/-! ## The receiver's view (R340) -/

theorem receivedBit_eq (b : FrameBit) :
    receivedBit b = { b with val := if b.kind = .ack then .dominant else .recessive } := by
  simp [receivedBit]

/-- The receiver's view depends on the tag alone, which it keeps. -/
@[simp] theorem receivedBit_receivedBit (b : FrameBit) : receivedBit (receivedBit b) = receivedBit b := rfl

theorem exec_turnReceived {s : State} {ix : SlotIx} (hv : (s.slot ix).valid = true) :
    exec (.turnReceived ix) s = .next (edited s ix ((s.slot ix).bits.map receivedBit)) :=
  congrArg Host.Outcome.next (edit_bits hv rfl)

/-- Settles O42: every bit turns to its receiver's view, which is its own receiver's view. -/
theorem turnReceivedGivesTheReceiversView : Obligations.TurnReceivedGivesTheReceiversView := by
  intro s ix hv
  have hslot := edited_slot s ix ((s.slot ix).bits.map receivedBit)
  refine ⟨_, exec_turnReceived hv, ?_, ?_, ?_, fun i b hb => ?_⟩
  · rw [exec_turnReceived (by rw [hslot]; exact hv), edited_edited, hslot]
    simp [Function.comp_def]
  · rw [hslot]
  · rw [hslot, List.length_map]
  · rw [hslot, List.getElem?_map, hb, Option.map_some, receivedBit_eq]

/-! ## Arbitration loss and the winner (R345) -/

/-- Settles O44: the loser's slot keeps its first bits, the winner's slot is another one, and APPEND_FRAME joins the
two. -/
theorem arbitrationLossThenTheWinner : Obligations.ArbitrationLossThenTheWinner := by
  intro s t u ix jx hne hjx hix hlt hcap ht hu
  have hsel : SelectsBit s ix .index s.arg0.toNat (s.slot ix).bits[s.arg0.toNat] :=
    selectsBit_of_selects hix ⟨rfl, hlt⟩ (List.getElem?_eq_getElem hlt)
  rw [exec_loseArbitration hsel] at ht
  obtain rfl := Host.Outcome.next.inj ht
  have hloser := edited_slot s ix ((s.slot ix).bits.take (s.arg0.toNat + 1))
  have hwinner : (edited s ix ((s.slot ix).bits.take (s.arg0.toNat + 1))).slot jx = s.slot jx :=
    setSlot_slot_ne s ix jx _ hne.symm
  obtain ⟨-, happend⟩ := cloneAndAppendFrame _ ix jx (hwinner ▸ hjx)
  rw [hloser, hwinner] at happend
  have hfits : ((s.slot ix).bits.take (s.arg0.toNat + 1)).length + (s.slot jx).bits.length ≤ s.cfg.capBits :=
    (Nat.add_le_add_right (List.length_take_le _ _) _).trans hcap
  rw [happend hix hfits] at hu
  obtain rfl := Host.Outcome.next.inj hu
  exact ⟨rfl, rfl, by rw [edited_slot]⟩

end Sys2Proof.Machine
end

section
/-! SUPPORT. How a command ends (spec/00_scope.md R12, spec/60_exceptions.md R383 to R386): it completes, fails or
raises a fatal error, whatever CODE says before it; a fatal error lasts until reset; and a command whose bits do not fit
raises CAPACITY_EXCEEDED. -/

namespace Sys2Proof.Machine

/-! ## How a command ends (R12, R385, R386) -/

/-- How a command run in `s` leaves `t`, and leaves `t'` when CODE alone is changed before it (R12): it completes or
fails and writes CODE, so that both runs leave the same, or it raises a fatal error. A fail has moved the ORACLE's state
on only where `drawing` allows it. -/
inductive Ends (drawing : Prop) (s : State) : State → State → Prop
  | completes {t : State} (hc : t.code = .ok) (hf : t.fatal = s.fatal) : Ends drawing s t t
  | fails (c : ResultCode) (n : Nat) (hn : ¬drawing → n = s.draws) :
    Ends drawing s (fail c { s with draws := n }) (fail c { s with draws := n })
  | raises (f : FatalCause) (t' : State) : Ends drawing s (raiseFatal f s) t'

section
variable {drawing : Prop} {s : State} {ix : SlotIx}

theorem fail_ends (c c' : ResultCode) (s : State) : Ends drawing s (fail c s) (fail c { s with code := c' }) :=
  .fails c s.draws fun _ => rfl

theorem halt_ends (e : Halt) (c : ResultCode) (s : State) :
    Ends drawing s (halt e s) (halt e { s with code := c }) := by
  cases e with
  | fail c' => exact fail_ends c' c s
  | fatal f => exact .raises f _

/-- A command with the prologue on a slot ends as what follows the prologue does. -/
theorem withSlot_ends {c : ResultCode} {k k' : Slot → State} (hk : Ends drawing s (k (s.slot ix)) (k' (s.slot ix))) :
    Ends drawing s (withSlot ix s k) (withSlot ix { s with code := c } k') := by
  cases hv : (s.slot ix).valid with
  | false => exact withSlot_invalid ix s k hv ▸ .raises _ _
  | true =>
    rw [withSlot_valid ix s k hv, withSlot_valid ix { s with code := c } k' hv]
    exact hk

theorem query_ends (f : Slot → Except Halt Word) (c : ResultCode) :
    Ends drawing s (query ix f s) (query ix f { s with code := c }) := by
  refine withSlot_ends ?_
  cases f (s.slot ix) with
  | ok v => exact .completes rfl rfl
  | error e => exact halt_ends e c s

theorem edit_ends (f : Slot → Except Halt Edit) (c : ResultCode) :
    Ends drawing s (edit ix f s) (edit ix f { s with code := c }) := by
  refine withSlot_ends ?_
  cases f (s.slot ix) with
  | ok e =>
    obtain ⟨bits, reply⟩ := e
    cases reply <;> exact .completes rfl rfl
  | error e => exact halt_ends e c s

theorem randomBit_ends (o : Nat → Nat) (p : FrameBit → Bool) (c : ResultCode) :
    Ends drawing s (randomBit o ix p s) (randomBit o ix p { s with code := c }) := by
  refine withSlot_ends ?_
  cases positions p (s.slot ix).bits with
  | nil => exact fail_ends _ c s
  | cons i is => exact .completes rfl rfl

theorem buildInto_ends (dst : SlotIx) (c : ResultCode) :
    Ends drawing s (buildInto dst s) (buildInto dst { s with code := c }) := by
  have hc : buildCheck { s with code := c } = buildCheck s := rfl
  have hb : builtSlot { s with code := c } = builtSlot s := rfl
  simp only [buildInto, hc, hb]
  split
  · exact fail_ends _ c s
  · split
    · exact .raises _ _
    · exact .completes rfl rfl

end

/-- RANDOMIZE does not read CODE. -/
theorem randomizeWith_code (o : Nat → Nat) (s : State) (c : ResultCode) :
    randomizeWith o { s with code := c } = randomizeWith o s := rfl

theorem randomizeWith_ends {drawing : Prop} (hd : drawing) (o : Nat → Nat) (s : State) (c : ResultCode) :
    Ends drawing s (randomizeWith o s) (randomizeWith o { s with code := c }) := by
  rw [randomizeWith_code o s c]
  obtain ⟨c', n, h⟩ | ⟨flags, id, dlc, data, n, h⟩ := randomizeWith_cases o s <;> rw [h]
  · exact .fails c' n fun hn => absurd hd hn
  · exact .completes rfl rfl

/-- Every command ends in one of the three ways, and only RANDOMIZE may fail after a draw (R12, R385, R386). -/
theorem exec_ends {i : Instr} {s t : State} (h : exec i s = .next t) (c : ResultCode) :
    ∃ t', exec i { s with code := c } = .next t' ∧ Ends (i = .randomize) s t t' := by
  cases i <;> injection h with h <;> subst h <;> refine ⟨_, rfl, ?_⟩
  case build => exact buildInto_ends _ c
  case randomize => exact randomizeWith_ends rfl _ s c
  case clone => exact withSlot_ends (.completes rfl rfl)
  case getNumStuffBits =>
    split
    · exact .raises _ _
    · exact query_ends _ c
  case getRandomBit | getRandomBitOf => exact randomBit_ends _ _ c
  case getCrc | getBitOf | getBitOfNoStuff | getStuffBit | getFixedStuffBit | getBitIndex | getFieldLength | getLength
      | readBit | readPhaseLen | qzLength | qzRead => exact query_ends _ c
  case appendFrame => exact withSlot_ends (withSlot_ends (edit_ends _ c))
  all_goals exact edit_ends _ c

/-- Settles O16: a command that is not fatal completes or fails, and only a fail leaves another CODE than OK. -/
theorem failIsPreciseAndCodeIsNotSticky : Obligations.FailIsPreciseAndCodeIsNotSticky := by
  intro i s t hs ht hfatal
  refine ⟨fun c => ?_, fun hcode => ?_⟩
  · obtain ⟨t', ht', h⟩ := exec_ends ht c
    cases h with
    | completes => exact ht'
    | fails => exact ht'
    | raises => cases hfatal
  · obtain ⟨t', -, h⟩ := exec_ends ht s.code
    cases h with
    | completes hc => exact absurd hc hcode
    | fails c n hn => exact ⟨rfl, hn⟩
    | raises => cases hfatal

/-! ## A fatal error lasts until reset (R385) -/

/-- A command that leaves a fatal error where there was none has changed nothing else. -/
theorem exec_fatal {i : Instr} {s t : State} {f : FatalCause} (hs : s.fatal = none) (ht : exec i s = .next t)
    (hf : t.fatal = some f) : t = raiseFatal f s := by
  obtain ⟨t', -, h⟩ := exec_ends ht s.code
  cases h with
  | completes _ hkeep => cases hf.symm.trans (hkeep.trans hs)
  | fails => cases hf.symm.trans hs
  | raises g => cases hf; rfl

/-- While FATAL = 1 a write to any register is the storage alone. -/
theorem registerWrite_of_fatal {s : State} {f : FatalCause} (h : s.fatal = some f) (r : Reg) (v : Word) :
    registerWrite r v s = .next (writeReg r v s) := by
  by_cases hr : r = .cmd
  · subst hr
    exact commandWrite_fatal v h
  · exact registerWrite_ne_cmd hr v s

/-- Only reset ends the fatal state, and no other input changes its cause. -/
theorem hostInput_of_fatal {a : HostInput} {s t : State} {f : FatalCause} (h : s.fatal = some f)
    (ht : hostInput a s = .next t) : t.fatal = some f ∨ (t.fatal = none ∧ a = .reset) := by
  cases a with
  | write off size v =>
    obtain ⟨r, hr⟩ := accessReg_next ht
    rw [registerWrite_of_fatal h] at hr
    cases hr
    exact .inl ((writeReg_fatal r v s).trans h)
  | read off size =>
    obtain ⟨r, hr⟩ := accessReg_next ht
    cases hr
    exact .inl h
  | reset =>
    cases ht
    exact .inr ⟨rfl, rfl⟩

theorem step_of_fatal {s t : State} {f : FatalCause} (h : s.fatal = some f) (ht : step s = .next t) :
    t.fatal = some f ∨ (t.fatal = none ∧ ∃ rest, s.pending = .reset :: rest) := by
  cases hp : s.pending with
  | nil =>
    rw [step_idle hp] at ht
    cases ht
    exact .inl h
  | cons a rest =>
    rw [step_input hp] at ht
    exact (hostInput_of_fatal (s := { s with pending := rest }) h ht).imp_right fun ⟨hn, ha⟩ => ⟨hn, rest, by rw [ha]⟩

/-- Settles O15: of a command's three ends only `raiseFatal` sets FATAL, and then no write runs a command. -/
theorem fatalErrorIsPreciseAndSticky : Obligations.FatalErrorIsPreciseAndSticky := by
  refine ⟨fun i s t f => exec_fatal, fun s f rest hf => ⟨fun w hp => ?_, fun r v _ hp => ?_, fun r hp => ?_⟩,
    fun s t f => step_of_fatal⟩
  · exact (step_write (r := .cmd) hp).trans (registerWrite_of_fatal (s := { s with pending := rest }) hf .cmd w)
  · exact (step_write hp).trans (registerWrite_of_fatal (s := { s with pending := rest }) hf r v)
  · exact registerReadChangesNothing s rest r hp

/-! ## Capacity (R383, R329) -/

/-- An edit whose new bits do not fit raises CAPACITY_EXCEEDED. -/
theorem edit_capacity {ix : SlotIx} {s : State} {f : Slot → Except Halt Edit} {bits : List FrameBit}
    (hv : (s.slot ix).valid = true) (hf : f (s.slot ix) = fitBits s.cfg bits) (hl : s.cfg.capBits < bits.length) :
    edit ix f s = raiseFatal .capacityExceeded s :=
  edit_error (e := .fatal .capacityExceeded) hv (hf.trans (fitBits_error hl))

/-- BUILD of legal registers whose bits do not fit (R263). -/
theorem exec_build_capacity {s : State} (d : SlotIx) (h : BuildLegal s)
    (hl : s.cfg.capBits < (builtSlot s).bits.length) :
    exec (.build d) s = .next (raiseFatal .capacityExceeded s) := by
  obtain ⟨c, hc, -⟩ | ⟨-, -, he⟩ | ⟨-, hle, -⟩ := buildInto_cases d s
  · cases hc.symm.trans ((buildCheck_eq_none s).2 h)
  · exact congrArg Host.Outcome.next he
  · omega

/-- A splice leaves the bits before its position and 14 new ones (R334). -/
theorem spliced_length {sl : Slot} {p : Nat} (h : p ≤ sl.bits.length) (flagTag : FieldTag) (flagVal : Level)
    (delimTag : FieldTag) : (spliced sl p flagTag flagVal delimTag).length = p + 14 := by
  simp [spliced, h]

theorem splice_capacity {s : State} {ix : SlotIx} {sel : BitSel} {p : Nat} (hv : (s.slot ix).valid = true)
    (hsel : SelectsOrEnd (s.slot ix).bits sel s.arg0.toNat p) (hl : s.cfg.capBits < p + 14) (flagTag : FieldTag)
    (flagVal : Level) (delimTag : FieldTag) :
    splice ix sel flagTag flagVal delimTag s = raiseFatal .capacityExceeded s := by
  have hs := selectBit_of_selectsOrEnd hsel
  have hp : p ≤ (s.slot ix).bits.length := (selectBit_lt hs).elim Nat.le_of_lt fun h => h.2.le
  exact edit_capacity hv (by rw [hs]) (by rwa [spliced_length hp])

/-- Settles O19: each of the commands passes the bits it would leave through `fitBits`; BUILD compares their number
itself. -/
theorem capacityExceededRaisesFatal : Obligations.CapacityExceededRaisesFatal := by
  refine ⟨fun s d h hl => exec_build_capacity d h hl, fun s ix hv => ⟨fun k v hl => ⟨?_, fun harg => ?_⟩, fun hl => ?_,
    fun sel p hsel hl => ?_, fun jx hjx hl => ?_, fun hl => ?_⟩⟩
  · exact congrArg Host.Outcome.next (edit_capacity hv rfl (by simpa using hl))
  · exact congrArg Host.Outcome.next (edit_capacity hv (if_neg (Nat.not_lt.2 harg)) (by simp; omega))
  · exact congrArg Host.Outcome.next (edit_capacity hv rfl (by simpa using hl))
  · have hsplice := splice_capacity hv hsel hl
    exact ⟨congrArg Host.Outcome.next (hsplice _ _ _), congrArg Host.Outcome.next (hsplice _ _ _),
      congrArg Host.Outcome.next (hsplice _ _ _)⟩
  · refine congrArg Host.Outcome.next ?_
    rw [withSlot_valid ix s _ hv, withSlot_valid jx s _ hjx]
    exact edit_capacity hv rfl (List.length_append ▸ hl)
  · exact congrArg Host.Outcome.next (edit_capacity hv rfl hl)

end Sys2Proof.Machine
end

section
/-! SUPPORT. The idle step and reset (spec/70_reset_and_hazards.md R420, R421; spec/10_state.md R48): what each register
and each slot reads right after reset. -/

namespace Sys2Proof.Machine

/-- Settles O7: with no input pending the step is idle. -/
theorem nothingPendingNothingChanges : Obligations.NothingPendingNothingChanges :=
  fun _ => step_idle

/-! ## The reset values (R48) -/

/-- Every payload byte is 0 after reset, and so is what is read beyond the store. -/
@[simp] theorem reset_byte (j : Nat) : State.reset.byte j = 0 := by
  rw [State.byte, State.reset, Vector.getElem?_replicate]
  split <;> rfl

/-- BL and SP are 1 where NBT and DBT are 0; every other register reads 0. -/
theorem readReg_reset (r : Reg) : readReg r State.reset = if r = .nderiv ∨ r = .dderiv then 0x00010001 else 0 := by
  cases r with
  | data k =>
    rw [if_neg (by simp)]
    exact readReg_data fun j _ => by simp
  | _ => rfl

/-- Settles O14: the register and slot values of R48, the reset step, and that no other input ends the fatal state. -/
theorem resetGivesTheResetValues : Obligations.ResetGivesTheResetValues := by
  refine ⟨readReg_reset, fun ix => ?_, rfl, rfl, rfl, fun s rest hp => step_reset hp, fun s t f hf ht hnone => ?_⟩
  · rw [reset_slot]
    refine ⟨rfl, rfl, ⟨rfl, rfl, rfl, rfl, rfl, rfl, rfl⟩, ?_⟩
    rintro tm (rfl | rfl) <;> exact ⟨rfl, rfl, rfl, rfl, rfl⟩
  · obtain hkept | ⟨-, hreset⟩ := step_of_fatal hf ht
    · cases hkept.symm.trans hnone
    · exact hreset

end Sys2Proof.Machine
end
